-- ==== Sys2Proof/Word.lean ====
section
/-! DEFINITION. The word types of the machine (00_scope.md R7): bytes and addresses. -/

namespace Sys2Proof

/-- An 8-bit data value (R7). -/
abbrev Byte := BitVec 8

/-- A 16-bit address, and the width of PC (R7). -/
abbrev Addr := BitVec 16

end Sys2Proof
end

