-- ==== Sys2Proof/Syntax.lean ====
section
/-! DEFINITION. The instruction set as data: addressing modes, behavioural shapes and one constructor
of `Instr` for each of the 151 rows of spec/opcode_table.json (30_encoding.md R124, R125). -/

namespace Sys2Proof

/-- The addressing modes (40_addressing_alu.md R141 to R153) and the pseudo-mode BRK (R121). -/
inductive Mode where
  | imp
  | acc
  | imm
  | zp
  | zpx
  | zpy
  | abs
  | absx
  | absy
  | ind
  | izx
  | izy
  | rel
  | brk
  deriving DecidableEq, Repr

/-- The behavioural shapes (R170). -/
inductive Shape where
  | standard
  | readModifyWrite
  | branch
  | jump
  deriving DecidableEq, Repr

/-- The 56 mnemonics (R125). -/
inductive Mnemonic where
  | lda | ldx | ldy | sta | stx | sty | tax | tay | txa | tya | tsx | txs
  | adc | sbc | and | ora | eor | cmp | cpx | cpy | bit
  | inc | dec | inx | iny | dex | dey | asl | lsr | rol | ror
  | bpl | bmi | bvc | bvs | bcc | bcs | bne | beq
  | jmp | jsr | rts | rti | brk
  | clc | sec | cli | sei | clv | cld | sed | pha | pla | php | plp | nop
  deriving DecidableEq, Repr

/-- An instruction with its operand bytes: `b` is the operand byte of a two-byte instruction, `w`
the little-endian operand word of a three-byte one (R122). BRK carries no operand: its signature
byte is not read (R122, log 11). -/
inductive Instr where
  /-- LDA immediate, 0xA9 (R200). -/
  | ldaImm (b : Byte)
  /-- LDA zero page, 0xA5 (R200). -/
  | ldaZp (b : Byte)
  /-- LDA zero page,X, 0xB5 (R200). -/
  | ldaZpx (b : Byte)
  /-- LDA absolute, 0xAD (R200). -/
  | ldaAbs (w : Addr)
  /-- LDA absolute,X, 0xBD (R200). -/
  | ldaAbsx (w : Addr)
  /-- LDA absolute,Y, 0xB9 (R200). -/
  | ldaAbsy (w : Addr)
  /-- LDA (zp,X), 0xA1 (R200). -/
  | ldaIzx (b : Byte)
  /-- LDA (zp),Y, 0xB1 (R200). -/
  | ldaIzy (b : Byte)
  /-- LDX immediate, 0xA2 (R201). -/
  | ldxImm (b : Byte)
  /-- LDX zero page, 0xA6 (R201). -/
  | ldxZp (b : Byte)
  /-- LDX zero page,Y, 0xB6 (R201). -/
  | ldxZpy (b : Byte)
  /-- LDX absolute, 0xAE (R201). -/
  | ldxAbs (w : Addr)
  /-- LDX absolute,Y, 0xBE (R201). -/
  | ldxAbsy (w : Addr)
  /-- LDY immediate, 0xA0 (R202). -/
  | ldyImm (b : Byte)
  /-- LDY zero page, 0xA4 (R202). -/
  | ldyZp (b : Byte)
  /-- LDY zero page,X, 0xB4 (R202). -/
  | ldyZpx (b : Byte)
  /-- LDY absolute, 0xAC (R202). -/
  | ldyAbs (w : Addr)
  /-- LDY absolute,X, 0xBC (R202). -/
  | ldyAbsx (w : Addr)
  /-- STA zero page, 0x85 (R203). -/
  | staZp (b : Byte)
  /-- STA zero page,X, 0x95 (R203). -/
  | staZpx (b : Byte)
  /-- STA absolute, 0x8D (R203). -/
  | staAbs (w : Addr)
  /-- STA absolute,X, 0x9D (R203). -/
  | staAbsx (w : Addr)
  /-- STA absolute,Y, 0x99 (R203). -/
  | staAbsy (w : Addr)
  /-- STA (zp,X), 0x81 (R203). -/
  | staIzx (b : Byte)
  /-- STA (zp),Y, 0x91 (R203). -/
  | staIzy (b : Byte)
  /-- STX zero page, 0x86 (R204). -/
  | stxZp (b : Byte)
  /-- STX zero page,Y, 0x96 (R204). -/
  | stxZpy (b : Byte)
  /-- STX absolute, 0x8E (R204). -/
  | stxAbs (w : Addr)
  /-- STY zero page, 0x84 (R205). -/
  | styZp (b : Byte)
  /-- STY zero page,X, 0x94 (R205). -/
  | styZpx (b : Byte)
  /-- STY absolute, 0x8C (R205). -/
  | styAbs (w : Addr)
  /-- TAX implied, 0xAA (R206). -/
  | tax
  /-- TAY implied, 0xA8 (R207). -/
  | tay
  /-- TXA implied, 0x8A (R208). -/
  | txa
  /-- TYA implied, 0x98 (R209). -/
  | tya
  /-- TSX implied, 0xBA (R210). -/
  | tsx
  /-- TXS implied, 0x9A (R211). -/
  | txs
  /-- ADC immediate, 0x69 (R220). -/
  | adcImm (b : Byte)
  /-- ADC zero page, 0x65 (R220). -/
  | adcZp (b : Byte)
  /-- ADC zero page,X, 0x75 (R220). -/
  | adcZpx (b : Byte)
  /-- ADC absolute, 0x6D (R220). -/
  | adcAbs (w : Addr)
  /-- ADC absolute,X, 0x7D (R220). -/
  | adcAbsx (w : Addr)
  /-- ADC absolute,Y, 0x79 (R220). -/
  | adcAbsy (w : Addr)
  /-- ADC (zp,X), 0x61 (R220). -/
  | adcIzx (b : Byte)
  /-- ADC (zp),Y, 0x71 (R220). -/
  | adcIzy (b : Byte)
  /-- SBC immediate, 0xE9 (R221). -/
  | sbcImm (b : Byte)
  /-- SBC zero page, 0xE5 (R221). -/
  | sbcZp (b : Byte)
  /-- SBC zero page,X, 0xF5 (R221). -/
  | sbcZpx (b : Byte)
  /-- SBC absolute, 0xED (R221). -/
  | sbcAbs (w : Addr)
  /-- SBC absolute,X, 0xFD (R221). -/
  | sbcAbsx (w : Addr)
  /-- SBC absolute,Y, 0xF9 (R221). -/
  | sbcAbsy (w : Addr)
  /-- SBC (zp,X), 0xE1 (R221). -/
  | sbcIzx (b : Byte)
  /-- SBC (zp),Y, 0xF1 (R221). -/
  | sbcIzy (b : Byte)
  /-- AND immediate, 0x29 (R222). -/
  | andImm (b : Byte)
  /-- AND zero page, 0x25 (R222). -/
  | andZp (b : Byte)
  /-- AND zero page,X, 0x35 (R222). -/
  | andZpx (b : Byte)
  /-- AND absolute, 0x2D (R222). -/
  | andAbs (w : Addr)
  /-- AND absolute,X, 0x3D (R222). -/
  | andAbsx (w : Addr)
  /-- AND absolute,Y, 0x39 (R222). -/
  | andAbsy (w : Addr)
  /-- AND (zp,X), 0x21 (R222). -/
  | andIzx (b : Byte)
  /-- AND (zp),Y, 0x31 (R222). -/
  | andIzy (b : Byte)
  /-- ORA immediate, 0x09 (R223). -/
  | oraImm (b : Byte)
  /-- ORA zero page, 0x05 (R223). -/
  | oraZp (b : Byte)
  /-- ORA zero page,X, 0x15 (R223). -/
  | oraZpx (b : Byte)
  /-- ORA absolute, 0x0D (R223). -/
  | oraAbs (w : Addr)
  /-- ORA absolute,X, 0x1D (R223). -/
  | oraAbsx (w : Addr)
  /-- ORA absolute,Y, 0x19 (R223). -/
  | oraAbsy (w : Addr)
  /-- ORA (zp,X), 0x01 (R223). -/
  | oraIzx (b : Byte)
  /-- ORA (zp),Y, 0x11 (R223). -/
  | oraIzy (b : Byte)
  /-- EOR immediate, 0x49 (R224). -/
  | eorImm (b : Byte)
  /-- EOR zero page, 0x45 (R224). -/
  | eorZp (b : Byte)
  /-- EOR zero page,X, 0x55 (R224). -/
  | eorZpx (b : Byte)
  /-- EOR absolute, 0x4D (R224). -/
  | eorAbs (w : Addr)
  /-- EOR absolute,X, 0x5D (R224). -/
  | eorAbsx (w : Addr)
  /-- EOR absolute,Y, 0x59 (R224). -/
  | eorAbsy (w : Addr)
  /-- EOR (zp,X), 0x41 (R224). -/
  | eorIzx (b : Byte)
  /-- EOR (zp),Y, 0x51 (R224). -/
  | eorIzy (b : Byte)
  /-- CMP immediate, 0xC9 (R225). -/
  | cmpImm (b : Byte)
  /-- CMP zero page, 0xC5 (R225). -/
  | cmpZp (b : Byte)
  /-- CMP zero page,X, 0xD5 (R225). -/
  | cmpZpx (b : Byte)
  /-- CMP absolute, 0xCD (R225). -/
  | cmpAbs (w : Addr)
  /-- CMP absolute,X, 0xDD (R225). -/
  | cmpAbsx (w : Addr)
  /-- CMP absolute,Y, 0xD9 (R225). -/
  | cmpAbsy (w : Addr)
  /-- CMP (zp,X), 0xC1 (R225). -/
  | cmpIzx (b : Byte)
  /-- CMP (zp),Y, 0xD1 (R225). -/
  | cmpIzy (b : Byte)
  /-- CPX immediate, 0xE0 (R226). -/
  | cpxImm (b : Byte)
  /-- CPX zero page, 0xE4 (R226). -/
  | cpxZp (b : Byte)
  /-- CPX absolute, 0xEC (R226). -/
  | cpxAbs (w : Addr)
  /-- CPY immediate, 0xC0 (R227). -/
  | cpyImm (b : Byte)
  /-- CPY zero page, 0xC4 (R227). -/
  | cpyZp (b : Byte)
  /-- CPY absolute, 0xCC (R227). -/
  | cpyAbs (w : Addr)
  /-- BIT zero page, 0x24 (R228). -/
  | bitZp (b : Byte)
  /-- BIT absolute, 0x2C (R228). -/
  | bitAbs (w : Addr)
  /-- INC zero page, 0xE6 (R240). -/
  | incZp (b : Byte)
  /-- INC zero page,X, 0xF6 (R240). -/
  | incZpx (b : Byte)
  /-- INC absolute, 0xEE (R240). -/
  | incAbs (w : Addr)
  /-- INC absolute,X, 0xFE (R240). -/
  | incAbsx (w : Addr)
  /-- DEC zero page, 0xC6 (R241). -/
  | decZp (b : Byte)
  /-- DEC zero page,X, 0xD6 (R241). -/
  | decZpx (b : Byte)
  /-- DEC absolute, 0xCE (R241). -/
  | decAbs (w : Addr)
  /-- DEC absolute,X, 0xDE (R241). -/
  | decAbsx (w : Addr)
  /-- INX implied, 0xE8 (R242). -/
  | inx
  /-- INY implied, 0xC8 (R243). -/
  | iny
  /-- DEX implied, 0xCA (R244). -/
  | dex
  /-- DEY implied, 0x88 (R245). -/
  | dey
  /-- ASL accumulator, 0x0A (R246). -/
  | aslAcc
  /-- ASL zero page, 0x06 (R247). -/
  | aslZp (b : Byte)
  /-- ASL zero page,X, 0x16 (R247). -/
  | aslZpx (b : Byte)
  /-- ASL absolute, 0x0E (R247). -/
  | aslAbs (w : Addr)
  /-- ASL absolute,X, 0x1E (R247). -/
  | aslAbsx (w : Addr)
  /-- LSR accumulator, 0x4A (R248). -/
  | lsrAcc
  /-- LSR zero page, 0x46 (R249). -/
  | lsrZp (b : Byte)
  /-- LSR zero page,X, 0x56 (R249). -/
  | lsrZpx (b : Byte)
  /-- LSR absolute, 0x4E (R249). -/
  | lsrAbs (w : Addr)
  /-- LSR absolute,X, 0x5E (R249). -/
  | lsrAbsx (w : Addr)
  /-- ROL accumulator, 0x2A (R250). -/
  | rolAcc
  /-- ROL zero page, 0x26 (R251). -/
  | rolZp (b : Byte)
  /-- ROL zero page,X, 0x36 (R251). -/
  | rolZpx (b : Byte)
  /-- ROL absolute, 0x2E (R251). -/
  | rolAbs (w : Addr)
  /-- ROL absolute,X, 0x3E (R251). -/
  | rolAbsx (w : Addr)
  /-- ROR accumulator, 0x6A (R252). -/
  | rorAcc
  /-- ROR zero page, 0x66 (R253). -/
  | rorZp (b : Byte)
  /-- ROR zero page,X, 0x76 (R253). -/
  | rorZpx (b : Byte)
  /-- ROR absolute, 0x6E (R253). -/
  | rorAbs (w : Addr)
  /-- ROR absolute,X, 0x7E (R253). -/
  | rorAbsx (w : Addr)
  /-- BPL relative, 0x10 (R260). -/
  | bpl (b : Byte)
  /-- BMI relative, 0x30 (R261). -/
  | bmi (b : Byte)
  /-- BVC relative, 0x50 (R262). -/
  | bvc (b : Byte)
  /-- BVS relative, 0x70 (R263). -/
  | bvs (b : Byte)
  /-- BCC relative, 0x90 (R264). -/
  | bcc (b : Byte)
  /-- BCS relative, 0xB0 (R265). -/
  | bcs (b : Byte)
  /-- BNE relative, 0xD0 (R266). -/
  | bne (b : Byte)
  /-- BEQ relative, 0xF0 (R267). -/
  | beq (b : Byte)
  /-- JMP absolute, 0x4C (R280). -/
  | jmpAbs (w : Addr)
  /-- JMP indirect, 0x6C (R280). -/
  | jmpInd (w : Addr)
  /-- JSR absolute, 0x20 (R281). -/
  | jsr (w : Addr)
  /-- RTS implied, 0x60 (R282). -/
  | rts
  /-- RTI implied, 0x40 (R283). -/
  | rti
  /-- BRK BRK pseudo-mode, 0x00 (R284). -/
  | brk
  /-- CLC implied, 0x18 (R300). -/
  | clc
  /-- SEC implied, 0x38 (R301). -/
  | sec
  /-- CLI implied, 0x58 (R302). -/
  | cli
  /-- SEI implied, 0x78 (R303). -/
  | sei
  /-- CLV implied, 0xB8 (R304). -/
  | clv
  /-- CLD implied, 0xD8 (R305). -/
  | cld
  /-- SED implied, 0xF8 (R306). -/
  | sed
  /-- PHA implied, 0x48 (R307). -/
  | pha
  /-- PLA implied, 0x68 (R308). -/
  | pla
  /-- PHP implied, 0x08 (R309). -/
  | php
  /-- PLP implied, 0x28 (R310). -/
  | plp
  /-- NOP implied, 0xEA (R311). -/
  | nop
  deriving DecidableEq, Repr

/-- The mnemonic of an instruction (R125). -/
def Instr.mnemonic : Instr → Mnemonic
  | .ldaImm _ | .ldaZp _ | .ldaZpx _ | .ldaAbs _ | .ldaAbsx _ | .ldaAbsy _ | .ldaIzx _ | .ldaIzy _ => .lda
  | .ldxImm _ | .ldxZp _ | .ldxZpy _ | .ldxAbs _ | .ldxAbsy _ => .ldx
  | .ldyImm _ | .ldyZp _ | .ldyZpx _ | .ldyAbs _ | .ldyAbsx _ => .ldy
  | .staZp _ | .staZpx _ | .staAbs _ | .staAbsx _ | .staAbsy _ | .staIzx _ | .staIzy _ => .sta
  | .stxZp _ | .stxZpy _ | .stxAbs _ => .stx
  | .styZp _ | .styZpx _ | .styAbs _ => .sty
  | .tax => .tax
  | .tay => .tay
  | .txa => .txa
  | .tya => .tya
  | .tsx => .tsx
  | .txs => .txs
  | .adcImm _ | .adcZp _ | .adcZpx _ | .adcAbs _ | .adcAbsx _ | .adcAbsy _ | .adcIzx _ | .adcIzy _ => .adc
  | .sbcImm _ | .sbcZp _ | .sbcZpx _ | .sbcAbs _ | .sbcAbsx _ | .sbcAbsy _ | .sbcIzx _ | .sbcIzy _ => .sbc
  | .andImm _ | .andZp _ | .andZpx _ | .andAbs _ | .andAbsx _ | .andAbsy _ | .andIzx _ | .andIzy _ => .and
  | .oraImm _ | .oraZp _ | .oraZpx _ | .oraAbs _ | .oraAbsx _ | .oraAbsy _ | .oraIzx _ | .oraIzy _ => .ora
  | .eorImm _ | .eorZp _ | .eorZpx _ | .eorAbs _ | .eorAbsx _ | .eorAbsy _ | .eorIzx _ | .eorIzy _ => .eor
  | .cmpImm _ | .cmpZp _ | .cmpZpx _ | .cmpAbs _ | .cmpAbsx _ | .cmpAbsy _ | .cmpIzx _ | .cmpIzy _ => .cmp
  | .cpxImm _ | .cpxZp _ | .cpxAbs _ => .cpx
  | .cpyImm _ | .cpyZp _ | .cpyAbs _ => .cpy
  | .bitZp _ | .bitAbs _ => .bit
  | .incZp _ | .incZpx _ | .incAbs _ | .incAbsx _ => .inc
  | .decZp _ | .decZpx _ | .decAbs _ | .decAbsx _ => .dec
  | .inx => .inx
  | .iny => .iny
  | .dex => .dex
  | .dey => .dey
  | .aslAcc | .aslZp _ | .aslZpx _ | .aslAbs _ | .aslAbsx _ => .asl
  | .lsrAcc | .lsrZp _ | .lsrZpx _ | .lsrAbs _ | .lsrAbsx _ => .lsr
  | .rolAcc | .rolZp _ | .rolZpx _ | .rolAbs _ | .rolAbsx _ => .rol
  | .rorAcc | .rorZp _ | .rorZpx _ | .rorAbs _ | .rorAbsx _ => .ror
  | .bpl _ => .bpl
  | .bmi _ => .bmi
  | .bvc _ => .bvc
  | .bvs _ => .bvs
  | .bcc _ => .bcc
  | .bcs _ => .bcs
  | .bne _ => .bne
  | .beq _ => .beq
  | .jmpAbs _ | .jmpInd _ => .jmp
  | .jsr _ => .jsr
  | .rts => .rts
  | .rti => .rti
  | .brk => .brk
  | .clc => .clc
  | .sec => .sec
  | .cli => .cli
  | .sei => .sei
  | .clv => .clv
  | .cld => .cld
  | .sed => .sed
  | .pha => .pha
  | .pla => .pla
  | .php => .php
  | .plp => .plp
  | .nop => .nop

/-- The addressing mode of an instruction (R125). -/
def Instr.mode : Instr → Mode
  | .ldaImm _ | .ldxImm _ | .ldyImm _ | .adcImm _ | .sbcImm _ | .andImm _ | .oraImm _ | .eorImm _ |
    .cmpImm _ | .cpxImm _ | .cpyImm _ => .imm
  | .ldaZp _ | .ldxZp _ | .ldyZp _ | .staZp _ | .stxZp _ | .styZp _ | .adcZp _ | .sbcZp _ |
    .andZp _ | .oraZp _ | .eorZp _ | .cmpZp _ | .cpxZp _ | .cpyZp _ | .bitZp _ | .incZp _ |
    .decZp _ | .aslZp _ | .lsrZp _ | .rolZp _ | .rorZp _ => .zp
  | .ldaZpx _ | .ldyZpx _ | .staZpx _ | .styZpx _ | .adcZpx _ | .sbcZpx _ | .andZpx _ | .oraZpx _ |
    .eorZpx _ | .cmpZpx _ | .incZpx _ | .decZpx _ | .aslZpx _ | .lsrZpx _ | .rolZpx _ | .rorZpx _ => .zpx
  | .ldaAbs _ | .ldxAbs _ | .ldyAbs _ | .staAbs _ | .stxAbs _ | .styAbs _ | .adcAbs _ | .sbcAbs _ |
    .andAbs _ | .oraAbs _ | .eorAbs _ | .cmpAbs _ | .cpxAbs _ | .cpyAbs _ | .bitAbs _ | .incAbs _ |
    .decAbs _ | .aslAbs _ | .lsrAbs _ | .rolAbs _ | .rorAbs _ | .jmpAbs _ | .jsr _ => .abs
  | .ldaAbsx _ | .ldyAbsx _ | .staAbsx _ | .adcAbsx _ | .sbcAbsx _ | .andAbsx _ | .oraAbsx _ |
    .eorAbsx _ | .cmpAbsx _ | .incAbsx _ | .decAbsx _ | .aslAbsx _ | .lsrAbsx _ | .rolAbsx _ |
    .rorAbsx _ => .absx
  | .ldaAbsy _ | .ldxAbsy _ | .staAbsy _ | .adcAbsy _ | .sbcAbsy _ | .andAbsy _ | .oraAbsy _ |
    .eorAbsy _ | .cmpAbsy _ => .absy
  | .ldaIzx _ | .staIzx _ | .adcIzx _ | .sbcIzx _ | .andIzx _ | .oraIzx _ | .eorIzx _ | .cmpIzx _ => .izx
  | .ldaIzy _ | .staIzy _ | .adcIzy _ | .sbcIzy _ | .andIzy _ | .oraIzy _ | .eorIzy _ | .cmpIzy _ => .izy
  | .ldxZpy _ | .stxZpy _ => .zpy
  | .tax | .tay | .txa | .tya | .tsx | .txs | .inx | .iny | .dex | .dey | .rts | .rti | .clc |
    .sec | .cli | .sei | .clv | .cld | .sed | .pha | .pla | .php | .plp | .nop => .imp
  | .aslAcc | .lsrAcc | .rolAcc | .rorAcc => .acc
  | .bpl _ | .bmi _ | .bvc _ | .bvs _ | .bcc _ | .bcs _ | .bne _ | .beq _ => .rel
  | .jmpInd _ => .ind
  | .brk => .brk

end Sys2Proof
end

