-- ==== Sys2Proof/Decode.lean ====
section
/-! DEFINITION. Decoding (30_encoding.md): the descriptor table of the 151 implemented opcode bytes,
the total decoder on byte lists, and the encoder, written from the same encodings (R121, R125). -/

namespace Sys2Proof

/-- A 16-bit word from its low and high byte (R65). -/
def wordOf (lo hi : Byte) : Addr := hi ++ lo

/-- The low byte of a word. -/
def lowByte (w : Addr) : Byte := w.extractLsb' 0 8

/-- The high byte of a word. -/
def highByte (w : Addr) : Byte := w.extractLsb' 8 8

/-- The length of an instruction by its mode (R126). -/
def Mode.length : Mode → Nat
  | .imp | .acc => 1
  | .imm | .zp | .zpx | .zpy | .izx | .izy | .rel | .brk => 2
  | .abs | .absx | .absy | .ind => 3

/-- How many operand bytes the machine reads after the opcode byte (R122, R154): the BRK signature
byte is not read. -/
def Mode.operandReads : Mode → Nat
  | .imp | .acc | .brk => 0
  | .imm | .zp | .zpx | .zpy | .izx | .izy | .rel => 1
  | .abs | .absx | .absy | .ind => 2

/-- An entry of the dispatch table (R123, R170): opcode byte, mnemonic, mode, shape, and the
instruction it makes of its two operand bytes (an operand byte the mode does not have is ignored). -/
structure Descriptor where
  opcode : Byte
  mnemonic : Mnemonic
  mode : Mode
  shape : Shape
  build : Byte → Byte → Instr

/-- The descriptors of LDA, LDX, LDY, STA, STX, STY, TAX, TAY, TXA, TYA, TSX, TXS (R125). -/
def descriptorsLoadStore : List Descriptor :=
  [ ⟨0xA9, .lda, .imm, .standard, fun b _ => .ldaImm b⟩,
    ⟨0xA5, .lda, .zp, .standard, fun b _ => .ldaZp b⟩,
    ⟨0xB5, .lda, .zpx, .standard, fun b _ => .ldaZpx b⟩,
    ⟨0xAD, .lda, .abs, .standard, fun lo hi => .ldaAbs (wordOf lo hi)⟩,
    ⟨0xBD, .lda, .absx, .standard, fun lo hi => .ldaAbsx (wordOf lo hi)⟩,
    ⟨0xB9, .lda, .absy, .standard, fun lo hi => .ldaAbsy (wordOf lo hi)⟩,
    ⟨0xA1, .lda, .izx, .standard, fun b _ => .ldaIzx b⟩,
    ⟨0xB1, .lda, .izy, .standard, fun b _ => .ldaIzy b⟩,
    ⟨0xA2, .ldx, .imm, .standard, fun b _ => .ldxImm b⟩,
    ⟨0xA6, .ldx, .zp, .standard, fun b _ => .ldxZp b⟩,
    ⟨0xB6, .ldx, .zpy, .standard, fun b _ => .ldxZpy b⟩,
    ⟨0xAE, .ldx, .abs, .standard, fun lo hi => .ldxAbs (wordOf lo hi)⟩,
    ⟨0xBE, .ldx, .absy, .standard, fun lo hi => .ldxAbsy (wordOf lo hi)⟩,
    ⟨0xA0, .ldy, .imm, .standard, fun b _ => .ldyImm b⟩,
    ⟨0xA4, .ldy, .zp, .standard, fun b _ => .ldyZp b⟩,
    ⟨0xB4, .ldy, .zpx, .standard, fun b _ => .ldyZpx b⟩,
    ⟨0xAC, .ldy, .abs, .standard, fun lo hi => .ldyAbs (wordOf lo hi)⟩,
    ⟨0xBC, .ldy, .absx, .standard, fun lo hi => .ldyAbsx (wordOf lo hi)⟩,
    ⟨0x85, .sta, .zp, .standard, fun b _ => .staZp b⟩,
    ⟨0x95, .sta, .zpx, .standard, fun b _ => .staZpx b⟩,
    ⟨0x8D, .sta, .abs, .standard, fun lo hi => .staAbs (wordOf lo hi)⟩,
    ⟨0x9D, .sta, .absx, .standard, fun lo hi => .staAbsx (wordOf lo hi)⟩,
    ⟨0x99, .sta, .absy, .standard, fun lo hi => .staAbsy (wordOf lo hi)⟩,
    ⟨0x81, .sta, .izx, .standard, fun b _ => .staIzx b⟩ ] ++
  [ ⟨0x91, .sta, .izy, .standard, fun b _ => .staIzy b⟩,
    ⟨0x86, .stx, .zp, .standard, fun b _ => .stxZp b⟩,
    ⟨0x96, .stx, .zpy, .standard, fun b _ => .stxZpy b⟩,
    ⟨0x8E, .stx, .abs, .standard, fun lo hi => .stxAbs (wordOf lo hi)⟩,
    ⟨0x84, .sty, .zp, .standard, fun b _ => .styZp b⟩,
    ⟨0x94, .sty, .zpx, .standard, fun b _ => .styZpx b⟩,
    ⟨0x8C, .sty, .abs, .standard, fun lo hi => .styAbs (wordOf lo hi)⟩,
    ⟨0xAA, .tax, .imp, .standard, fun _ _ => .tax⟩,
    ⟨0xA8, .tay, .imp, .standard, fun _ _ => .tay⟩,
    ⟨0x8A, .txa, .imp, .standard, fun _ _ => .txa⟩,
    ⟨0x98, .tya, .imp, .standard, fun _ _ => .tya⟩,
    ⟨0xBA, .tsx, .imp, .standard, fun _ _ => .tsx⟩,
    ⟨0x9A, .txs, .imp, .standard, fun _ _ => .txs⟩ ]

/-- The descriptors of ADC, SBC, AND, ORA, EOR, CMP, CPX, CPY, BIT (R125). -/
def descriptorsArithLogic : List Descriptor :=
  [ ⟨0x69, .adc, .imm, .standard, fun b _ => .adcImm b⟩,
    ⟨0x65, .adc, .zp, .standard, fun b _ => .adcZp b⟩,
    ⟨0x75, .adc, .zpx, .standard, fun b _ => .adcZpx b⟩,
    ⟨0x6D, .adc, .abs, .standard, fun lo hi => .adcAbs (wordOf lo hi)⟩,
    ⟨0x7D, .adc, .absx, .standard, fun lo hi => .adcAbsx (wordOf lo hi)⟩,
    ⟨0x79, .adc, .absy, .standard, fun lo hi => .adcAbsy (wordOf lo hi)⟩,
    ⟨0x61, .adc, .izx, .standard, fun b _ => .adcIzx b⟩,
    ⟨0x71, .adc, .izy, .standard, fun b _ => .adcIzy b⟩,
    ⟨0xE9, .sbc, .imm, .standard, fun b _ => .sbcImm b⟩,
    ⟨0xE5, .sbc, .zp, .standard, fun b _ => .sbcZp b⟩,
    ⟨0xF5, .sbc, .zpx, .standard, fun b _ => .sbcZpx b⟩,
    ⟨0xED, .sbc, .abs, .standard, fun lo hi => .sbcAbs (wordOf lo hi)⟩,
    ⟨0xFD, .sbc, .absx, .standard, fun lo hi => .sbcAbsx (wordOf lo hi)⟩,
    ⟨0xF9, .sbc, .absy, .standard, fun lo hi => .sbcAbsy (wordOf lo hi)⟩,
    ⟨0xE1, .sbc, .izx, .standard, fun b _ => .sbcIzx b⟩,
    ⟨0xF1, .sbc, .izy, .standard, fun b _ => .sbcIzy b⟩,
    ⟨0x29, .and, .imm, .standard, fun b _ => .andImm b⟩,
    ⟨0x25, .and, .zp, .standard, fun b _ => .andZp b⟩,
    ⟨0x35, .and, .zpx, .standard, fun b _ => .andZpx b⟩,
    ⟨0x2D, .and, .abs, .standard, fun lo hi => .andAbs (wordOf lo hi)⟩,
    ⟨0x3D, .and, .absx, .standard, fun lo hi => .andAbsx (wordOf lo hi)⟩,
    ⟨0x39, .and, .absy, .standard, fun lo hi => .andAbsy (wordOf lo hi)⟩,
    ⟨0x21, .and, .izx, .standard, fun b _ => .andIzx b⟩,
    ⟨0x31, .and, .izy, .standard, fun b _ => .andIzy b⟩ ] ++
  [ ⟨0x09, .ora, .imm, .standard, fun b _ => .oraImm b⟩,
    ⟨0x05, .ora, .zp, .standard, fun b _ => .oraZp b⟩,
    ⟨0x15, .ora, .zpx, .standard, fun b _ => .oraZpx b⟩,
    ⟨0x0D, .ora, .abs, .standard, fun lo hi => .oraAbs (wordOf lo hi)⟩,
    ⟨0x1D, .ora, .absx, .standard, fun lo hi => .oraAbsx (wordOf lo hi)⟩,
    ⟨0x19, .ora, .absy, .standard, fun lo hi => .oraAbsy (wordOf lo hi)⟩,
    ⟨0x01, .ora, .izx, .standard, fun b _ => .oraIzx b⟩,
    ⟨0x11, .ora, .izy, .standard, fun b _ => .oraIzy b⟩,
    ⟨0x49, .eor, .imm, .standard, fun b _ => .eorImm b⟩,
    ⟨0x45, .eor, .zp, .standard, fun b _ => .eorZp b⟩,
    ⟨0x55, .eor, .zpx, .standard, fun b _ => .eorZpx b⟩,
    ⟨0x4D, .eor, .abs, .standard, fun lo hi => .eorAbs (wordOf lo hi)⟩,
    ⟨0x5D, .eor, .absx, .standard, fun lo hi => .eorAbsx (wordOf lo hi)⟩,
    ⟨0x59, .eor, .absy, .standard, fun lo hi => .eorAbsy (wordOf lo hi)⟩,
    ⟨0x41, .eor, .izx, .standard, fun b _ => .eorIzx b⟩,
    ⟨0x51, .eor, .izy, .standard, fun b _ => .eorIzy b⟩,
    ⟨0xC9, .cmp, .imm, .standard, fun b _ => .cmpImm b⟩,
    ⟨0xC5, .cmp, .zp, .standard, fun b _ => .cmpZp b⟩,
    ⟨0xD5, .cmp, .zpx, .standard, fun b _ => .cmpZpx b⟩,
    ⟨0xCD, .cmp, .abs, .standard, fun lo hi => .cmpAbs (wordOf lo hi)⟩,
    ⟨0xDD, .cmp, .absx, .standard, fun lo hi => .cmpAbsx (wordOf lo hi)⟩,
    ⟨0xD9, .cmp, .absy, .standard, fun lo hi => .cmpAbsy (wordOf lo hi)⟩,
    ⟨0xC1, .cmp, .izx, .standard, fun b _ => .cmpIzx b⟩,
    ⟨0xD1, .cmp, .izy, .standard, fun b _ => .cmpIzy b⟩ ] ++
  [ ⟨0xE0, .cpx, .imm, .standard, fun b _ => .cpxImm b⟩,
    ⟨0xE4, .cpx, .zp, .standard, fun b _ => .cpxZp b⟩,
    ⟨0xEC, .cpx, .abs, .standard, fun lo hi => .cpxAbs (wordOf lo hi)⟩,
    ⟨0xC0, .cpy, .imm, .standard, fun b _ => .cpyImm b⟩,
    ⟨0xC4, .cpy, .zp, .standard, fun b _ => .cpyZp b⟩,
    ⟨0xCC, .cpy, .abs, .standard, fun lo hi => .cpyAbs (wordOf lo hi)⟩,
    ⟨0x24, .bit, .zp, .standard, fun b _ => .bitZp b⟩,
    ⟨0x2C, .bit, .abs, .standard, fun lo hi => .bitAbs (wordOf lo hi)⟩ ]

/-- The descriptors of INC, DEC, INX, INY, DEX, DEY, ASL, LSR, ROL, ROR (R125). -/
def descriptorsIncDecShift : List Descriptor :=
  [ ⟨0xE6, .inc, .zp, .readModifyWrite, fun b _ => .incZp b⟩,
    ⟨0xF6, .inc, .zpx, .readModifyWrite, fun b _ => .incZpx b⟩,
    ⟨0xEE, .inc, .abs, .readModifyWrite, fun lo hi => .incAbs (wordOf lo hi)⟩,
    ⟨0xFE, .inc, .absx, .readModifyWrite, fun lo hi => .incAbsx (wordOf lo hi)⟩,
    ⟨0xC6, .dec, .zp, .readModifyWrite, fun b _ => .decZp b⟩,
    ⟨0xD6, .dec, .zpx, .readModifyWrite, fun b _ => .decZpx b⟩,
    ⟨0xCE, .dec, .abs, .readModifyWrite, fun lo hi => .decAbs (wordOf lo hi)⟩,
    ⟨0xDE, .dec, .absx, .readModifyWrite, fun lo hi => .decAbsx (wordOf lo hi)⟩,
    ⟨0xE8, .inx, .imp, .standard, fun _ _ => .inx⟩,
    ⟨0xC8, .iny, .imp, .standard, fun _ _ => .iny⟩,
    ⟨0xCA, .dex, .imp, .standard, fun _ _ => .dex⟩,
    ⟨0x88, .dey, .imp, .standard, fun _ _ => .dey⟩,
    ⟨0x0A, .asl, .acc, .standard, fun _ _ => .aslAcc⟩,
    ⟨0x06, .asl, .zp, .readModifyWrite, fun b _ => .aslZp b⟩,
    ⟨0x16, .asl, .zpx, .readModifyWrite, fun b _ => .aslZpx b⟩,
    ⟨0x0E, .asl, .abs, .readModifyWrite, fun lo hi => .aslAbs (wordOf lo hi)⟩,
    ⟨0x1E, .asl, .absx, .readModifyWrite, fun lo hi => .aslAbsx (wordOf lo hi)⟩,
    ⟨0x4A, .lsr, .acc, .standard, fun _ _ => .lsrAcc⟩,
    ⟨0x46, .lsr, .zp, .readModifyWrite, fun b _ => .lsrZp b⟩,
    ⟨0x56, .lsr, .zpx, .readModifyWrite, fun b _ => .lsrZpx b⟩,
    ⟨0x4E, .lsr, .abs, .readModifyWrite, fun lo hi => .lsrAbs (wordOf lo hi)⟩,
    ⟨0x5E, .lsr, .absx, .readModifyWrite, fun lo hi => .lsrAbsx (wordOf lo hi)⟩,
    ⟨0x2A, .rol, .acc, .standard, fun _ _ => .rolAcc⟩,
    ⟨0x26, .rol, .zp, .readModifyWrite, fun b _ => .rolZp b⟩ ] ++
  [ ⟨0x36, .rol, .zpx, .readModifyWrite, fun b _ => .rolZpx b⟩,
    ⟨0x2E, .rol, .abs, .readModifyWrite, fun lo hi => .rolAbs (wordOf lo hi)⟩,
    ⟨0x3E, .rol, .absx, .readModifyWrite, fun lo hi => .rolAbsx (wordOf lo hi)⟩,
    ⟨0x6A, .ror, .acc, .standard, fun _ _ => .rorAcc⟩,
    ⟨0x66, .ror, .zp, .readModifyWrite, fun b _ => .rorZp b⟩,
    ⟨0x76, .ror, .zpx, .readModifyWrite, fun b _ => .rorZpx b⟩,
    ⟨0x6E, .ror, .abs, .readModifyWrite, fun lo hi => .rorAbs (wordOf lo hi)⟩,
    ⟨0x7E, .ror, .absx, .readModifyWrite, fun lo hi => .rorAbsx (wordOf lo hi)⟩ ]

/-- The descriptors of BPL, BMI, BVC, BVS, BCC, BCS, BNE, BEQ (R125). -/
def descriptorsBranch : List Descriptor :=
  [ ⟨0x10, .bpl, .rel, .branch, fun b _ => .bpl b⟩,
    ⟨0x30, .bmi, .rel, .branch, fun b _ => .bmi b⟩,
    ⟨0x50, .bvc, .rel, .branch, fun b _ => .bvc b⟩,
    ⟨0x70, .bvs, .rel, .branch, fun b _ => .bvs b⟩,
    ⟨0x90, .bcc, .rel, .branch, fun b _ => .bcc b⟩,
    ⟨0xB0, .bcs, .rel, .branch, fun b _ => .bcs b⟩,
    ⟨0xD0, .bne, .rel, .branch, fun b _ => .bne b⟩,
    ⟨0xF0, .beq, .rel, .branch, fun b _ => .beq b⟩ ]

/-- The descriptors of JMP, JSR, RTS, RTI, BRK (R125). -/
def descriptorsControl : List Descriptor :=
  [ ⟨0x4C, .jmp, .abs, .jump, fun lo hi => .jmpAbs (wordOf lo hi)⟩,
    ⟨0x6C, .jmp, .ind, .jump, fun lo hi => .jmpInd (wordOf lo hi)⟩,
    ⟨0x20, .jsr, .abs, .jump, fun lo hi => .jsr (wordOf lo hi)⟩,
    ⟨0x60, .rts, .imp, .jump, fun _ _ => .rts⟩,
    ⟨0x40, .rti, .imp, .jump, fun _ _ => .rti⟩,
    ⟨0x00, .brk, .brk, .jump, fun _ _ => .brk⟩ ]

/-- The descriptors of CLC, SEC, CLI, SEI, CLV, CLD, SED, PHA, PLA, PHP, PLP, NOP (R125). -/
def descriptorsFlagsStack : List Descriptor :=
  [ ⟨0x18, .clc, .imp, .standard, fun _ _ => .clc⟩,
    ⟨0x38, .sec, .imp, .standard, fun _ _ => .sec⟩,
    ⟨0x58, .cli, .imp, .standard, fun _ _ => .cli⟩,
    ⟨0x78, .sei, .imp, .standard, fun _ _ => .sei⟩,
    ⟨0xB8, .clv, .imp, .standard, fun _ _ => .clv⟩,
    ⟨0xD8, .cld, .imp, .standard, fun _ _ => .cld⟩,
    ⟨0xF8, .sed, .imp, .standard, fun _ _ => .sed⟩,
    ⟨0x48, .pha, .imp, .standard, fun _ _ => .pha⟩,
    ⟨0x68, .pla, .imp, .standard, fun _ _ => .pla⟩,
    ⟨0x08, .php, .imp, .standard, fun _ _ => .php⟩,
    ⟨0x28, .plp, .imp, .standard, fun _ _ => .plp⟩,
    ⟨0xEA, .nop, .imp, .standard, fun _ _ => .nop⟩ ]

/-- The dispatch table `DESC` (R123): the 151 implemented opcode bytes. -/
def descriptors : List Descriptor :=
  descriptorsLoadStore ++ descriptorsArithLogic ++ descriptorsIncDecShift ++
  descriptorsBranch ++ descriptorsControl ++ descriptorsFlagsStack

/-- The lookup of an opcode byte: its descriptor, or none where it is unimplemented (R123, R127). -/
def descriptorOf (op : Byte) : Option Descriptor := descriptors.find? (fun d => d.opcode == op)

/-- Why a byte string holds no instruction. -/
inductive DecodeError where
  /-- no byte at all -/
  | empty
  /-- one of the 105 bytes with no descriptor (R127) -/
  | unimplemented (op : Byte)
  /-- fewer bytes than the mode's length (R126) -/
  | truncated (op : Byte)
  deriving DecidableEq, Repr

/-- The operand bytes split off a byte string: as many as an instruction of length `len` has after
its opcode (a missing one of a shorter instruction reads as 0 and is ignored). -/
def takeOperands : Nat → List Byte → Option (Byte × Byte × List Byte)
  | 1, rest => some (0, 0, rest)
  | 2, lo :: rest => some (lo, 0, rest)
  | 3, lo :: hi :: rest => some (lo, hi, rest)
  | _, _ => none

/-- The decoder on a byte string, first byte at the lowest address: the instruction and the bytes
after it (R120 to R126). -/
def decode : List Byte → Except DecodeError (Instr × List Byte)
  | [] => .error .empty
  | op :: rest =>
    match descriptorOf op with
    | none => .error (.unimplemented op)
    | some d =>
      match takeOperands d.mode.length rest with
      | none => .error (.truncated op)
      | some (lo, hi, rest') => .ok (d.build lo hi, rest')

/-- The bytes of an instruction in address order (R121): the opcode byte of R125, then the operand
byte, or the operand word low byte first. The encoder gives BRK the signature byte 0x00 (R130). -/
def encode : Instr → List Byte
  | .ldaImm b => [0xA9, b]
  | .ldaZp b => [0xA5, b]
  | .ldaZpx b => [0xB5, b]
  | .ldaAbs w => [0xAD, lowByte w, highByte w]
  | .ldaAbsx w => [0xBD, lowByte w, highByte w]
  | .ldaAbsy w => [0xB9, lowByte w, highByte w]
  | .ldaIzx b => [0xA1, b]
  | .ldaIzy b => [0xB1, b]
  | .ldxImm b => [0xA2, b]
  | .ldxZp b => [0xA6, b]
  | .ldxZpy b => [0xB6, b]
  | .ldxAbs w => [0xAE, lowByte w, highByte w]
  | .ldxAbsy w => [0xBE, lowByte w, highByte w]
  | .ldyImm b => [0xA0, b]
  | .ldyZp b => [0xA4, b]
  | .ldyZpx b => [0xB4, b]
  | .ldyAbs w => [0xAC, lowByte w, highByte w]
  | .ldyAbsx w => [0xBC, lowByte w, highByte w]
  | .staZp b => [0x85, b]
  | .staZpx b => [0x95, b]
  | .staAbs w => [0x8D, lowByte w, highByte w]
  | .staAbsx w => [0x9D, lowByte w, highByte w]
  | .staAbsy w => [0x99, lowByte w, highByte w]
  | .staIzx b => [0x81, b]
  | .staIzy b => [0x91, b]
  | .stxZp b => [0x86, b]
  | .stxZpy b => [0x96, b]
  | .stxAbs w => [0x8E, lowByte w, highByte w]
  | .styZp b => [0x84, b]
  | .styZpx b => [0x94, b]
  | .styAbs w => [0x8C, lowByte w, highByte w]
  | .tax => [0xAA]
  | .tay => [0xA8]
  | .txa => [0x8A]
  | .tya => [0x98]
  | .tsx => [0xBA]
  | .txs => [0x9A]
  | .adcImm b => [0x69, b]
  | .adcZp b => [0x65, b]
  | .adcZpx b => [0x75, b]
  | .adcAbs w => [0x6D, lowByte w, highByte w]
  | .adcAbsx w => [0x7D, lowByte w, highByte w]
  | .adcAbsy w => [0x79, lowByte w, highByte w]
  | .adcIzx b => [0x61, b]
  | .adcIzy b => [0x71, b]
  | .sbcImm b => [0xE9, b]
  | .sbcZp b => [0xE5, b]
  | .sbcZpx b => [0xF5, b]
  | .sbcAbs w => [0xED, lowByte w, highByte w]
  | .sbcAbsx w => [0xFD, lowByte w, highByte w]
  | .sbcAbsy w => [0xF9, lowByte w, highByte w]
  | .sbcIzx b => [0xE1, b]
  | .sbcIzy b => [0xF1, b]
  | .andImm b => [0x29, b]
  | .andZp b => [0x25, b]
  | .andZpx b => [0x35, b]
  | .andAbs w => [0x2D, lowByte w, highByte w]
  | .andAbsx w => [0x3D, lowByte w, highByte w]
  | .andAbsy w => [0x39, lowByte w, highByte w]
  | .andIzx b => [0x21, b]
  | .andIzy b => [0x31, b]
  | .oraImm b => [0x09, b]
  | .oraZp b => [0x05, b]
  | .oraZpx b => [0x15, b]
  | .oraAbs w => [0x0D, lowByte w, highByte w]
  | .oraAbsx w => [0x1D, lowByte w, highByte w]
  | .oraAbsy w => [0x19, lowByte w, highByte w]
  | .oraIzx b => [0x01, b]
  | .oraIzy b => [0x11, b]
  | .eorImm b => [0x49, b]
  | .eorZp b => [0x45, b]
  | .eorZpx b => [0x55, b]
  | .eorAbs w => [0x4D, lowByte w, highByte w]
  | .eorAbsx w => [0x5D, lowByte w, highByte w]
  | .eorAbsy w => [0x59, lowByte w, highByte w]
  | .eorIzx b => [0x41, b]
  | .eorIzy b => [0x51, b]
  | .cmpImm b => [0xC9, b]
  | .cmpZp b => [0xC5, b]
  | .cmpZpx b => [0xD5, b]
  | .cmpAbs w => [0xCD, lowByte w, highByte w]
  | .cmpAbsx w => [0xDD, lowByte w, highByte w]
  | .cmpAbsy w => [0xD9, lowByte w, highByte w]
  | .cmpIzx b => [0xC1, b]
  | .cmpIzy b => [0xD1, b]
  | .cpxImm b => [0xE0, b]
  | .cpxZp b => [0xE4, b]
  | .cpxAbs w => [0xEC, lowByte w, highByte w]
  | .cpyImm b => [0xC0, b]
  | .cpyZp b => [0xC4, b]
  | .cpyAbs w => [0xCC, lowByte w, highByte w]
  | .bitZp b => [0x24, b]
  | .bitAbs w => [0x2C, lowByte w, highByte w]
  | .incZp b => [0xE6, b]
  | .incZpx b => [0xF6, b]
  | .incAbs w => [0xEE, lowByte w, highByte w]
  | .incAbsx w => [0xFE, lowByte w, highByte w]
  | .decZp b => [0xC6, b]
  | .decZpx b => [0xD6, b]
  | .decAbs w => [0xCE, lowByte w, highByte w]
  | .decAbsx w => [0xDE, lowByte w, highByte w]
  | .inx => [0xE8]
  | .iny => [0xC8]
  | .dex => [0xCA]
  | .dey => [0x88]
  | .aslAcc => [0x0A]
  | .aslZp b => [0x06, b]
  | .aslZpx b => [0x16, b]
  | .aslAbs w => [0x0E, lowByte w, highByte w]
  | .aslAbsx w => [0x1E, lowByte w, highByte w]
  | .lsrAcc => [0x4A]
  | .lsrZp b => [0x46, b]
  | .lsrZpx b => [0x56, b]
  | .lsrAbs w => [0x4E, lowByte w, highByte w]
  | .lsrAbsx w => [0x5E, lowByte w, highByte w]
  | .rolAcc => [0x2A]
  | .rolZp b => [0x26, b]
  | .rolZpx b => [0x36, b]
  | .rolAbs w => [0x2E, lowByte w, highByte w]
  | .rolAbsx w => [0x3E, lowByte w, highByte w]
  | .rorAcc => [0x6A]
  | .rorZp b => [0x66, b]
  | .rorZpx b => [0x76, b]
  | .rorAbs w => [0x6E, lowByte w, highByte w]
  | .rorAbsx w => [0x7E, lowByte w, highByte w]
  | .bpl b => [0x10, b]
  | .bmi b => [0x30, b]
  | .bvc b => [0x50, b]
  | .bvs b => [0x70, b]
  | .bcc b => [0x90, b]
  | .bcs b => [0xB0, b]
  | .bne b => [0xD0, b]
  | .beq b => [0xF0, b]
  | .jmpAbs w => [0x4C, lowByte w, highByte w]
  | .jmpInd w => [0x6C, lowByte w, highByte w]
  | .jsr w => [0x20, lowByte w, highByte w]
  | .rts => [0x60]
  | .rti => [0x40]
  | .brk => [0x00, 0x00]
  | .clc => [0x18]
  | .sec => [0x38]
  | .cli => [0x58]
  | .sei => [0x78]
  | .clv => [0xB8]
  | .cld => [0xD8]
  | .sed => [0xF8]
  | .pha => [0x48]
  | .pla => [0x68]
  | .php => [0x08]
  | .plp => [0x28]
  | .nop => [0xEA]

/-- The opcode byte of an instruction. -/
def Instr.opcode (i : Instr) : Byte := (encode i).headD 0

/-- The length of an instruction in bytes (R120). -/
def Instr.length (i : Instr) : Nat := (encode i).length

/-- The descriptor of an instruction (R170). -/
def Instr.descriptor (i : Instr) : Option Descriptor := descriptorOf i.opcode

/-- The bytes of an opcode-table word: bit 0 is the least significant bit of the first byte, and
every bit from `nbits` up is 0. -/
def tableBytes (nbits w : Nat) : List Byte :=
  let v := w % 2 ^ nbits
  [BitVec.ofNat 8 v, BitVec.ofNat 8 (v / 0x100), BitVec.ofNat 8 (v / 0x10000)]

/-- The instruction the decoder reads from an opcode-table word. -/
def decodeTableWord (nbits w : Nat) : Option Instr :=
  match decode (tableBytes nbits w) with
  | .ok (i, _) => some i
  | .error _ => none

end Sys2Proof
end

