-- ==== Sys2Proof/Config.lean ====
section
/-! DEFINITION. What an implementation fixes: the constants and parameters of 00_scope.md R8, the
cartridge handed to the mapper at construction, the event vocabulary of the instrumentation unit,
and the free values (opaque constants no proof can evaluate). -/

namespace Sys2Proof

/-- A sparse memory: (index, byte) pairs, strictly rising, none zero; an unlisted byte reads as 0
(log 2, DESIGN CHOICE). -/
abbrev Memory := List Host.Cell

namespace Config

/-- `STACK_BASE` (R8, R23). -/
def stackBase : Addr := 0x0100

/-- `WRAM_SIZE` (R8). -/
def wramSize : Nat := 0x0800

/-- First address after `WRAM_WINDOW` 0x0000 to 0x1FFF (R8, R72). -/
def openBusStart : Nat := 0x2000

/-- First address of `PRG_RAM_WINDOW`, 0x6000 to 0x7FFF (R8, R72). -/
def prgRamStart : Nat := 0x6000

/-- Bytes of cartridge RAM (R46). -/
def prgRamSize : Nat := 0x2000

/-- First address of `CART_WINDOW`, 0x8000 to 0xFFFF (R8, R72). -/
def cartStart : Nat := 0x8000

/-- First address of the upper PRG window (R85). -/
def upperStart : Nat := 0xC000

/-- `PRG_WINDOW`, 16 KB (R8, R85). -/
def prgWindow : Nat := 0x4000

/-- Bytes of the FlatBus RAM (R49). -/
def flatSize : Nat := 0x10000

end Config

/-- The parameters of R8 that a machine may be built with. They are a constant part of the state
(R51, log 6): no step changes them. -/
structure Params where
  /-- `VEC_NMI` -/
  vecNmi : Addr
  /-- `VEC_RESET` -/
  vecReset : Addr
  /-- `VEC_IRQ`, also BRK's -/
  vecIrq : Addr
  /-- `INT_CTX_MASK` (R330) -/
  intCtxMask : Byte
  /-- `PHP_MASK` (R309) -/
  phpMask : Byte
  /-- `IRQ_MASKED_BY_I` (R333) -/
  irqMaskedByI : Bool
  /-- `STUCK_PC_CHECK` (R323) -/
  stuckPcCheck : Bool
  /-- `INSTR_BUDGET` (R325) -/
  instrBudget : Option Nat
  /-- `DEFAULT_PRG_MODE` (R41) -/
  defaultPrgMode : BitVec 2
  deriving DecidableEq, Repr, Inhabited

/-- The values R8 decides for the hardware. -/
def Params.default : Params where
  vecNmi := 0xFFFA
  vecReset := 0xFFFC
  vecIrq := 0xFFFE
  intCtxMask := 0x10
  phpMask := 0x10
  irqMaskedByI := true
  stuckPcCheck := false
  instrBudget := none
  defaultPrgMode := 3

/-- What the host hands to the mapper at construction (R47, R384): the PRG ROM image, its size
`PRG_ROM_SIZE`, and `PRG_RAM_PRESENT`. Immutable (R51, R77). -/
structure Cart where
  rom : Memory
  romSize : Nat
  prgRamPresent : Bool
  deriving DecidableEq, Repr, Inhabited

/-- The kinds of instrumentation event (R350). -/
inductive EventKind where
  | read
  | write
  | execute
  deriving DecidableEq, Repr

/-- The subset of {OnRead, OnWrite, OnExecute} an entry listens to (R50). -/
structure EventMask where
  onRead : Bool
  onWrite : Bool
  onExecute : Bool
  deriving DecidableEq, Repr, Inhabited

namespace Config

/-- FREE VALUE (log 8). Whether the breakpoint callback number `cb` requests a halt for an event of
kind `k` at address `a` in the state `s` (R355: a callback is a function from kind, address and
state to a halt-request bit). -/
opaque callbackHalts (σ : Type) (cb : Nat) (k : EventKind) (a : Addr) (s : σ) : Bool

/-- FREE VALUE (log 9). What a part `τ` of the machine holds after a fault was raised in the state `s`
(R327: unspecified). -/
opaque faultResidue (σ τ : Type) [Inhabited τ] (s : σ) : τ

/-- FREE VALUE (log 15). The file offset that `offset` reports for an address outside ROM (R89). -/
opaque openFileOffset (a : Addr) : Nat

end Config

end Sys2Proof
end

