-- ==== Sys2Proof/Machine/State.lean ====
section
/-! DEFINITION. The state of the machine as plain data (10_state.md R20 to R52), the faults and
refusals, the power-on state and the state after reset (70_reset_and_hazards.md R380, R381). -/

namespace Sys2Proof.Machine

/-- `P`, the six stored flags of the status word (R26). -/
structure Flags where
  /-- Carry (R27) -/
  c : Bool
  /-- Zero (R28) -/
  z : Bool
  /-- Interrupt-disable (R29) -/
  i : Bool
  /-- Decimal (R30) -/
  d : Bool
  /-- Overflow (R31) -/
  v : Bool
  /-- Negative (R26) -/
  n : Bool
  deriving DecidableEq, Repr, Inhabited

/-- The fatal conditions of R320, each with what it records. Every one is the spec's own and SAFE:
the machine stops where the spec stops it. -/
inductive Fault where
  /-- Code 1 (R321). Raised by the step right after fetching, at `addr`, an opcode byte with no
  descriptor. Safe. -/
  | unimplementedOpcode (addr : Addr) (byte : Byte)
  /-- Code 2 (R322). Raised by any bus read of 0x8000 to 0xFFFF on Mmc1Bus whose ROM offset `off` is
  at or above the ROM size; `pc` is PC0, or the interrupted PC for a trigger (R320); for a host's
instrumented read, which R344 gives no `pc`, it is the current PC (log 20). Safe. -/
  | mapperOffsetOverflow (addr : Addr) (off : Nat) (pc : Addr)
  /-- Code 3 (R323). Raised at the end of a step that left PC at `addr`, its opcode's address, when
  STUCK_PC_CHECK holds. Safe. -/
  | stuckPc (addr : Addr)
  deriving DecidableEq, Repr

/-- What the model does not define. `exec` and `step` never answer one: the others belong to host
operations. -/
inductive Refusal where
  /-- An instruction with no meaning yet. No arm raises it. Safe. -/
  | notModelled (mnemonic : String)
  /-- Raised by mapper construction with a ROM size that is no positive multiple of 0x4000 (I8).
  Safe. -/
  | romSizeIllegal (romSize : Nat)
  /-- Raised by `registerBreakpoint` with an empty event mask (I16). Safe. -/
  | emptyEventMask
  /-- Raised by the mapper's `setState` when the snapshot is of the other bus variant, for which the
  spec states no operation (log 16). Safe. -/
  | snapshotOfOtherBus
  deriving DecidableEq, Repr

/-- The CPU's run state (R35). -/
inductive RunState where
  | running
  | halted
  | faulted (f : Fault)
  deriving DecidableEq, Repr

/-- The mapper's registers and RAMs, which are also its snapshot (R39 to R46, R48). -/
structure MapperState where
  /-- the shift-register accumulator (R39) -/
  shift : BitVec 5
  /-- the write counter, 0 to 4 (R40) -/
  count : Fin 5
  /-- mirroring [1:0], prgMode [3:2], chrMode [4] (R41) -/
  control : BitVec 5
  /-- CHR bank 0 (R42) -/
  chr0 : BitVec 5
  /-- CHR bank 1 (R43) -/
  chr1 : BitVec 5
  /-- prgBank [3:0], ramEnable [4] (R44) -/
  prg : BitVec 5
  /-- work RAM, 2,048 bytes (R45) -/
  wram : Memory
  /-- cartridge RAM, 8,192 bytes (R46). DESIGN CHOICE (log 21): the field is kept where
  PRG_RAM_PRESENT is false too, and no bus access reaches it then (R75) -/
  prgRam : Memory
  deriving DecidableEq, Repr, Inhabited

/-- The bus variants (R4, R8): the mapper with its cartridge, or 64 KB of RAM (R49). -/
inductive Bus where
  | mmc1 (m : MapperState) (cart : Cart)
  | flat (ram : Memory)
  deriving DecidableEq, Repr

/-- One entry of the breakpoint registry `bp` (R50), with the address it stands at. The callback is
the number of a host function (log 8). -/
structure Breakpoint where
  addr : Addr
  name : String
  mask : EventMask
  callback : Nat
  deriving DecidableEq, Repr

/-- The state of the block. -/
@[ext]
structure State where
  /-- the accumulator (R20) -/
  a : Byte
  /-- index register X (R21) -/
  x : Byte
  /-- index register Y (R22) -/
  y : Byte
  /-- the stack pointer, over page 0x0100 (R23) -/
  sp : Byte
  /-- the program counter (R24) -/
  pc : Addr
  /-- the status flags (R26) -/
  p : Flags
  /-- the run state (R35) -/
  run : RunState
  /-- the halt request (R36) -/
  haltReq : Bool
  /-- steps completed in the current run (R37) -/
  steps : Nat
  /-- the bus and everything on it (R39 to R49) -/
  bus : Bus
  /-- the breakpoint registry, in registration order (R50, log 14) -/
  bp : List Breakpoint
  /-- the machine's parameters (R8, R51, log 6): no step changes them -/
  params : Params
  deriving DecidableEq, Repr

/-- The CPU snapshot (R38). -/
structure CpuState where
  a : Byte
  x : Byte
  y : Byte
  sp : Byte
  pc : Addr
  p : Flags
  deriving DecidableEq, Repr, Inhabited

/-- A snapshot of what is on the bus: the mapper's (R48) or the whole flat array (R49). -/
inductive BusSnapshot where
  | mmc1 (m : MapperState)
  | flat (ram : Memory)
  deriving DecidableEq, Repr

/-- The mapper as constructed (R39 to R46, R380): every banking field 0 but the PRG mode. RAM lists
nothing (log 2). -/
def MapperState.powerOn (params : Params) : MapperState where
  shift := 0
  count := 0
  control := params.defaultPrgMode.setWidth 5 <<< 2
  chr0 := 0
  chr1 := 0
  prg := 0
  wram := []
  prgRam := []

/-- The cartridge of `State.reset` (log 4, DESIGN CHOICE): a 32 KB image of zeros, cartridge RAM
present. A machine with another image is the same state with another `cart`. -/
def Cart.blank : Cart where
  rom := []
  romSize := 0x8000
  prgRamPresent := true

/-- A machine on `bus` at power-on (R380); what R380 leaves unspecified is 0 (log 1, DESIGN
CHOICE). -/
def State.powerOnWith (bus : Bus) (params : Params) : State where
  a := 0
  x := 0
  y := 0
  sp := 0
  pc := 0
  p := ⟨false, false, false, false, false, false⟩
  run := .running
  haltReq := false
  steps := 0
  bus := bus
  bp := []
  params := params

/-- The hardware at power-on: the mapper bus with the cartridge of log 4 (log 5). -/
def State.powerOn : State :=
  State.powerOnWith (.mmc1 (MapperState.powerOn Params.default) Cart.blank) Params.default

/-- The machine right after reset: the power-on state after the host's `reset()` (R381, log 3). The
reset pushed PC (0x0000) and the status byte 0x30 at 0x0100, 0x01FF, 0x01FE, left SP at 0xFD and
loaded PC from the vector, which in the image of log 4 holds 0x0000. Written out as data; that it is
what `reset()` leaves is the statement `ResetLeavesThePowerOnValues`. -/
def State.reset : State where
  a := 0
  x := 0
  y := 0
  sp := 0xFD
  pc := 0
  p := ⟨false, false, false, false, false, false⟩
  run := .running
  haltReq := false
  steps := 0
  bus := .mmc1
    { shift := 0, count := 0, control := 0x0C, chr0 := 0, chr1 := 0, prg := 0,
      wram := [(0x1FE, 0x30)], prgRam := [] } Cart.blank
  bp := []
  params := Params.default

end Sys2Proof.Machine
end

