-- ==== Sys2Proof/Machine/Flags.lean ====
section
/-! DEFINITION. Every flag computation: the packed status byte (10_state.md R32, R33) and the ALU
primitives (40_addressing_alu.md R160 to R168). Each takes the flags before and answers the flags
after; a flag it does not name keeps its value (R34). -/

namespace Sys2Proof.Machine

/-- The bit `b` at position `k` of a byte. -/
def bitAt (b : Bool) (k : Nat) : Byte := (BitVec.ofBool b).setWidth 8 <<< k

/-- The packed status byte (R32): N V 1 0 D I Z C. -/
def pack (p : Flags) : Byte :=
  bitAt p.n 7 ||| bitAt p.v 6 ||| 0x20 ||| bitAt p.d 3 ||| bitAt p.i 2 ||| bitAt p.z 1 ||| bitAt p.c 0

/-- The flags of a pulled status byte; bits 5 and 4 are discarded (R33). -/
def unpack (b : Byte) : Flags where
  n := b.getLsbD 7
  v := b.getLsbD 6
  d := b.getLsbD 3
  i := b.getLsbD 2
  z := b.getLsbD 1
  c := b.getLsbD 0

/-- `setZeroNegative(v)` (R160). -/
def setZeroNegative (v : Byte) (p : Flags) : Flags :=
  { p with z := v == 0, n := v.getLsbD 7 }

/-- The 9-bit sum of two bytes and a carry, as a number 0 to 511 (R161). -/
def sum9 (a b : Byte) (carry : Bool) : Nat := a.toNat + b.toNat + carry.toNat

/-- `twosCompAdd(a, b)` (R161): the result and the flags after. `P.D` is not read (R168). -/
def twosCompAdd (a b : Byte) (p : Flags) : Byte × Flags :=
  let s := sum9 a b p.c
  let r : Byte := BitVec.ofNat 8 s
  (r, setZeroNegative r { p with
    c := decide (s > 0xFF)
    v := ((a ^^^ r) &&& (b ^^^ r) &&& 0x80) != 0 })

/-- `twosCompSubtract(a, b)` (R162). -/
def twosCompSubtract (a b : Byte) (p : Flags) : Byte × Flags := twosCompAdd a (b ^^^ 0xFF) p

/-- `compare(reg, m)` (R163): carry-in 1, `P.V` not written, no register written. -/
def compareFlags (reg m : Byte) (p : Flags) : Flags :=
  let t := sum9 reg (m ^^^ 0xFF) true
  setZeroNegative (BitVec.ofNat 8 t) { p with c := decide (t > 0xFF) }

/-- `ASLf(v)` (R164). -/
def aslF (v : Byte) (p : Flags) : Byte × Flags :=
  let r := v <<< 1
  (r, setZeroNegative r { p with c := v.getLsbD 7 })

/-- `LSRf(v)` (R164). -/
def lsrF (v : Byte) (p : Flags) : Byte × Flags :=
  let r := v >>> 1
  (r, setZeroNegative r { p with c := v.getLsbD 0 })

/-- `ROLf(v)` (R164): the old carry enters at bit 0. -/
def rolF (v : Byte) (p : Flags) : Byte × Flags :=
  let r := v <<< 1 ||| bitAt p.c 0
  (r, setZeroNegative r { p with c := v.getLsbD 7 })

/-- `RORf(v)` (R164): the old carry enters at bit 7. -/
def rorF (v : Byte) (p : Flags) : Byte × Flags :=
  let r := v >>> 1 ||| bitAt p.c 7
  (r, setZeroNegative r { p with c := v.getLsbD 0 })

/-- `INCf(v)` (R165). -/
def incF (v : Byte) (p : Flags) : Byte × Flags := (v + 1, setZeroNegative (v + 1) p)

/-- `DECf(v)` (R165). -/
def decF (v : Byte) (p : Flags) : Byte × Flags := (v - 1, setZeroNegative (v - 1) p)

/-- `ANDf(a, m)` (R166). -/
def andF (a m : Byte) (p : Flags) : Byte × Flags := (a &&& m, setZeroNegative (a &&& m) p)

/-- `ORAf(a, m)` (R166). -/
def oraF (a m : Byte) (p : Flags) : Byte × Flags := (a ||| m, setZeroNegative (a ||| m) p)

/-- `EORf(a, m)` (R166). -/
def eorF (a m : Byte) (p : Flags) : Byte × Flags := (a ^^^ m, setZeroNegative (a ^^^ m) p)

/-- The flags of BIT (R228): Z from `A & M`, N and V from M itself. -/
def bitTest (a m : Byte) (p : Flags) : Flags :=
  { p with z := (a &&& m) == 0, n := m.getLsbD 7, v := m.getLsbD 6 }

end Sys2Proof.Machine
end

