-- ==== Sys2Proof/Machine/Ops.lean ====
section
/-! DEFINITION. The named operations over registers, memory and the bus (20_memory.md), the
instrumentation events (60_exceptions.md R350 to R354), the stack primitives, and taking and
returning from an interrupt as one shared operation each (R330, R338). -/

namespace Sys2Proof.Machine

/-! ### Register updates -/

def State.setA (s : State) (v : Byte) : State := { s with a := v }
def State.setX (s : State) (v : Byte) : State := { s with x := v }
def State.setY (s : State) (v : Byte) : State := { s with y := v }
def State.setSp (s : State) (v : Byte) : State := { s with sp := v }
/-- Every PC value is taken modulo 2^16 (R176), which the type of `pc` says. -/
def State.setPc (s : State) (v : Addr) : State := { s with pc := v }
def State.setP (s : State) (v : Flags) : State := { s with p := v }
def State.setRun (s : State) (v : RunState) : State := { s with run := v }
def State.setHaltReq (s : State) (v : Bool) : State := { s with haltReq := v }
def State.setSteps (s : State) (v : Nat) : State := { s with steps := v }
def State.setBus (s : State) (v : Bus) : State := { s with bus := v }
def State.setBp (s : State) (v : List Breakpoint) : State := { s with bp := v }

end Sys2Proof.Machine

namespace Sys2Proof

/-! ### Sparse memory -/

/-- The byte at an index; an unlisted byte reads as 0 (log 2). -/
def Memory.read : Memory → Nat → Byte
  | [], _ => 0#8
  | (k, v) :: m, a => if k = a then v else Memory.read m a

/-- Write a byte, keeping the canonical form: writing 0 removes the entry. -/
def Memory.write : Memory → Nat → Byte → Memory
  | [], a, v => if v = 0#8 then [] else [(a, v)]
  | (k, w) :: m, a, v =>
    if a < k then (if v = 0#8 then (k, w) :: m else (a, v) :: (k, w) :: m)
    else if a = k then (if v = 0#8 then m else (a, v) :: m)
    else (k, w) :: Memory.write m a v

/-- Indexes from `lo` up to `size` strictly rise, and no listed byte is 0. -/
def Memory.wfFrom (lo size : Nat) : Memory → Bool
  | [] => true
  | (k, v) :: m => decide (lo ≤ k) && decide (k < size) && (v != 0#8) && Memory.wfFrom (k + 1) size m

/-- The canonical form of a memory of `size` bytes. -/
def Memory.wf (size : Nat) (m : Memory) : Bool := Memory.wfFrom 0 size m

/-- Whether a mask holds the tag of an event kind (R352). -/
def EventMask.covers (m : EventMask) : EventKind → Bool
  | .read => m.onRead
  | .write => m.onWrite
  | .execute => m.onExecute

end Sys2Proof

namespace Sys2Proof.Machine

/-! ### The bank-switching mapper -/

/-- `mirroring`, control[1:0] (R41). Stored only (R87). -/
def MapperState.mirroring (m : MapperState) : BitVec 2 := m.control.extractLsb' 0 2

/-- `prgMode`, control[3:2] (R41). -/
def MapperState.prgMode (m : MapperState) : BitVec 2 := m.control.extractLsb' 2 2

/-- `chrMode`, control[4] (R41). Stored only (R87). -/
def MapperState.chrMode (m : MapperState) : Bool := m.control.getLsbD 4

/-- `prgBank`, prg[3:0] (R44). -/
def MapperState.prgBank (m : MapperState) : BitVec 4 := m.prg.extractLsb' 0 4

/-- `ramEnable`, prg[4] (R44). It gates nothing (R88). -/
def MapperState.ramEnable (m : MapperState) : Bool := m.prg.getLsbD 4

/-- `PrgOffset(a)` for `a` in 0x8000 to 0xFFFF (R85). -/
def prgOffset (m : MapperState) (romSize : Nat) (a : Addr) : Nat :=
  let bank := m.prgBank.toNat
  let lower := a.toNat < Config.upperStart
  match m.prgMode.toNat with
  | 0 | 1 => (m.prgBank &&& 0x0E).toNat * Config.prgWindow + (a.toNat - Config.cartStart)
  | 2 =>
    if lower then a.toNat - Config.cartStart
    else bank * Config.prgWindow + (a.toNat - Config.upperStart)
  | _ =>
    if lower then bank * Config.prgWindow + (a.toNat - Config.cartStart)
    else (romSize - Config.prgWindow) + (a.toNat - Config.upperStart)

/-- `Commit(a, val)`: the register selected by address bits 14:13 takes all five bits (R82, R83). -/
def MapperState.commit (m : MapperState) (a : Addr) (val : BitVec 5) : MapperState :=
  match (a.extractLsb' 13 2).toNat with
  | 0 => { m with control := val }
  | 1 => { m with chr0 := val }
  | 2 => { m with chr1 := val }
  | _ => { m with prg := val }

/-- The accumulator after bit 0 of `v` entered at position `count` (R80). -/
def MapperState.accumulate (m : MapperState) (v : Byte) : BitVec 5 :=
  m.shift ||| ((BitVec.ofBool (v.getLsbD 0)).setWidth 5 <<< m.count.val)

/-- `ShiftWrite(a, v)`: a write into the cartridge window (R78 to R81). -/
def MapperState.shiftWrite (m : MapperState) (a : Addr) (v : Byte) : MapperState :=
  if v.getLsbD 7 then { m with shift := 0, count := 0 }
  else if m.count = 4 then { m.commit a (m.accumulate v) with shift := 0, count := 0 }
  else { m with shift := m.accumulate v, count := m.count + 1 }

/-! ### The bus -/

/-- Index of a work-RAM address: its low 11 bits (R73). -/
def wramIndex (a : Addr) : Nat := a.toNat % Config.wramSize

/-- `BusRead(a)` (R72 to R76, R86, R93): the byte, or the ROM offset that lies outside the image.
It changes nothing (R94). -/
def Bus.read : Bus → Addr → Except Nat Byte
  | .flat ram, a => .ok (Memory.read ram a.toNat)
  | .mmc1 m cart, a =>
    if a.toNat < Config.openBusStart then .ok (Memory.read m.wram (wramIndex a))
    else if a.toNat < Config.prgRamStart then .ok 0
    else if a.toNat < Config.cartStart then
      (if cart.prgRamPresent then .ok (Memory.read m.prgRam (a.toNat - Config.prgRamStart)) else .ok 0)
    else
      let off := prgOffset m cart.romSize a
      if off < cart.romSize then .ok (Memory.read cart.rom off) else .error off

/-- `BusWrite(a, v)` (R72 to R78, R93). A write never faults (R64). -/
def Bus.write : Bus → Addr → Byte → Bus
  | .flat ram, a, v => .flat (Memory.write ram a.toNat v)
  | .mmc1 m cart, a, v =>
    if a.toNat < Config.openBusStart then
      .mmc1 { m with wram := Memory.write m.wram (wramIndex a) v } cart
    else if a.toNat < Config.prgRamStart then .mmc1 m cart
    else if a.toNat < Config.cartStart then
      (if cart.prgRamPresent then
        .mmc1 { m with prgRam := Memory.write m.prgRam (a.toNat - Config.prgRamStart) v } cart
      else .mmc1 m cart)
    else .mmc1 (m.shiftWrite a v) cart

/-- What a read of one byte would give, with no event: none where the read overflows the ROM. The
read of one byte that claims speak of. -/
def Bus.peek (b : Bus) (a : Addr) : Option Byte :=
  match b.read a with
  | .ok v => some v
  | .error _ => none

/-! ### Events of the instrumentation unit -/

/-- One entry of the registry answering an event: it fires when it stands at the address and its
mask covers the kind, and may set `haltReq` and nothing else (R352, R355). -/
def State.answer (k : EventKind) (a : Addr) (s : State) (e : Breakpoint) : State :=
  if e.addr = a ∧ e.mask.covers k = true then
    s.setHaltReq (s.haltReq || Config.callbackHalts State e.callback k a s)
  else s

/-- `Event(kind, a)`: the entries at `a` answer in list order (R352). -/
def State.event (s : State) (k : EventKind) (a : Addr) : State := s.bp.foldl (State.answer k a) s

/-! ### Results of operations that may fault -/

/-- What an operation that reads memory ends in: a value and the state it leaves, or a fault, which
ends the step at that point (R320). -/
inductive Res (α : Type) where
  | ok (v : α) (s : State)
  | raise (f : Fault)
  deriving DecidableEq, Repr

/-- Go on with the value and the state; a fault ends the rest (R328). -/
def Res.bind {α β : Type} (r : Res α) (k : α → State → Res β) : Res β :=
  match r with
  | .ok v s => k v s
  | .raise f => .raise f

/-! ### Memory access -/

/-- A bus read made by the CPU: the event fires first, then the byte is read (R61, R63, R353). PC is
still PC0, or the interrupted PC, when the read overflows (R322). -/
def busAccess (k : EventKind) (a : Addr) (s : State) : Res Byte :=
  let t := s.event k a
  match t.bus.read a with
  | .ok v => .ok v t
  | .error off => .raise (.mapperOffsetOverflow a off t.pc)

/-- `MemRead(addr, 1)` (R61). -/
def memRead (a : Addr) (s : State) : Res Byte := busAccess .read a s

/-- `Fetch(addr)` (R63): an Execute event, not a Read event. -/
def fetchByte (a : Addr) (s : State) : Res Byte := busAccess .execute a s

/-- `MemRead(addr, 2)` (R62): low byte first, high byte at the 16-bit successor. -/
def memReadWord (a : Addr) (s : State) : Res Addr :=
  (memRead a s).bind fun lo t => (memRead (a + 1) t).bind fun hi u => .ok (wordOf lo hi) u

/-- `MemWrite(addr, 1, v)` (R64): the event comes after the write is applied. -/
def memWrite (a : Addr) (v : Byte) (s : State) : State :=
  (s.setBus (s.bus.write a v)).event .write a

/-! ### The stack -/

/-- The stack address a value of SP names: `STACK_BASE | SP` (R23). -/
def stackAddr (sp : Byte) : Addr := Config.stackBase ||| sp.setWidth 16

/-- `Push(v)` (R68). -/
def push (v : Byte) (s : State) : State :=
  let t := memWrite (stackAddr s.sp) v s
  t.setSp (t.sp - 1)

/-- `Pull()` (R69). -/
def pull (s : State) : Res Byte :=
  let t := s.setSp (s.sp + 1)
  memRead (stackAddr t.sp) t

/-- `PushAddr(w)`: the high byte, then the low byte (R70). -/
def pushAddr (w : Addr) (s : State) : State := push (lowByte w) (push (highByte w) s)

/-- `PullAddr()`: the low byte, then the high byte (R71). -/
def pullAddr (s : State) : Res Addr :=
  (pull s).bind fun lo t => (pull t).bind fun hi u => .ok (wordOf lo hi) u

/-! ### Taking an interrupt and returning from one -/

/-- The entry sequence shared by RESET, NMI, IRQ and BRK (R330, R284, R337): push the return address
(high byte first), push the packed status with the interrupt-context mask ORed in, and read the
handler's address from the vector. The caller writes PC (and BRK then sets `P.I`). -/
def enterInterrupt (ret vector : Addr) (s : State) : Res Addr :=
  let t := pushAddr ret s
  memReadWord vector (push (pack t.p ||| t.params.intCtxMask) t)

/-- The return sequence of RTI (R283, R338): pull and unpack the status, then pull PC, with no +1. -/
def leaveInterrupt (s : State) : Res Addr :=
  (pull s).bind fun b t => pullAddr (t.setP (unpack b))

end Sys2Proof.Machine
end

