-- ==== Sys2Proof/Machine/Operands.lean ====
section
/-! DEFINITION. The addressing-mode resolver (40_addressing_alu.md R140 to R154), every operand form.
The operand bytes themselves are read by the step before it (log 12); what is left here is the
address computation and the reads of pointer bytes. -/

namespace Sys2Proof.Machine

/-- The operand forms that name a byte of memory. -/
inductive MemOperand where
  | zp (b : Byte)
  | zpx (b : Byte)
  | zpy (b : Byte)
  | abs (w : Addr)
  | absx (w : Addr)
  | absy (w : Addr)
  | izx (b : Byte)
  | izy (b : Byte)
  deriving DecidableEq, Repr

/-- The operand forms of an instruction that reads its operand. -/
inductive Operand where
  | imm (b : Byte)
  | mem (m : MemOperand)
  deriving DecidableEq, Repr

/-- The addressing mode of an operand form. -/
def MemOperand.mode : MemOperand → Mode
  | .zp _ => .zp
  | .zpx _ => .zpx
  | .zpy _ => .zpy
  | .abs _ => .abs
  | .absx _ => .absx
  | .absy _ => .absy
  | .izx _ => .izx
  | .izy _ => .izy

/-- The addressing mode of an operand form. -/
def Operand.mode : Operand → Mode
  | .imm _ => .imm
  | .mem m => m.mode

/-- A byte as an address in the zero page (R122). -/
def zeroPage (b : Byte) : Addr := b.setWidth 16

/-- The effective address (R145 to R150, R152, R153). Zero-page sums are truncated to 8 bits;
absolute and post-indexed sums are full 16-bit adds; a pointer's high byte is at the 16-bit
successor of its low byte. -/
def effectiveAddress (m : MemOperand) (s : State) : Res Addr :=
  match m with
  | .zp b => .ok (zeroPage b) s
  | .zpx b => .ok (zeroPage (b + s.x)) s
  | .zpy b => .ok (zeroPage (b + s.y)) s
  | .abs w => .ok w s
  | .absx w => .ok (w + s.x.setWidth 16) s
  | .absy w => .ok (w + s.y.setWidth 16) s
  | .izx b => memReadWord (zeroPage (b + s.x)) s
  | .izy b => (memReadWord (zeroPage b) s).bind fun t u => .ok (t + u.y.setWidth 16) u

/-- The value of an operand: the immediate byte (R143), or the byte at the effective address. -/
def readOperand (o : Operand) (s : State) : Res Byte :=
  match o with
  | .imm b => .ok b s
  | .mem m => (effectiveAddress m s).bind fun ea t => memRead ea t

/-- The branch target `PC0 + 2 + sext(b)` (R144). -/
def branchTarget (pc0 : Addr) (b : Byte) : Addr := pc0 + 2 + b.signExtend 16

end Sys2Proof.Machine
end

