-- ==== Sys2Proof/Machine/Shapes.lean ====
section
/-! DEFINITION. The behavioural shapes (40_addressing_alu.md R171 to R174) and the operation patterns
the instruction families share. PC is written once, at the end, from PC0 (R177). -/

namespace Sys2Proof.Machine

/-- The outcome of an instruction. -/
abbrev Out := Host.Outcome State Fault Refusal

/-- The Standard and ReadModifyWrite shapes: after the operation PC is PC0 plus the mode's length
(R171, R172). -/
def advance (mode : Mode) (s : State) (r : Res Unit) : Out :=
  match r with
  | .ok _ t => .next (t.setPc (s.pc + BitVec.ofNat 16 mode.length))
  | .raise f => .fault f

/-- The Jump shape: the operation gives the next PC (R174). -/
def jump (r : Res Addr) : Out :=
  match r with
  | .ok target t => .next (t.setPc target)
  | .raise f => .fault f

/-- The Branch shape: taken when the flag has the wanted value (R173). -/
def branch (flag want : Bool) (off : Byte) (s : State) : Out :=
  .next (s.setPc (if flag = want then branchTarget s.pc off else s.pc + 2))

/-- Standard shape of a one-byte instruction that touches no memory. -/
def implied (f : State → State) (s : State) : Out := advance .imp s (.ok () (f s))

/-- Standard shape of an instruction that reads its operand and then writes registers or flags. -/
def reading (f : Byte → State → State) (o : Operand) (s : State) : Out :=
  advance o.mode s ((readOperand o s).bind fun v t => .ok () (f v t))

/-- Standard shape of a store: it does not read its target (R203). -/
def storing (src : State → Byte) (m : MemOperand) (s : State) : Out :=
  advance m.mode s ((effectiveAddress m s).bind fun ea t => .ok () (memWrite ea (src t) t))

/-- ReadModifyWrite shape: one read, the transform with its flags, one write (R172). -/
def modifying (f : Byte → Flags → Byte × Flags) (m : MemOperand) (s : State) : Out :=
  advance m.mode s ((effectiveAddress m s).bind fun ea t => (memRead ea t).bind fun v u =>
    .ok () (memWrite ea (f v u.p).1 (u.setP (f v u.p).2)))

/-- Standard shape of an accumulator-mode transform (R246, R248, R250, R252). -/
def onAccumulator (f : Byte → Flags → Byte × Flags) (s : State) : Out :=
  advance .acc s (.ok () ((s.setA (f s.a s.p).1).setP (f s.a s.p).2))

end Sys2Proof.Machine
end

