-- ==== Sys2Proof/Machine/ArithLogic.lean ====
section
/-! DEFINITION. Arithmetic, logic, compare and bit test (42_arith_logic.md R220 to R228). -/

namespace Sys2Proof.Machine

/-- `A <- f(A, v)` with the flags of `f`. -/
def aluA (f : Byte → Byte → Flags → Byte × Flags) (v : Byte) (t : State) : State :=
  (t.setA (f t.a v t.p).1).setP (f t.a v t.p).2

/-- ADC, add with carry (R220). -/
def adcOp (o : Operand) (s : State) : Out := reading (aluA twosCompAdd) o s

/-- ADC IMM, 0x69 (R220). -/
def execAdcImm (b : Byte) (s : State) : Out := adcOp (.imm b) s

/-- ADC ZP, 0x65 (R220). -/
def execAdcZp (b : Byte) (s : State) : Out := adcOp (.mem (.zp b)) s

/-- ADC ZPX, 0x75 (R220). -/
def execAdcZpx (b : Byte) (s : State) : Out := adcOp (.mem (.zpx b)) s

/-- ADC ABS, 0x6D (R220). -/
def execAdcAbs (w : Addr) (s : State) : Out := adcOp (.mem (.abs w)) s

/-- ADC ABSX, 0x7D (R220). -/
def execAdcAbsx (w : Addr) (s : State) : Out := adcOp (.mem (.absx w)) s

/-- ADC ABSY, 0x79 (R220). -/
def execAdcAbsy (w : Addr) (s : State) : Out := adcOp (.mem (.absy w)) s

/-- ADC IZX, 0x61 (R220). -/
def execAdcIzx (b : Byte) (s : State) : Out := adcOp (.mem (.izx b)) s

/-- ADC IZY, 0x71 (R220). -/
def execAdcIzy (b : Byte) (s : State) : Out := adcOp (.mem (.izy b)) s

/-- SBC, subtract with borrow (R221). -/
def sbcOp (o : Operand) (s : State) : Out := reading (aluA twosCompSubtract) o s

/-- SBC IMM, 0xE9 (R221). -/
def execSbcImm (b : Byte) (s : State) : Out := sbcOp (.imm b) s

/-- SBC ZP, 0xE5 (R221). -/
def execSbcZp (b : Byte) (s : State) : Out := sbcOp (.mem (.zp b)) s

/-- SBC ZPX, 0xF5 (R221). -/
def execSbcZpx (b : Byte) (s : State) : Out := sbcOp (.mem (.zpx b)) s

/-- SBC ABS, 0xED (R221). -/
def execSbcAbs (w : Addr) (s : State) : Out := sbcOp (.mem (.abs w)) s

/-- SBC ABSX, 0xFD (R221). -/
def execSbcAbsx (w : Addr) (s : State) : Out := sbcOp (.mem (.absx w)) s

/-- SBC ABSY, 0xF9 (R221). -/
def execSbcAbsy (w : Addr) (s : State) : Out := sbcOp (.mem (.absy w)) s

/-- SBC IZX, 0xE1 (R221). -/
def execSbcIzx (b : Byte) (s : State) : Out := sbcOp (.mem (.izx b)) s

/-- SBC IZY, 0xF1 (R221). -/
def execSbcIzy (b : Byte) (s : State) : Out := sbcOp (.mem (.izy b)) s

/-- AND, bitwise and (R222). -/
def andOp (o : Operand) (s : State) : Out := reading (aluA andF) o s

/-- AND IMM, 0x29 (R222). -/
def execAndImm (b : Byte) (s : State) : Out := andOp (.imm b) s

/-- AND ZP, 0x25 (R222). -/
def execAndZp (b : Byte) (s : State) : Out := andOp (.mem (.zp b)) s

/-- AND ZPX, 0x35 (R222). -/
def execAndZpx (b : Byte) (s : State) : Out := andOp (.mem (.zpx b)) s

/-- AND ABS, 0x2D (R222). -/
def execAndAbs (w : Addr) (s : State) : Out := andOp (.mem (.abs w)) s

/-- AND ABSX, 0x3D (R222). -/
def execAndAbsx (w : Addr) (s : State) : Out := andOp (.mem (.absx w)) s

/-- AND ABSY, 0x39 (R222). -/
def execAndAbsy (w : Addr) (s : State) : Out := andOp (.mem (.absy w)) s

/-- AND IZX, 0x21 (R222). -/
def execAndIzx (b : Byte) (s : State) : Out := andOp (.mem (.izx b)) s

/-- AND IZY, 0x31 (R222). -/
def execAndIzy (b : Byte) (s : State) : Out := andOp (.mem (.izy b)) s

/-- ORA, bitwise or (R223). -/
def oraOp (o : Operand) (s : State) : Out := reading (aluA oraF) o s

/-- ORA IMM, 0x09 (R223). -/
def execOraImm (b : Byte) (s : State) : Out := oraOp (.imm b) s

/-- ORA ZP, 0x05 (R223). -/
def execOraZp (b : Byte) (s : State) : Out := oraOp (.mem (.zp b)) s

/-- ORA ZPX, 0x15 (R223). -/
def execOraZpx (b : Byte) (s : State) : Out := oraOp (.mem (.zpx b)) s

/-- ORA ABS, 0x0D (R223). -/
def execOraAbs (w : Addr) (s : State) : Out := oraOp (.mem (.abs w)) s

/-- ORA ABSX, 0x1D (R223). -/
def execOraAbsx (w : Addr) (s : State) : Out := oraOp (.mem (.absx w)) s

/-- ORA ABSY, 0x19 (R223). -/
def execOraAbsy (w : Addr) (s : State) : Out := oraOp (.mem (.absy w)) s

/-- ORA IZX, 0x01 (R223). -/
def execOraIzx (b : Byte) (s : State) : Out := oraOp (.mem (.izx b)) s

/-- ORA IZY, 0x11 (R223). -/
def execOraIzy (b : Byte) (s : State) : Out := oraOp (.mem (.izy b)) s

/-- EOR, bitwise exclusive or (R224). -/
def eorOp (o : Operand) (s : State) : Out := reading (aluA eorF) o s

/-- EOR IMM, 0x49 (R224). -/
def execEorImm (b : Byte) (s : State) : Out := eorOp (.imm b) s

/-- EOR ZP, 0x45 (R224). -/
def execEorZp (b : Byte) (s : State) : Out := eorOp (.mem (.zp b)) s

/-- EOR ZPX, 0x55 (R224). -/
def execEorZpx (b : Byte) (s : State) : Out := eorOp (.mem (.zpx b)) s

/-- EOR ABS, 0x4D (R224). -/
def execEorAbs (w : Addr) (s : State) : Out := eorOp (.mem (.abs w)) s

/-- EOR ABSX, 0x5D (R224). -/
def execEorAbsx (w : Addr) (s : State) : Out := eorOp (.mem (.absx w)) s

/-- EOR ABSY, 0x59 (R224). -/
def execEorAbsy (w : Addr) (s : State) : Out := eorOp (.mem (.absy w)) s

/-- EOR IZX, 0x41 (R224). -/
def execEorIzx (b : Byte) (s : State) : Out := eorOp (.mem (.izx b)) s

/-- EOR IZY, 0x51 (R224). -/
def execEorIzy (b : Byte) (s : State) : Out := eorOp (.mem (.izy b)) s

/-- CMP (R225): no register and not V is written. -/
def cmpOp (o : Operand) (s : State) : Out :=
  reading (fun v t => t.setP (compareFlags t.a v t.p)) o s

/-- CMP IMM, 0xC9 (R225). -/
def execCmpImm (b : Byte) (s : State) : Out := cmpOp (.imm b) s

/-- CMP ZP, 0xC5 (R225). -/
def execCmpZp (b : Byte) (s : State) : Out := cmpOp (.mem (.zp b)) s

/-- CMP ZPX, 0xD5 (R225). -/
def execCmpZpx (b : Byte) (s : State) : Out := cmpOp (.mem (.zpx b)) s

/-- CMP ABS, 0xCD (R225). -/
def execCmpAbs (w : Addr) (s : State) : Out := cmpOp (.mem (.abs w)) s

/-- CMP ABSX, 0xDD (R225). -/
def execCmpAbsx (w : Addr) (s : State) : Out := cmpOp (.mem (.absx w)) s

/-- CMP ABSY, 0xD9 (R225). -/
def execCmpAbsy (w : Addr) (s : State) : Out := cmpOp (.mem (.absy w)) s

/-- CMP IZX, 0xC1 (R225). -/
def execCmpIzx (b : Byte) (s : State) : Out := cmpOp (.mem (.izx b)) s

/-- CMP IZY, 0xD1 (R225). -/
def execCmpIzy (b : Byte) (s : State) : Out := cmpOp (.mem (.izy b)) s

/-- CPX (R226): no register and not V is written. -/
def cpxOp (o : Operand) (s : State) : Out :=
  reading (fun v t => t.setP (compareFlags t.x v t.p)) o s

/-- CPX IMM, 0xE0 (R226). -/
def execCpxImm (b : Byte) (s : State) : Out := cpxOp (.imm b) s

/-- CPX ZP, 0xE4 (R226). -/
def execCpxZp (b : Byte) (s : State) : Out := cpxOp (.mem (.zp b)) s

/-- CPX ABS, 0xEC (R226). -/
def execCpxAbs (w : Addr) (s : State) : Out := cpxOp (.mem (.abs w)) s

/-- CPY (R227): no register and not V is written. -/
def cpyOp (o : Operand) (s : State) : Out :=
  reading (fun v t => t.setP (compareFlags t.y v t.p)) o s

/-- CPY IMM, 0xC0 (R227). -/
def execCpyImm (b : Byte) (s : State) : Out := cpyOp (.imm b) s

/-- CPY ZP, 0xC4 (R227). -/
def execCpyZp (b : Byte) (s : State) : Out := cpyOp (.mem (.zp b)) s

/-- CPY ABS, 0xCC (R227). -/
def execCpyAbs (w : Addr) (s : State) : Out := cpyOp (.mem (.abs w)) s

/-- BIT (R228). -/
def bitOp (o : Operand) (s : State) : Out := reading (fun v t => t.setP (bitTest t.a v t.p)) o s

/-- BIT ZP, 0x24 (R228). -/
def execBitZp (b : Byte) (s : State) : Out := bitOp (.mem (.zp b)) s

/-- BIT ABS, 0x2C (R228). -/
def execBitAbs (w : Addr) (s : State) : Out := bitOp (.mem (.abs w)) s

end Sys2Proof.Machine
end

