-- ==== Sys2Proof/Machine/Branch.lean ====
section
/-! DEFINITION. Conditional branches (44_branch.md R260 to R267). -/

namespace Sys2Proof.Machine

/-- BPL, 0x10 (R260): taken when P.N = 0. -/
def execBpl (b : Byte) (s : State) : Out := branch s.p.n false b s

/-- BMI, 0x30 (R261): taken when P.N = 1. -/
def execBmi (b : Byte) (s : State) : Out := branch s.p.n true b s

/-- BVC, 0x50 (R262): taken when P.V = 0. -/
def execBvc (b : Byte) (s : State) : Out := branch s.p.v false b s

/-- BVS, 0x70 (R263): taken when P.V = 1. -/
def execBvs (b : Byte) (s : State) : Out := branch s.p.v true b s

/-- BCC, 0x90 (R264): taken when P.C = 0. -/
def execBcc (b : Byte) (s : State) : Out := branch s.p.c false b s

/-- BCS, 0xB0 (R265): taken when P.C = 1. -/
def execBcs (b : Byte) (s : State) : Out := branch s.p.c true b s

/-- BNE, 0xD0 (R266): taken when P.Z = 0. -/
def execBne (b : Byte) (s : State) : Out := branch s.p.z false b s

/-- BEQ, 0xF0 (R267): taken when P.Z = 1. -/
def execBeq (b : Byte) (s : State) : Out := branch s.p.z true b s

end Sys2Proof.Machine
end

