-- ==== Sys2Proof/Machine/Control.lean ====
section
/-! DEFINITION. Jumps, subroutine call and return, interrupt return, BRK (45_control.md R280 to R284). -/

namespace Sys2Proof.Machine

/-- JMP ABS, 0x4C (R280): PC takes the operand word. -/
def execJmpAbs (w : Addr) (s : State) : Out := jump (.ok w s)

/-- JMP IND, 0x6C (R280, R151): PC takes the word at the operand address. -/
def execJmpInd (w : Addr) (s : State) : Out := jump (memReadWord w s)

/-- JSR, 0x20 (R281): pushes PC0 + 2, the address of the call's last byte. -/
def execJsr (w : Addr) (s : State) : Out := jump (.ok w (pushAddr (s.pc + 2) s))

/-- RTS, 0x60 (R282): the pulled address plus 1. -/
def execRts (s : State) : Out := jump ((pullAddr s).bind fun w t => .ok (w + 1) t)

/-- RTI, 0x40 (R283). -/
def execRti (s : State) : Out := jump (leaveInterrupt s)

/-- BRK, 0x00 (R284, R334): interrupt entry with return address PC0 + 2 and the IRQ vector, then
`P.I <- 1`. -/
def execBrk (s : State) : Out :=
  jump ((enterInterrupt (s.pc + 2) s.params.vecIrq s).bind fun target t =>
    .ok target (t.setP { t.p with i := true }))

end Sys2Proof.Machine
end

