-- ==== Sys2Proof/Machine/FlagsStack.lean ====
section
/-! DEFINITION. Flag set and clear, stack push and pull, no-op (46_flags_stack_misc.md R300 to R311). -/

namespace Sys2Proof.Machine

/-- CLC, 0x18 (R300). -/
def execClc (s : State) : Out := implied (fun t => t.setP { t.p with c := false }) s

/-- SEC, 0x38 (R301). -/
def execSec (s : State) : Out := implied (fun t => t.setP { t.p with c := true }) s

/-- CLI, 0x58 (R302). -/
def execCli (s : State) : Out := implied (fun t => t.setP { t.p with i := false }) s

/-- SEI, 0x78 (R303). -/
def execSei (s : State) : Out := implied (fun t => t.setP { t.p with i := true }) s

/-- CLV, 0xB8 (R304). -/
def execClv (s : State) : Out := implied (fun t => t.setP { t.p with v := false }) s

/-- CLD, 0xD8 (R305). -/
def execCld (s : State) : Out := implied (fun t => t.setP { t.p with d := false }) s

/-- SED, 0xF8 (R306). -/
def execSed (s : State) : Out := implied (fun t => t.setP { t.p with d := true }) s

/-- PHA, 0x48 (R307). -/
def execPha (s : State) : Out := implied (fun t => push t.a t) s

/-- PLA, 0x68 (R308): Z and N from the pulled value. -/
def execPla (s : State) : Out :=
  advance .imp s ((pull s).bind fun v t => .ok () ((t.setA v).setP (setZeroNegative v t.p)))

/-- PHP, 0x08 (R309): the packed status with the PHP framing mask. -/
def execPhp (s : State) : Out := implied (fun t => push (pack t.p ||| t.params.phpMask) t) s

/-- PLP, 0x28 (R310): all six flags from the pulled byte. -/
def execPlp (s : State) : Out := advance .imp s ((pull s).bind fun v t => .ok () (t.setP (unpack v)))

/-- NOP, 0xEA (R311). -/
def execNop (s : State) : Out := implied (fun t => t) s

end Sys2Proof.Machine
end

