-- ==== Sys2Proof/Machine/IncDecShift.lean ====
section
/-! DEFINITION. Increments, decrements, shifts and rotates (43_incdec_shift.md R240 to R253). -/

namespace Sys2Proof.Machine

/-- INC (R240). -/
def incOp (m : MemOperand) (s : State) : Out := modifying incF m s

/-- INC ZP, 0xE6 (R240). -/
def execIncZp (b : Byte) (s : State) : Out := incOp (.zp b) s

/-- INC ZPX, 0xF6 (R240). -/
def execIncZpx (b : Byte) (s : State) : Out := incOp (.zpx b) s

/-- INC ABS, 0xEE (R240). -/
def execIncAbs (w : Addr) (s : State) : Out := incOp (.abs w) s

/-- INC ABSX, 0xFE (R240). -/
def execIncAbsx (w : Addr) (s : State) : Out := incOp (.absx w) s

/-- DEC (R241). -/
def decOp (m : MemOperand) (s : State) : Out := modifying decF m s

/-- DEC ZP, 0xC6 (R241). -/
def execDecZp (b : Byte) (s : State) : Out := decOp (.zp b) s

/-- DEC ZPX, 0xD6 (R241). -/
def execDecZpx (b : Byte) (s : State) : Out := decOp (.zpx b) s

/-- DEC ABS, 0xCE (R241). -/
def execDecAbs (w : Addr) (s : State) : Out := decOp (.abs w) s

/-- DEC ABSX, 0xDE (R241). -/
def execDecAbsx (w : Addr) (s : State) : Out := decOp (.absx w) s

/-- INX (R242). -/
def execInx (s : State) : Out :=
  implied (fun t => (t.setX (incF t.x t.p).1).setP (incF t.x t.p).2) s

/-- INY (R243). -/
def execIny (s : State) : Out :=
  implied (fun t => (t.setY (incF t.y t.p).1).setP (incF t.y t.p).2) s

/-- DEX (R244). -/
def execDex (s : State) : Out :=
  implied (fun t => (t.setX (decF t.x t.p).1).setP (decF t.x t.p).2) s

/-- DEY (R245). -/
def execDey (s : State) : Out :=
  implied (fun t => (t.setY (decF t.y t.p).1).setP (decF t.y t.p).2) s

/-- ASL A, 0x0A (R246). -/
def execAslAcc (s : State) : Out := onAccumulator aslF s

/-- ASL of memory (R247). -/
def aslOp (m : MemOperand) (s : State) : Out := modifying aslF m s

/-- ASL ZP, 0x06 (R247). -/
def execAslZp (b : Byte) (s : State) : Out := aslOp (.zp b) s

/-- ASL ZPX, 0x16 (R247). -/
def execAslZpx (b : Byte) (s : State) : Out := aslOp (.zpx b) s

/-- ASL ABS, 0x0E (R247). -/
def execAslAbs (w : Addr) (s : State) : Out := aslOp (.abs w) s

/-- ASL ABSX, 0x1E (R247). -/
def execAslAbsx (w : Addr) (s : State) : Out := aslOp (.absx w) s

/-- LSR A, 0x4A (R248). -/
def execLsrAcc (s : State) : Out := onAccumulator lsrF s

/-- LSR of memory (R249). -/
def lsrOp (m : MemOperand) (s : State) : Out := modifying lsrF m s

/-- LSR ZP, 0x46 (R249). -/
def execLsrZp (b : Byte) (s : State) : Out := lsrOp (.zp b) s

/-- LSR ZPX, 0x56 (R249). -/
def execLsrZpx (b : Byte) (s : State) : Out := lsrOp (.zpx b) s

/-- LSR ABS, 0x4E (R249). -/
def execLsrAbs (w : Addr) (s : State) : Out := lsrOp (.abs w) s

/-- LSR ABSX, 0x5E (R249). -/
def execLsrAbsx (w : Addr) (s : State) : Out := lsrOp (.absx w) s

/-- ROL A, 0x2A (R250). -/
def execRolAcc (s : State) : Out := onAccumulator rolF s

/-- ROL of memory (R251). -/
def rolOp (m : MemOperand) (s : State) : Out := modifying rolF m s

/-- ROL ZP, 0x26 (R251). -/
def execRolZp (b : Byte) (s : State) : Out := rolOp (.zp b) s

/-- ROL ZPX, 0x36 (R251). -/
def execRolZpx (b : Byte) (s : State) : Out := rolOp (.zpx b) s

/-- ROL ABS, 0x2E (R251). -/
def execRolAbs (w : Addr) (s : State) : Out := rolOp (.abs w) s

/-- ROL ABSX, 0x3E (R251). -/
def execRolAbsx (w : Addr) (s : State) : Out := rolOp (.absx w) s

/-- ROR A, 0x6A (R252). -/
def execRorAcc (s : State) : Out := onAccumulator rorF s

/-- ROR of memory (R253). -/
def rorOp (m : MemOperand) (s : State) : Out := modifying rorF m s

/-- ROR ZP, 0x66 (R253). -/
def execRorZp (b : Byte) (s : State) : Out := rorOp (.zp b) s

/-- ROR ZPX, 0x76 (R253). -/
def execRorZpx (b : Byte) (s : State) : Out := rorOp (.zpx b) s

/-- ROR ABS, 0x6E (R253). -/
def execRorAbs (w : Addr) (s : State) : Out := rorOp (.abs w) s

/-- ROR ABSX, 0x7E (R253). -/
def execRorAbsx (w : Addr) (s : State) : Out := rorOp (.absx w) s

end Sys2Proof.Machine
end

