-- ==== Sys2Proof/Machine/LoadStore.lean ====
section
/-! DEFINITION. Loads, stores and register transfers (41_load_store_transfer.md R200 to R211). -/

namespace Sys2Proof.Machine

/-- `A <- v; setZeroNegative(A)`. -/
def loadA (v : Byte) (t : State) : State := (t.setA v).setP (setZeroNegative v t.p)

/-- `X <- v; setZeroNegative(X)`. -/
def loadX (v : Byte) (t : State) : State := (t.setX v).setP (setZeroNegative v t.p)

/-- `Y <- v; setZeroNegative(Y)`. -/
def loadY (v : Byte) (t : State) : State := (t.setY v).setP (setZeroNegative v t.p)

/-- LDA, load accumulator (R200). -/
def ldaOp (o : Operand) (s : State) : Out := reading loadA o s

/-- LDA IMM, 0xA9 (R200). -/
def execLdaImm (b : Byte) (s : State) : Out := ldaOp (.imm b) s

/-- LDA ZP, 0xA5 (R200). -/
def execLdaZp (b : Byte) (s : State) : Out := ldaOp (.mem (.zp b)) s

/-- LDA ZPX, 0xB5 (R200). -/
def execLdaZpx (b : Byte) (s : State) : Out := ldaOp (.mem (.zpx b)) s

/-- LDA ABS, 0xAD (R200). -/
def execLdaAbs (w : Addr) (s : State) : Out := ldaOp (.mem (.abs w)) s

/-- LDA ABSX, 0xBD (R200). -/
def execLdaAbsx (w : Addr) (s : State) : Out := ldaOp (.mem (.absx w)) s

/-- LDA ABSY, 0xB9 (R200). -/
def execLdaAbsy (w : Addr) (s : State) : Out := ldaOp (.mem (.absy w)) s

/-- LDA IZX, 0xA1 (R200). -/
def execLdaIzx (b : Byte) (s : State) : Out := ldaOp (.mem (.izx b)) s

/-- LDA IZY, 0xB1 (R200). -/
def execLdaIzy (b : Byte) (s : State) : Out := ldaOp (.mem (.izy b)) s

/-- LDX, load index X (R201). -/
def ldxOp (o : Operand) (s : State) : Out := reading loadX o s

/-- LDX IMM, 0xA2 (R201). -/
def execLdxImm (b : Byte) (s : State) : Out := ldxOp (.imm b) s

/-- LDX ZP, 0xA6 (R201). -/
def execLdxZp (b : Byte) (s : State) : Out := ldxOp (.mem (.zp b)) s

/-- LDX ZPY, 0xB6 (R201). -/
def execLdxZpy (b : Byte) (s : State) : Out := ldxOp (.mem (.zpy b)) s

/-- LDX ABS, 0xAE (R201). -/
def execLdxAbs (w : Addr) (s : State) : Out := ldxOp (.mem (.abs w)) s

/-- LDX ABSY, 0xBE (R201). -/
def execLdxAbsy (w : Addr) (s : State) : Out := ldxOp (.mem (.absy w)) s

/-- LDY, load index Y (R202). -/
def ldyOp (o : Operand) (s : State) : Out := reading loadY o s

/-- LDY IMM, 0xA0 (R202). -/
def execLdyImm (b : Byte) (s : State) : Out := ldyOp (.imm b) s

/-- LDY ZP, 0xA4 (R202). -/
def execLdyZp (b : Byte) (s : State) : Out := ldyOp (.mem (.zp b)) s

/-- LDY ZPX, 0xB4 (R202). -/
def execLdyZpx (b : Byte) (s : State) : Out := ldyOp (.mem (.zpx b)) s

/-- LDY ABS, 0xAC (R202). -/
def execLdyAbs (w : Addr) (s : State) : Out := ldyOp (.mem (.abs w)) s

/-- LDY ABSX, 0xBC (R202). -/
def execLdyAbsx (w : Addr) (s : State) : Out := ldyOp (.mem (.absx w)) s

/-- STA, store accumulator (R203). -/
def staOp (m : MemOperand) (s : State) : Out := storing (fun t => t.a) m s

/-- STA ZP, 0x85 (R203). -/
def execStaZp (b : Byte) (s : State) : Out := staOp (.zp b) s

/-- STA ZPX, 0x95 (R203). -/
def execStaZpx (b : Byte) (s : State) : Out := staOp (.zpx b) s

/-- STA ABS, 0x8D (R203). -/
def execStaAbs (w : Addr) (s : State) : Out := staOp (.abs w) s

/-- STA ABSX, 0x9D (R203). -/
def execStaAbsx (w : Addr) (s : State) : Out := staOp (.absx w) s

/-- STA ABSY, 0x99 (R203). -/
def execStaAbsy (w : Addr) (s : State) : Out := staOp (.absy w) s

/-- STA IZX, 0x81 (R203). -/
def execStaIzx (b : Byte) (s : State) : Out := staOp (.izx b) s

/-- STA IZY, 0x91 (R203). -/
def execStaIzy (b : Byte) (s : State) : Out := staOp (.izy b) s

/-- STX, store index X (R204). -/
def stxOp (m : MemOperand) (s : State) : Out := storing (fun t => t.x) m s

/-- STX ZP, 0x86 (R204). -/
def execStxZp (b : Byte) (s : State) : Out := stxOp (.zp b) s

/-- STX ZPY, 0x96 (R204). -/
def execStxZpy (b : Byte) (s : State) : Out := stxOp (.zpy b) s

/-- STX ABS, 0x8E (R204). -/
def execStxAbs (w : Addr) (s : State) : Out := stxOp (.abs w) s

/-- STY, store index Y (R205). -/
def styOp (m : MemOperand) (s : State) : Out := storing (fun t => t.y) m s

/-- STY ZP, 0x84 (R205). -/
def execStyZp (b : Byte) (s : State) : Out := styOp (.zp b) s

/-- STY ZPX, 0x94 (R205). -/
def execStyZpx (b : Byte) (s : State) : Out := styOp (.zpx b) s

/-- STY ABS, 0x8C (R205). -/
def execStyAbs (w : Addr) (s : State) : Out := styOp (.abs w) s

/-- TAX (R206): Z and N from the value moved. -/
def execTax (s : State) : Out := implied (fun t => loadX t.a t) s

/-- TAY (R207): Z and N from the value moved. -/
def execTay (s : State) : Out := implied (fun t => loadY t.a t) s

/-- TXA (R208): Z and N from the value moved. -/
def execTxa (s : State) : Out := implied (fun t => loadA t.x t) s

/-- TYA (R209): Z and N from the value moved. -/
def execTya (s : State) : Out := implied (fun t => loadA t.y t) s

/-- TSX (R210): Z and N from the value moved. -/
def execTsx (s : State) : Out := implied (fun t => loadX t.sp t) s

/-- TXS (R211): no flag is written. -/
def execTxs (s : State) : Out := implied (fun t => t.setSp t.x) s

end Sys2Proof.Machine
end

