-- ==== Sys2Proof/Machine/Fetch.lean ====
section
/-! DEFINITION. Fetching an instruction (40_addressing_alu.md R175, R122, R154), what a step does
around the instruction's meaning, and the placing of bytes where the next fetch reads them. -/

namespace Sys2Proof.Machine

/-- The operand bytes of a mode, read with MemRead in increasing address order (R122, R154). -/
def fetchOperands (m : Mode) (s : State) : Res (Byte × Byte) :=
  match m.operandReads with
  | 0 => .ok (0, 0) s
  | 1 => (memRead (s.pc + 1) s).bind fun lo t => .ok (lo, 0) t
  | _ => (memRead (s.pc + 1) s).bind fun lo t => (memRead (s.pc + 2) t).bind fun hi u => .ok (lo, hi) u

/-- Fetch and decode the instruction at PC (R175): the opcode byte, its descriptor, the operand
bytes. -/
def fetchInstr (s : State) : Res Instr :=
  (fetchByte s.pc s).bind fun op t =>
    match descriptorOf op with
    | none => .raise (.unimplementedOpcode s.pc op)
    | some d => (fetchOperands d.mode t).bind fun ops u => .ok (d.build ops.1 ops.2) u

/-- The end of a step that began at `pc0` (R175): count it, then the stuck-PC check (R323). -/
def completeStep (pc0 : Addr) (o : Out) : Out :=
  match o with
  | .next t =>
    let u := t.setSteps (t.steps + 1)
    if u.params.stuckPcCheck = true ∧ u.pc = pc0 then .fault (.stuckPc pc0) else .next u
  | .fault f => .fault f
  | .refused r => .refused r

/-- Store a byte so that a read of `a` gives it, whatever is there (RAM or the ROM image); none where
nothing stands at `a`. The loading of a program from outside the machine (log 13). -/
def Bus.place : Bus → Addr → Byte → Option Bus
  | .flat ram, a, v => some (.flat (Memory.write ram a.toNat v))
  | .mmc1 m cart, a, v =>
    if a.toNat < Config.openBusStart then
      some (.mmc1 { m with wram := Memory.write m.wram (wramIndex a) v } cart)
    else if a.toNat < Config.prgRamStart then none
    else if a.toNat < Config.cartStart then
      (if cart.prgRamPresent then
        some (.mmc1 { m with prgRam := Memory.write m.prgRam (a.toNat - Config.prgRamStart) v } cart)
      else none)
    else
      let off := prgOffset m cart.romSize a
      if off < cart.romSize then some (.mmc1 m { cart with rom := Memory.write cart.rom off v }) else none

/-- Place bytes at consecutive addresses (R120). -/
def Bus.placeAll (b : Bus) (a : Addr) : List Byte → Option Bus
  | [] => some b
  | v :: vs =>
    match b.place a v with
    | some b' => b'.placeAll (a + 1) vs
    | none => none

/-- The state with `bytes` placed at PC and the machine running; where nothing stands at PC, PC moves
to 0x0000, which is RAM on both buses (log 13). -/
def State.withBytes (s : State) (bytes : List Byte) : State :=
  match s.bus.placeAll s.pc bytes with
  | some b => (s.setBus b).setRun .running
  | none =>
    match s.bus.placeAll 0 bytes with
    | some b => ((s.setBus b).setPc 0).setRun .running
    | none => s

end Sys2Proof.Machine
end

