-- ==== Sys2Proof/Machine/Step.lean ====
section
/-! DEFINITION. One step of the machine: the host's `step()` (60_exceptions.md R342), which while
Running is the step of 40_addressing_alu.md R175. -/

namespace Sys2Proof.Machine

/-- The step of a running machine (R175): fetch, execute, complete. -/
def runInstr (s : State) : Host.Outcome State Fault Refusal :=
  match fetchInstr s with
  | .ok i t => completeStep s.pc (exec i t)
  | .raise f => .fault f

/-- One step (R342): a Halted machine resumes for it; a Faulted one answers its fault (R326). -/
def step (s : State) : Host.Outcome State Fault Refusal :=
  match s.run with
  | .running => runInstr s
  | .halted => runInstr (s.setRun .running)
  | .faulted f => .fault f

/-- The state with an opcode-table word stored where the next step fetches (log 13). -/
def State.withFetchWord (s : State) (nbits w : Nat) : State := s.withBytes (tableBytes nbits w)

end Sys2Proof.Machine
end

