-- ==== Sys2Proof/Machine/Forms.lean ====
section
/-! DEFINITION. Views of the instruction set that claims are stated with: the operand form of an
instruction, and the addresses it stores to. No meaning calls them. -/

namespace Sys2Proof

open Machine in
/-- The operand an instruction reads, stores to or modifies, in its operand form; none for the
implied, accumulator, branch, jump and BRK instructions. -/
def Instr.operand : Instr → Option Operand
  | .ldaImm b | .ldxImm b | .ldyImm b | .adcImm b | .sbcImm b | .andImm b | .oraImm b | .eorImm b |
    .cmpImm b | .cpxImm b | .cpyImm b => some (.imm b)
  | .ldaZp b | .ldxZp b | .ldyZp b | .staZp b | .stxZp b | .styZp b | .adcZp b | .sbcZp b |
    .andZp b | .oraZp b | .eorZp b | .cmpZp b | .cpxZp b | .cpyZp b | .bitZp b | .incZp b |
    .decZp b | .aslZp b | .lsrZp b | .rolZp b | .rorZp b => some (.mem (.zp b))
  | .ldaZpx b | .ldyZpx b | .staZpx b | .styZpx b | .adcZpx b | .sbcZpx b | .andZpx b | .oraZpx b |
    .eorZpx b | .cmpZpx b | .incZpx b | .decZpx b | .aslZpx b | .lsrZpx b | .rolZpx b | .rorZpx b => some (.mem (.zpx b))
  | .ldxZpy b | .stxZpy b => some (.mem (.zpy b))
  | .ldaAbs w | .ldxAbs w | .ldyAbs w | .staAbs w | .stxAbs w | .styAbs w | .adcAbs w | .sbcAbs w |
    .andAbs w | .oraAbs w | .eorAbs w | .cmpAbs w | .cpxAbs w | .cpyAbs w | .bitAbs w | .incAbs w |
    .decAbs w | .aslAbs w | .lsrAbs w | .rolAbs w | .rorAbs w => some (.mem (.abs w))
  | .ldaAbsx w | .ldyAbsx w | .staAbsx w | .adcAbsx w | .sbcAbsx w | .andAbsx w | .oraAbsx w |
    .eorAbsx w | .cmpAbsx w | .incAbsx w | .decAbsx w | .aslAbsx w | .lsrAbsx w | .rolAbsx w |
    .rorAbsx w => some (.mem (.absx w))
  | .ldaAbsy w | .ldxAbsy w | .staAbsy w | .adcAbsy w | .sbcAbsy w | .andAbsy w | .oraAbsy w |
    .eorAbsy w | .cmpAbsy w => some (.mem (.absy w))
  | .ldaIzx b | .staIzx b | .adcIzx b | .sbcIzx b | .andIzx b | .oraIzx b | .eorIzx b | .cmpIzx b => some (.mem (.izx b))
  | .ldaIzy b | .staIzy b | .adcIzy b | .sbcIzy b | .andIzy b | .oraIzy b | .eorIzy b | .cmpIzy b => some (.mem (.izy b))
  | .tax | .tay | .txa | .tya | .tsx | .txs | .inx | .iny | .dex | .dey | .aslAcc | .lsrAcc |
    .rolAcc | .rorAcc | .bpl _ | .bmi _ | .bvc _ | .bvs _ | .bcc _ | .bcs _ | .bne _ | .beq _ |
    .jmpAbs _ | .jmpInd _ | .jsr _ | .rts | .rti | .brk | .clc | .sec | .cli | .sei | .clv | .cld |
    .sed | .pha | .pla | .php | .plp | .nop => none

namespace Machine

/-- The effective address of an operand in a state, where its pointer bytes are readable. -/
def MemOperand.target (m : MemOperand) (s : State) : List Addr :=
  match effectiveAddress m s with
  | .ok ea _ => [ea]
  | .raise _ => []

/-- The addresses an instruction stores to in a state, in the order of its stores: the effective
address of a store or a read-modify-write, and the stack bytes of a push, a call or BRK. -/
def storeTargets (i : Instr) (s : State) : List Addr :=
  match i.mnemonic, i.operand with
  | .sta, some (.mem m) | .stx, some (.mem m) | .sty, some (.mem m) | .inc, some (.mem m)
  | .dec, some (.mem m) | .asl, some (.mem m) | .lsr, some (.mem m) | .rol, some (.mem m)
  | .ror, some (.mem m) => m.target s
  | .pha, _ | .php, _ => [stackAddr s.sp]
  | .jsr, _ => [stackAddr s.sp, stackAddr (s.sp - 1)]
  | .brk, _ => [stackAddr s.sp, stackAddr (s.sp - 1), stackAddr (s.sp - 2)]
  | _, _ => []

/-- Whether two addresses name the same byte of the bus: mirrored work RAM (R73), else only equal
addresses. -/
def Bus.sameByte (b : Bus) (a a' : Addr) : Bool :=
  match b with
  | .flat _ => a == a'
  | .mmc1 _ _ =>
    a == a' || (decide (a.toNat < Config.openBusStart) && decide (a'.toNat < Config.openBusStart) &&
      wramIndex a == wramIndex a')

/-- Whether a write to an address is an input of the shift-register protocol (R77). -/
def Bus.isPort (b : Bus) (a : Addr) : Bool :=
  match b with
  | .flat _ => false
  | .mmc1 _ _ => decide (Config.cartStart ≤ a.toNat)

end Machine

end Sys2Proof
end

