-- ==== Sys2Proof/WellFormed.lean ====
section
/-! DEFINITION. The checks on the syntax and on what a machine is built from. -/

namespace Sys2Proof

/-- Every instruction term is well formed: "Operand bytes are never checked: any value is legal in
any operand position" (R128). The mode sets of R125 are in the constructors of `Instr` itself. -/
abbrev Instr.WellFormed (_ : Instr) : Prop := True

/-- `PRG_ROM_SIZE` is a positive multiple of 0x4000 (R8); a mapper built with any other size is
refused (93_implementation_defined.md I8). -/
abbrev Cart.WellFormed (c : Cart) : Prop := 0 < c.romSize ∧ c.romSize % Config.prgWindow = 0

/-- The event mask of a breakpoint entry is non-empty (R50, R351; I16). -/
abbrev EventMask.WellFormed (m : EventMask) : Prop := m ≠ ⟨false, false, false⟩

/-- The framing masks touch only bits 5 and 4 of the status byte (R32, R33). -/
abbrev Params.WellFormed (p : Params) : Prop :=
  p.intCtxMask &&& 0xCF = 0 ∧ p.phpMask &&& 0xCF = 0

end Sys2Proof
end

