-- ==== Sys2Proof/Machine/HostPort.lean ====
section
/-! DEFINITION. The host control port (60_exceptions.md R320 to R345, R351; 20_memory.md R89 to R92;
70_reset_and_hazards.md R380 to R384): what the host can do to the machine between steps. -/

namespace Sys2Proof.Machine

/-! ### Construction -/

/-- A machine on the mapper bus with a cartridge, at power-on (R380, R384); another ROM size is refused
(I8). -/
def construct (cart : Cart) (params : Params) : Except Refusal State :=
  if Cart.WellFormed cart then .ok (State.powerOnWith (.mmc1 (MapperState.powerOn params) cart) params)
  else .error (.romSizeIllegal cart.romSize)

/-- A machine on the flat test bus at power-on (R49, R93). -/
def constructFlat (params : Params) : State := State.powerOnWith (.flat []) params

/-! ### Faults as the host sees them -/

/-- The code of a fault (R320). -/
def Fault.code : Fault → Nat
  | .unimplementedOpcode _ _ => 1
  | .mapperOffsetOverflow _ _ _ => 2
  | .stuckPc _ => 3

/-- `steps` after a fault was raised in a step, or a delivery, that began with `n`: a `StuckPC` comes
after the step was counted (R323); the two other faults come before it and leave it as it was (R320),
and a delivery is no step (R335). -/
def Fault.stepsAfter (f : Fault) (n : Nat) : Nat :=
  match f with
  | .unimplementedOpcode _ _ => n
  | .mapperOffsetOverflow _ _ _ => n
  | .stuckPc _ => n + 1

/-- `haltReq` after a fault was raised from `s`: nothing clears it but a run's boundary (R36), and
nothing sets it but a callback; whether one of the events before the raise point did is a free value
(log 9). -/
def State.haltReqAfterFault (s : State) : Bool :=
  s.haltReq || (!s.bp.isEmpty && Config.faultResidue State Bool s)

/-- What is on the bus of a machine that faulted in `s`: any contents, the same cartridge (R51,
R327, log 9). -/
def Bus.afterFault (s : State) : Bus :=
  match s.bus with
  | .mmc1 _ cart => .mmc1 (Config.faultResidue State MapperState s) cart
  | .flat _ => .flat (Config.faultResidue State Memory s)

/-- `run <- Faulted(f)` (R320), with the step counted or not as the fault says. Registers, flags and
memory are free values (R327, log 9); the breakpoints and the parameters stay. -/
def State.enterFaulted (f : Fault) (s : State) : State :=
  let r := Config.faultResidue State CpuState s
  { a := r.a, x := r.x, y := r.y, sp := r.sp, pc := r.pc, p := r.p
    run := .faulted f
    haltReq := s.haltReqAfterFault
    steps := f.stepsAfter s.steps
    bus := Bus.afterFault s
    bp := s.bp
    params := s.params }

/-- The host's `step()` with the state it leaves (R342, R326). -/
def hostStep (s : State) : State × Option Fault :=
  match step s with
  | .next t => (t, none)
  | .fault f =>
    match s.run with
    | .faulted _ => (s, some f)
    | _ => (s.enterFaulted f, some f)
  | .refused _ => (s, none)

/-! ### Interrupt triggers -/

/-- `Deliver(vector)` (R330): the pushed PC is that of the next instruction; a vector read that
overflows moves the machine to Faulted. -/
def deliver (vector : Addr) (s : State) : State × Option Fault :=
  match enterInterrupt s.pc vector s with
  | .ok target t => (t.setPc target, none)
  | .raise f => (s.enterFaulted f, some f)

/-- A trigger has effect while Running or Halted and none while Faulted (R326, R335). -/
def trigger (vector : Addr) (s : State) : State × Option Fault :=
  match s.run with
  | .faulted _ => (s, none)
  | _ => deliver vector s

/-- `reset()` (R331). -/
def triggerReset (s : State) : State × Option Fault := trigger s.params.vecReset s

/-- `nmi()` (R332): not masked. -/
def triggerNmi (s : State) : State × Option Fault := trigger s.params.vecNmi s

/-- `irq()` (R333): dropped while I masks it, and not remembered. -/
def triggerIrq (s : State) : State × Option Fault :=
  if s.params.irqMaskedByI = true ∧ s.p.i = true then (s, none) else trigger s.params.vecIrq s

/-! ### The run loop -/

/-- `Halt()` and the external halt signal (R345). -/
def hostHalt (s : State) : State := s.setHaltReq true

/-- The checks at an instruction boundary of a run (R324, R325): the halted state, or none to go on. -/
def boundary (s : State) : Option State :=
  if s.haltReq = true then some ((s.setHaltReq false).setRun .halted)
  else
    match s.params.instrBudget with
    | some n => if s.steps ≥ n then some (s.setRun .halted) else none
    | none => none

/-- How a run ends, or that it has not ended within the fuel given (log 17). -/
inductive RunEnd where
  | halted (s : State)
  | faulted (f : Fault) (s : State)
  | unfinished (s : State)
  deriving DecidableEq, Repr

/-- At most `fuel` iterations of the run loop (R341). -/
def runLoop : Nat → State → RunEnd
  | 0, s => .unfinished s
  | fuel + 1, s =>
    match boundary s with
    | some t => .halted t
    | none =>
      match hostStep s with
      | (t, none) => runLoop fuel t
      | (t, some f) => .faulted f t

/-- `run()` (R341): unless Faulted, start a run and loop. -/
def hostRun (fuel : Nat) (s : State) : RunEnd :=
  match s.run with
  | .faulted f => .faulted f s
  | _ => runLoop fuel ((s.setRun .running).setSteps 0)

/-! ### State access -/

/-- CPU `getState()` (R38). -/
def getCpuState (s : State) : CpuState := ⟨s.a, s.x, s.y, s.sp, s.pc, s.p⟩

/-- CPU `setState(c)` (R38): memory, mapper, `run`, `haltReq` and `steps` are untouched. -/
def setCpuState (c : CpuState) (s : State) : State :=
  { s with a := c.a, x := c.x, y := c.y, sp := c.sp, pc := c.pc, p := c.p }

/-- Mapper `getState()` (R90), and the flat array's (R93). DESIGN CHOICE (log 21): the snapshot holds
`prgRam` where PRG_RAM_PRESENT is false too. -/
def getBusState (s : State) : BusSnapshot :=
  match s.bus with
  | .mmc1 m _ => .mmc1 m
  | .flat ram => .flat ram

/-- Mapper `setState(snap)` (R91): every field at once, the ROM unchanged. DESIGN CHOICE (log 21): it
writes `prgRam` where PRG_RAM_PRESENT is false too, which the spec leaves open (R46, R48). A snapshot of
the other bus variant is refused (DESIGN CHOICE, log 16). -/
def setBusState (snap : BusSnapshot) (s : State) : Except Refusal State :=
  match snap, s.bus with
  | .mmc1 m, .mmc1 _ cart => .ok (s.setBus (.mmc1 m cart))
  | .flat ram, .flat _ => .ok (s.setBus (.flat ram))
  | _, _ => .error .snapshotOfOtherBus

/-- The answer of `offset(address)` (R89). -/
inductive OffsetAnswer where
  /-- `isRom = true`, within the image -/
  | rom (fileOffset : Nat)
  /-- the offset lies outside the image: reported, nothing changes -/
  | overflow (fileOffset : Nat)
  /-- `isRom = false`, with a file offset the spec leaves open (log 15) -/
  | notRom (fileOffset : Nat)
  deriving DecidableEq, Repr

/-- `offset(address)` (R89, R93): a query with no effect. -/
def hostOffset (a : Addr) (s : State) : OffsetAnswer :=
  match s.bus with
  | .flat _ => .notRom (Config.openFileOffset a)
  | .mmc1 m cart =>
    if a.toNat < Config.cartStart then .notRom (Config.openFileOffset a)
    else if prgOffset m cart.romSize a < cart.romSize then .rom (prgOffset m cart.romSize a)
    else .overflow (prgOffset m cart.romSize a)

/-- `ClearRam` (R92). -/
def clearRam (s : State) : State :=
  match s.bus with
  | .mmc1 m cart => s.setBus (.mmc1 { m with wram := [], prgRam := [] } cart)
  | .flat _ => s.setBus (.flat [])

/-! ### Instrumented access and breakpoints -/

/-- `readByte(a)` by the host (R344): the event fires; an overflow goes to the host and leaves `run`
unchanged. DESIGN CHOICE (log 20): the `pc` such an overflow records is the current PC; the spec gives
that field only for a step and for a trigger (R320). -/
def hostReadByte (a : Addr) (s : State) : State × Except Fault Byte :=
  let t := s.event .read a
  match t.bus.read a with
  | .ok v => (t, .ok v)
  | .error off => (t, .error (.mapperOffsetOverflow a off t.pc))

/-- `readWord(a)` by the host (R344, R62): two `readByte`s. The `pc` an overflow records is theirs (log
20). -/
def hostReadWord (a : Addr) (s : State) : State × Except Fault Addr :=
  match hostReadByte a s with
  | (t, .error f) => (t, .error f)
  | (t, .ok lo) =>
    match hostReadByte (a + 1) t with
    | (u, .error f) => (u, .error f)
    | (u, .ok hi) => (u, .ok (wordOf lo hi))

/-- `writeByte(a, v)` by the host (R344). -/
def hostWriteByte (a : Addr) (v : Byte) (s : State) : State := memWrite a v s

/-- Replace the entry of the same name at the same address in place, or append (R351). -/
def registerEntry (e : Breakpoint) : List Breakpoint → List Breakpoint
  | [] => [e]
  | b :: bs => if b.addr = e.addr ∧ b.name = e.name then e :: bs else b :: registerEntry e bs

/-- `registerBreakpoint(mask, name, a, cb)` (R351); an empty mask is refused (I16). -/
def registerBreakpoint (mask : EventMask) (name : String) (a : Addr) (cb : Nat) (s : State) :
    Except Refusal State :=
  if EventMask.WellFormed mask then .ok (s.setBp (registerEntry ⟨a, name, mask, cb⟩ s.bp))
  else .error .emptyEventMask

end Sys2Proof.Machine
end

