-- ==== Sys2Proof/Safety.lean ====
section
/-! DEFINITION. What claims speak of: the invariant of the machine, a safe step, and which parts of a
state agree. -/

namespace Sys2Proof

/-- A cartridge as the mapper is handed it: a legal ROM size, the image canonical and inside it. -/
def Cart.wf (c : Cart) : Bool := decide (Cart.WellFormed c) && Memory.wf c.romSize c.rom

/-- The 105 unimplemented bytes, as R127 lists them. -/
def unimplementedBytes : List Byte :=
  [0x02, 0x03, 0x04, 0x07, 0x0B, 0x0C, 0x0F, 0x12, 0x13, 0x14, 0x17, 0x1A, 0x1B, 0x1C, 0x1F, 0x22, 0x23, 0x27, 0x2B, 0x2F, 0x32] ++
  [0x33, 0x34, 0x37, 0x3A, 0x3B, 0x3C, 0x3F, 0x42, 0x43, 0x44, 0x47, 0x4B, 0x4F, 0x52, 0x53, 0x54, 0x57, 0x5A, 0x5B, 0x5C, 0x5F] ++
  [0x62, 0x63, 0x64, 0x67, 0x6B, 0x6F, 0x72, 0x73, 0x74, 0x77, 0x7A, 0x7B, 0x7C, 0x7F, 0x80, 0x82, 0x83, 0x87, 0x89, 0x8B, 0x8F] ++
  [0x92, 0x93, 0x97, 0x9B, 0x9C, 0x9E, 0x9F, 0xA3, 0xA7, 0xAB, 0xAF, 0xB2, 0xB3, 0xB7, 0xBB, 0xBF, 0xC2, 0xC3, 0xC7, 0xCB, 0xCF] ++
  [0xD2, 0xD3, 0xD4, 0xD7, 0xDA, 0xDB, 0xDC, 0xDF, 0xE2, 0xE3, 0xE7, 0xEB, 0xEF, 0xF2, 0xF3, 0xF4, 0xF7, 0xFA, 0xFB, 0xFC, 0xFF]

/-- The result, as a number before narrowing, and the bit shifted out, of a shift or rotate of `v` with
carry `c` (R164). -/
def shiftResult (mn : Mnemonic) (v : Byte) (c : Bool) : Nat × Bool :=
  match mn with
  | .asl => (2 * v.toNat, decide (128 ≤ v.toNat))
  | .lsr => (v.toNat / 2, decide (v.toNat % 2 = 1))
  | .rol => (2 * v.toNat + c.toNat, decide (128 ≤ v.toNat))
  | .ror => (v.toNat / 2 + 128 * c.toNat, decide (v.toNat % 2 = 1))
  | _ => (v.toNat, c)

/-- A number outside the signed 8-bit range. -/
abbrev OutsideSigned8 (n : Int) : Prop := n < -128 ∨ 127 < n

namespace Machine

/-- `setZeroNegative` said of a number: Z and N of its low 8 bits (R160). -/
def Flags.ofResult (n : Nat) (p : Flags) : Flags :=
  { p with z := decide (n % 256 = 0), n := decide (128 ≤ n % 256) }

/-- The mapper's data: both RAMs canonical within their sizes, and no bit of `shift` set at or above
the position `count` (R39, R40: it holds the `count` bits written so far). -/
def MapperState.wf (m : MapperState) : Bool :=
  Memory.wf Config.wramSize m.wram && Memory.wf Config.prgRamSize m.prgRam &&
    decide (m.shift.toNat < 2 ^ m.count.val)

/-- Everything on the bus is canonical. -/
def Bus.wf : Bus → Bool
  | .mmc1 m cart => m.wf && cart.wf
  | .flat ram => Memory.wf Config.flatSize ram

/-- The invariant every step keeps. -/
abbrev State.Inv (s : State) : Prop := s.bus.wf = true

/-- A step is safe when it answers a next state: no fault, no refusal. -/
def State.StepSafe (s : State) : Prop := ∃ t, step s = .next t

/-- The cartridge on the bus, where there is one. -/
def Bus.cart? : Bus → Option Cart
  | .mmc1 _ cart => some cart
  | .flat _ => none

/-- `t` is `s` after some instrumentation events: only the halt request may differ; a callback can set
it and nothing clears it; without breakpoints nothing differs (R355). -/
def State.AfterEvents (s t : State) : Prop :=
  ∃ h, t = s.setHaltReq h ∧ (s.bp = [] → h = s.haltReq) ∧ (s.haltReq = true → h = true)

/-- The instruction completes: `exec` answers a next state, and it is `t` but for what the
instruction's own events did to the halt request. -/
def ExecGives (i : Instr) (s t : State) : Prop := ∃ u, exec i s = .next u ∧ t.AfterEvents u

/-- The two bytes of a word are readable and make the number `n`, low byte first (R62, R65). -/
def Bus.WordAt (b : Bus) (a : Addr) (n : Nat) : Prop :=
  ∃ lo hi, b.peek a = some lo ∧ b.peek (a + 1) = some hi ∧ n = lo.toNat + 256 * hi.toNat

/-- A byte of the word at `a` cannot be read, and `a'` is the first of its two addresses where that is
so (R62, R322, R328). -/
def Bus.WordFails (b : Bus) (a a' : Addr) : Prop :=
  (b.peek a = none ∧ a' = a) ∨ (b.peek a ≠ none ∧ b.peek (a + 1) = none ∧ a' = a + 1)

/-- The state after the entries that listen to an event answered it: those at its address whose mask
holds its kind, in list order, each seeing what the ones before it left, and each able only to set the
halt request (R352, R355). -/
def State.answered (s : State) (k : EventKind) (a : Addr) : State :=
  (s.bp.filter fun e => decide (e.addr = a) &&
      (match k with | .read => e.mask.onRead | .write => e.mask.onWrite | .execute => e.mask.onExecute)).foldl
    (fun t e => t.setHaltReq (t.haltReq || Config.callbackHalts State e.callback k a t)) s

/-- The bus after the bytes `vs` were pushed from `sp` down, first byte first (R68). -/
def Bus.pushed (b : Bus) (sp : Byte) : List Byte → Bus
  | [] => b
  | v :: vs => (b.write (stackAddr sp) v).pushed (sp - 1) vs

/-- The bytes an interrupt entry pushes: return address high, low, then the status byte (R330). -/
def entryBytes (ret : Addr) (s : State) : List Byte :=
  [BitVec.ofNat 8 (ret.toNat / 256), BitVec.ofNat 8 ret.toNat, pack s.p ||| s.params.intCtxMask]

/-- The bytes `bs` stand at consecutive addresses from `a` (R120). -/
def Bus.Holds (b : Bus) : Addr → List Byte → Prop
  | _, [] => True
  | a, v :: vs => b.peek a = some v ∧ b.Holds (a + 1) vs

end Machine

end Sys2Proof
end

