-- ==== Sys2Proof/Certificates/Slice0/Obligations.lean ====
section
/-! DEFINITION. The statements about the model, from the numbered rules of spec/. Each docstring names
the rules it formalises. -/

open Sys2Proof Sys2Proof.Machine

/-! ### Encoding -/

/-- R120, R121, R122, R125, R126: decoding an encoded instruction gives it back, with every operand at
every value, and leaves the bytes after it. -/
def Obligations.DecodeOfEncodeIsTheInstruction : Prop :=
  ∀ (i : Instr) (rest : List Byte), i.WellFormed → decode (encode i ++ rest) = .ok (i, rest)

/-- R120, R123, R126: whatever decodes is an encoding: the bytes taken are the instruction's own, and
for BRK its opcode and any signature byte. -/
def Obligations.DecodedBytesAreTheEncoding : Prop :=
  ∀ (bs : List Byte) (i : Instr) (rest : List Byte), decode bs = .ok (i, rest) →
    (i ≠ .brk → bs = encode i ++ rest) ∧ (i = .brk → ∃ sig : Byte, bs = 0x00 :: sig :: rest)

/-- R127: fetching one of the 105 listed bytes, and no other, raises `UnimplementedOpcode(PC0, byte)`. -/
def Obligations.UnimplementedBytesFault : Prop :=
  ∀ (s t : State) (op : Byte), s.run = .running → fetchByte s.pc s = .ok op t →
    (op ∈ unimplementedBytes ↔ step s = .fault (.unimplementedOpcode s.pc op))

/-- R123, R126, R170: the dispatch table's entry for an instruction's opcode byte has its mnemonic and
mode, and the mode gives the instruction's length, 1 to 3 bytes. -/
def Obligations.DescriptorMatchesInstruction : Prop :=
  ∀ i : Instr, ∃ d, descriptorOf i.opcode = some d ∧ d.mnemonic = i.mnemonic ∧ d.mode = i.mode ∧
    i.length = d.mode.length ∧ 1 ≤ i.length ∧ i.length ≤ 3

/-- R125, R121: words written out from the encoding tables, one of each family, decode to the
instruction they stand for. -/
def Obligations.WrittenWordsDecode : Prop :=
  decode [0xA9, 0x01] = .ok (.ldaImm 0x01, []) ∧
  decode [0x9D, 0xFF, 0x12] = .ok (.staAbsx 0x12FF, []) ∧
  decode [0x71, 0x20] = .ok (.adcIzy 0x20, []) ∧
  decode [0x2C, 0x00, 0x02] = .ok (.bitAbs 0x0200, []) ∧
  decode [0xF6, 0x10] = .ok (.incZpx 0x10, []) ∧
  decode [0x6A] = .ok (.rorAcc, []) ∧
  decode [0xD0, 0xF8] = .ok (.bne 0xF8, []) ∧
  decode [0x6C, 0xFF, 0x10] = .ok (.jmpInd 0x10FF, []) ∧
  decode [0x00, 0xEA] = .ok (.brk, []) ∧
  decode [0x28] = .ok (.plp, []) ∧
  decodeTableWord 24 0x009020 = some (.jsr 0x0090)

/-! ### The step -/

/-- R175, R120, R122, R342: when the bytes at PC decode to an instruction, the step of a machine that is
Running, or Halted and so resumed for it, executes exactly it, on a state that differs at most in the
halt request; a completed step is then counted, and the stuck-PC check made. For BRK its opcode byte
alone decides, since the signature byte is not read. -/
def Obligations.StepRunsTheDecodedInstruction : Prop :=
  ∀ (s : State) (bs : List Byte) (i : Instr), (s.run = .running ∨ s.run = .halted) → i.WellFormed →
    ((decode bs = .ok (i, []) ∧ s.bus.Holds s.pc bs) ∨ (i = .brk ∧ s.bus.peek s.pc = some 0x00)) →
    ∃ t, (s.setRun .running).AfterEvents t ∧
      step s =
        match exec i t with
        | .next u =>
          if u.params.stuckPcCheck = true ∧ u.pc = s.pc then .fault (.stuckPc s.pc)
          else .next (u.setSteps (u.steps + 1))
        | .fault f => .fault f
        | .refused r => .refused r

/-- R171, R172, R176: an instruction of the Standard or ReadModifyWrite shape leaves PC at PC0 plus its
length, modulo 2^16. -/
def Obligations.StandardShapesAdvancePc : Prop :=
  ∀ (i : Instr) (d : Descriptor) (s t : State), i.descriptor = some d →
    (d.shape = .standard ∨ d.shape = .readModifyWrite) → exec i s = .next t →
    t.pc.toNat = (s.pc.toNat + i.length) % 65536

/-- R323: with STUCK_PC_CHECK a step whose instruction left PC at PC0 ends in `StuckPC(PC0)`; and no step
ends in `StuckPC` otherwise. -/
def Obligations.StuckPcIsRaisedExactlyWhenPcStays : Prop :=
  ∀ s : State, s.run = .running →
    (∀ i t u, fetchInstr s = .ok i t → exec i t = .next u →
      (step s = .fault (.stuckPc s.pc) ↔ s.params.stuckPcCheck = true ∧ u.pc = s.pc)) ∧
    (∀ a, step s = .fault (.stuckPc a) → s.params.stuckPcCheck = true ∧ a = s.pc)

/-! ### Addressing modes and reads -/

/-- R145 to R150, R152, R153: the effective address of every memory operand form, as a number: zero-page
sums modulo 256, absolute sums modulo 65,536, and pointers whose high byte is at the 16-bit successor
of the low byte. -/
def Obligations.EffectiveAddresses : Prop :=
  ∀ s : State,
    (∀ b, ∃ ea, effectiveAddress (.zp b) s = .ok ea s ∧ ea.toNat = b.toNat) ∧
    (∀ b, ∃ ea, effectiveAddress (.zpx b) s = .ok ea s ∧ ea.toNat = (b.toNat + s.x.toNat) % 256) ∧
    (∀ b, ∃ ea, effectiveAddress (.zpy b) s = .ok ea s ∧ ea.toNat = (b.toNat + s.y.toNat) % 256) ∧
    (∀ w, ∃ ea, effectiveAddress (.abs w) s = .ok ea s ∧ ea.toNat = w.toNat) ∧
    (∀ w, ∃ ea, effectiveAddress (.absx w) s = .ok ea s ∧
      ea.toNat = (w.toNat + s.x.toNat) % 65536) ∧
    (∀ w, ∃ ea, effectiveAddress (.absy w) s = .ok ea s ∧
      ea.toNat = (w.toNat + s.y.toNat) % 65536) ∧
    (∀ b n, s.bus.WordAt (BitVec.ofNat 16 ((b.toNat + s.x.toNat) % 256)) n →
      ∃ ea t, effectiveAddress (.izx b) s = .ok ea t ∧ s.AfterEvents t ∧ ea.toNat = n) ∧
    (∀ b n, s.bus.WordAt (BitVec.ofNat 16 b.toNat) n →
      ∃ ea t, effectiveAddress (.izy b) s = .ok ea t ∧ s.AfterEvents t ∧
        ea.toNat = (n + s.y.toNat) % 65536)

/-- R140, R143, R61, R86, R322: reading an operand gives the immediate byte, or the byte the bus holds at
the effective address; where that byte lies outside the ROM it raises `MapperOffsetOverflow` with the
address, its ROM offset in the mapper's configuration, and PC; and a read changes nothing but what its
events do to the halt request. -/
def Obligations.OperandReadsAreTheBusBytes : Prop :=
  ∀ s : State,
    (∀ b, readOperand (.imm b) s = .ok b s) ∧
    (∀ m ea u v, effectiveAddress m s = .ok ea u → s.bus.peek ea = some v →
      ∃ t, readOperand (.mem m) s = .ok v t) ∧
    (∀ m ea u, effectiveAddress m s = .ok ea u → s.bus.peek ea = none →
      ∃ mapper cart, s.bus = .mmc1 mapper cart ∧ cart.romSize ≤ prgOffset mapper cart.romSize ea ∧
        readOperand (.mem m) s =
          .raise (.mapperOffsetOverflow ea (prgOffset mapper cart.romSize ea) s.pc)) ∧
    (∀ o v t, readOperand o s = .ok v t → s.AfterEvents t)

/-- R352, R355: an event is answered by the entries at its address whose mask holds its kind, in list
order, each seeing the state the ones before it left and each able only to set the halt request; so with
one entry the halt request is set exactly when the entry stands at that address, its mask holds the
event's kind, and its callback asks for it. -/
def Obligations.BreakpointAnswersItsEvent : Prop :=
  ∀ (s : State) (k : EventKind) (a : Addr),
    s.event k a = s.answered k a ∧
    ∀ e : Breakpoint, s.bp = [e] →
      s.event k a = s.setHaltReq (s.haltReq || (decide (e.addr = a) &&
        (match k with | .read => e.mask.onRead | .write => e.mask.onWrite | .execute => e.mask.onExecute) &&
        Config.callbackHalts State e.callback k a s))

/-- R352, R353, R354, R61, R63, R64, R344: whatever the breakpoint registry holds, the Read and the Execute
event of an access show the callbacks the state before the read, and the Write event the state with the
byte already stored; the CPU's and the host's accesses are the same; and a host read outside the ROM
answers the fault after its event and changes nothing else (the `pc` that fault records is the model's
choice, log 20, and is left open here). -/
def Obligations.EventsBracketTheirAccess : Prop :=
  ∀ (s : State) (a : Addr) (v : Byte),
    (s.bus.peek a = some v →
      memRead a s = .ok v (s.answered .read a) ∧
      fetchByte a s = .ok v (s.answered .execute a) ∧
      hostReadByte a s = (s.answered .read a, .ok v)) ∧
    (∀ m cart, s.bus = .mmc1 m cart → s.bus.peek a = none → ∃ pc,
      hostReadByte a s = (s.answered .read a,
        .error (.mapperOffsetOverflow a (prgOffset m cart.romSize a) pc))) ∧
    (let stored := s.setBus (s.bus.write a v)
     memWrite a v s = stored.answered .write a ∧ hostWriteByte a v s = memWrite a v s)

/-! ### Whole-machine rules -/

/-- R93, R322, R329: on FlatBus every instruction completes, with the machine still on FlatBus and the run
state, the step count, the breakpoints and the parameters unchanged; and a step of a running machine
without the stuck-PC check is safe exactly when its opcode byte is an implemented one. -/
def Obligations.FlatBusStepsAreSafe : Prop :=
  ∀ (i : Instr) (s : State) (ram : Memory), s.bus = .flat ram →
    (∃ t ram', exec i s = .next t ∧ t.bus = .flat ram' ∧ t.run = s.run ∧ t.steps = s.steps ∧
      t.bp = s.bp ∧ t.params = s.params) ∧
    (s.run = .running → s.params.stuckPcCheck = false →
      (s.StepSafe ↔ Memory.read ram s.pc.toNat ∉ unimplementedBytes))

/-- R322, R329: no instruction is refused, and the only fault an instruction's meaning ends in is
`MapperOffsetOverflow`, for a cartridge address on Mmc1Bus whose ROM offset, in the configuration the
mapper has when the instruction begins, is not below the ROM size; it records the address, that offset
and PC0. -/
def Obligations.InstructionsFaultOnlyByOverflow : Prop :=
  ∀ (i : Instr) (s : State),
    (∀ r, exec i s ≠ .refused r) ∧
    (∀ f, exec i s = .fault f → ∃ m cart a, s.bus = .mmc1 m cart ∧ 0x8000 ≤ a.toNat ∧
      cart.romSize ≤ prgOffset m cart.romSize a ∧
      f = .mapperOffsetOverflow a (prgOffset m cart.romSize a) s.pc)

/-- R20 to R31, R34: the frame of every instruction over registers and flags. A register or flag changes
only in an instruction the spec lists among its writers; the run state, the step count, the
breakpoints and the parameters change in none. -/
def Obligations.RegistersChangeOnlyByTheirWriters : Prop :=
  ∀ (i : Instr) (s t : State), exec i s = .next t →
    (i.mnemonic ∉ [.lda, .pla, .txa, .tya, .adc, .sbc, .and, .ora, .eor] → i.mode ≠ .acc → t.a = s.a) ∧
    (i.mnemonic ∉ [.ldx, .tax, .tsx, .inx, .dex] → t.x = s.x) ∧
    (i.mnemonic ∉ [.ldy, .tay, .iny, .dey] → t.y = s.y) ∧
    (i.mnemonic ∉ [.txs, .pha, .pla, .php, .plp, .jsr, .rts, .rti, .brk] → t.sp = s.sp) ∧
    (i.mnemonic ∉ [.adc, .sbc, .cmp, .cpx, .cpy, .asl, .lsr, .rol, .ror, .clc, .sec, .plp, .rti] →
      t.p.c = s.p.c) ∧
    (i.mnemonic ∉ [.lda, .ldx, .ldy, .tax, .tay, .txa, .tya, .tsx, .pla, .and, .ora, .eor, .adc, .sbc,
        .cmp, .cpx, .cpy, .inc, .dec, .inx, .iny, .dex, .dey, .asl, .lsr, .rol, .ror, .bit, .plp,
        .rti] → t.p.z = s.p.z ∧ t.p.n = s.p.n) ∧
    (i.mnemonic ∉ [.cli, .sei, .brk, .plp, .rti] → t.p.i = s.p.i) ∧
    (i.mnemonic ∉ [.cld, .sed, .plp, .rti] → t.p.d = s.p.d) ∧
    (i.mnemonic ∉ [.adc, .sbc, .bit, .clv, .plp, .rti] → t.p.v = s.p.v) ∧
    t.run = s.run ∧ t.steps = s.steps ∧ t.bp = s.bp ∧ t.params = s.params

/-- R60 to R64, R73, R77, R98: the frame of every instruction over memory. With the addresses an
instruction stores to computed by `storeTargets` from the state before it: if none is a cartridge
address of Mmc1Bus, every address that names none of the stored bytes reads as before; in any case
every address below 0x8000 that names none of them reads as before; and an instruction that stores
nothing leaves the whole bus unchanged. -/
def Obligations.MemoryChangesOnlyAtStoreTargets : Prop :=
  ∀ (i : Instr) (s t : State), exec i s = .next t →
    (storeTargets i s = [] → t.bus = s.bus ∧ ∀ a, t.bus.peek a = s.bus.peek a) ∧
    (∀ a : Addr, (∀ d ∈ storeTargets i s, s.bus.sameByte d a = false) →
      ((∀ d ∈ storeTargets i s, s.bus.isPort d = false) ∨ a.toNat < 0x8000) →
      t.bus.peek a = s.bus.peek a)

/-- R83, R84: the mapper's registers and its shift state change only in an instruction that stores to
0x8000 to 0xFFFF. -/
def Obligations.MapperRegistersChangeOnlyByWindowStores : Prop :=
  ∀ (i : Instr) (s t : State) (m : MapperState) (cart : Cart), s.bus = .mmc1 m cart →
    exec i s = .next t → (∀ d ∈ storeTargets i s, d.toNat < 0x8000) →
    ∃ wram prgRam, t.bus = .mmc1 { m with wram := wram, prgRam := prgRam } cart

/-! ### Loads, stores and transfers -/

/-- R200, R201, R202, R160: LDA, LDX and LDY in every mode they have put the operand's byte in their
register, set Z and N from it, change nothing else, and fault where reading the operand faults. -/
def Obligations.LoadsPutTheOperandInTheRegister : Prop :=
  ∀ (i : Instr) (o : Operand) (s t : State) (v : Byte) (f : Fault), i.operand = some o →
    (i.mnemonic = .lda → (i.mode, i.opcode) ∈ [(Mode.imm, (0xA9 : Byte)), (.zp, 0xA5), (.zpx, 0xB5),
        (.abs, 0xAD), (.absx, 0xBD), (.absy, 0xB9), (.izx, 0xA1), (.izy, 0xB1)] ∧
      (readOperand o s = .ok v t → ExecGives i s { s with
        a := v, p := Flags.ofResult v.toNat s.p, pc := s.pc + BitVec.ofNat 16 i.length }) ∧
      (readOperand o s = .raise f → exec i s = .fault f)) ∧
    (i.mnemonic = .ldx → (i.mode, i.opcode) ∈ [(Mode.imm, (0xA2 : Byte)), (.zp, 0xA6), (.zpy, 0xB6),
        (.abs, 0xAE), (.absy, 0xBE)] ∧
      (readOperand o s = .ok v t → ExecGives i s { s with
        x := v, p := Flags.ofResult v.toNat s.p, pc := s.pc + BitVec.ofNat 16 i.length }) ∧
      (readOperand o s = .raise f → exec i s = .fault f)) ∧
    (i.mnemonic = .ldy → (i.mode, i.opcode) ∈ [(Mode.imm, (0xA0 : Byte)), (.zp, 0xA4), (.zpx, 0xB4),
        (.abs, 0xAC), (.absx, 0xBC)] ∧
      (readOperand o s = .ok v t → ExecGives i s { s with
        y := v, p := Flags.ofResult v.toNat s.p, pc := s.pc + BitVec.ofNat 16 i.length }) ∧
      (readOperand o s = .raise f → exec i s = .fault f))

/-- R203, R204, R205: STA, STX and STY in every mode they have write their register to the effective
address and change no flag and nothing else. The address computation always answers, since the pointers
of STA (zp,X) and STA (zp),Y are in the zero page, so their meaning never faults; an operand byte outside
the ROM is the fault of the step that fetches it. -/
def Obligations.StoresWriteTheRegister : Prop :=
  ∀ (i : Instr) (m : MemOperand) (s : State), i.operand = some (.mem m) →
    ∃ ea t, effectiveAddress m s = .ok ea t ∧
    (i.mnemonic = .sta → (i.mode, i.opcode) ∈ [(Mode.zp, (0x85 : Byte)), (.zpx, 0x95), (.abs, 0x8D),
        (.absx, 0x9D), (.absy, 0x99), (.izx, 0x81), (.izy, 0x91)] ∧
      ExecGives i s { s with
        bus := s.bus.write ea s.a, pc := s.pc + BitVec.ofNat 16 i.length }) ∧
    (i.mnemonic = .stx → (i.mode, i.opcode) ∈ [(Mode.zp, (0x86 : Byte)), (.zpy, 0x96), (.abs, 0x8E)] ∧
      ExecGives i s { s with
        bus := s.bus.write ea s.x, pc := s.pc + BitVec.ofNat 16 i.length }) ∧
    (i.mnemonic = .sty → (i.mode, i.opcode) ∈ [(Mode.zp, (0x84 : Byte)), (.zpx, 0x94), (.abs, 0x8C)] ∧
      ExecGives i s { s with
        bus := s.bus.write ea s.y, pc := s.pc + BitVec.ofNat 16 i.length })

/-- R206 to R211: the register transfers, with Z and N from the value moved, but for TXS, which writes no
flag. -/
def Obligations.TransfersMoveRegisters : Prop :=
  ∀ s : State,
    (Instr.tax.opcode = 0xAA ∧ exec .tax s = .next { s with
      x := s.a, p := Flags.ofResult s.a.toNat s.p, pc := s.pc + 1 }) ∧
    (Instr.tay.opcode = 0xA8 ∧ exec .tay s = .next { s with
      y := s.a, p := Flags.ofResult s.a.toNat s.p, pc := s.pc + 1 }) ∧
    (Instr.txa.opcode = 0x8A ∧ exec .txa s = .next { s with
      a := s.x, p := Flags.ofResult s.x.toNat s.p, pc := s.pc + 1 }) ∧
    (Instr.tya.opcode = 0x98 ∧ exec .tya s = .next { s with
      a := s.y, p := Flags.ofResult s.y.toNat s.p, pc := s.pc + 1 }) ∧
    (Instr.tsx.opcode = 0xBA ∧ exec .tsx s = .next { s with
      x := s.sp, p := Flags.ofResult s.sp.toNat s.p, pc := s.pc + 1 }) ∧
    (Instr.txs.opcode = 0x9A ∧ exec .txs s = .next { s with sp := s.x, pc := s.pc + 1 })

/-! ### Arithmetic, logic and compare -/

/-- R220, R161, R168: ADC in every mode adds A, the operand and the carry: A takes the sum modulo 256, C
whether it exceeds 255, V whether the signed sum leaves −128 to 127, Z and N come from the result; D
changes nothing. -/
def Obligations.AdcAddsWithCarry : Prop :=
  ∀ (i : Instr) (o : Operand) (s t : State) (v : Byte) (f : Fault), i.mnemonic = .adc →
    i.operand = some o →
    (i.mode, i.opcode) ∈ [(Mode.imm, (0x69 : Byte)), (.zp, 0x65), (.zpx, 0x75), (.abs, 0x6D),
      (.absx, 0x7D), (.absy, 0x79), (.izx, 0x61), (.izy, 0x71)] ∧
    (readOperand o s = .raise f → exec i s = .fault f) ∧
    (readOperand o s = .ok v t →
      let sum := s.a.toNat + v.toNat + s.p.c.toNat
      ExecGives i s { s with
        a := BitVec.ofNat 8 sum
        p := Flags.ofResult sum { s.p with
          c := decide (255 < sum)
          v := decide (OutsideSigned8 (s.a.toInt + v.toInt + s.p.c.toNat)) }
        pc := s.pc + BitVec.ofNat 16 i.length })

/-- R221, R162, R168: SBC in every mode subtracts the operand and the borrow 1 − C from A: A takes the
difference modulo 256, C whether it is not negative, V whether the signed difference leaves −128 to
127, Z and N come from the result; D changes nothing. -/
def Obligations.SbcSubtractsWithBorrow : Prop :=
  ∀ (i : Instr) (o : Operand) (s t : State) (v : Byte) (f : Fault), i.mnemonic = .sbc →
    i.operand = some o →
    (i.mode, i.opcode) ∈ [(Mode.imm, (0xE9 : Byte)), (.zp, 0xE5), (.zpx, 0xF5), (.abs, 0xED),
      (.absx, 0xFD), (.absy, 0xF9), (.izx, 0xE1), (.izy, 0xF1)] ∧
    (readOperand o s = .raise f → exec i s = .fault f) ∧
    (readOperand o s = .ok v t →
      let diff : Int := s.a.toNat - v.toNat - (1 - s.p.c.toNat)
      ExecGives i s { s with
        a := BitVec.ofInt 8 diff
        p := Flags.ofResult (diff % 256).toNat { s.p with
          c := decide (0 ≤ diff)
          v := decide (OutsideSigned8 (s.a.toInt - v.toInt - (1 - s.p.c.toNat))) }
        pc := s.pc + BitVec.ofNat 16 i.length })

/-- R221's round trip: for every A, b and carry c, ADC of b with carry c and then SBC of b with carry
1 − c gives A back. -/
def Obligations.SbcUndoesAdc : Prop :=
  ∀ (s t u : State) (b : Byte), exec (.adcImm b) s = .next t →
    exec (.sbcImm b) (t.setP { t.p with c := !s.p.c }) = .next u → u.a = s.a

/-- R222, R223, R224, R166: AND, ORA and EOR in every mode combine A and the operand bit by bit, with Z
and N from the result and no other flag written. -/
def Obligations.LogicCombinesBits : Prop :=
  ∀ (i : Instr) (o : Operand) (s t : State) (v : Byte) (f : Fault), i.operand = some o →
    (i.mnemonic ∈ [.and, .ora, .eor] → readOperand o s = .raise f → exec i s = .fault f) ∧
    (i.mnemonic ∈ [.and, .ora, .eor] → readOperand o s = .ok v t → ∃ r : Byte,
      ExecGives i s { s with
        a := r, p := Flags.ofResult r.toNat s.p, pc := s.pc + BitVec.ofNat 16 i.length } ∧
      ∀ k < 8, r.getLsbD k =
        (if i.mnemonic = .and then s.a.getLsbD k && v.getLsbD k
         else if i.mnemonic = .ora then s.a.getLsbD k || v.getLsbD k
         else s.a.getLsbD k != v.getLsbD k)) ∧
    (i.mnemonic = .and → (i.mode, i.opcode) ∈ [(Mode.imm, (0x29 : Byte)), (.zp, 0x25), (.zpx, 0x35),
      (.abs, 0x2D), (.absx, 0x3D), (.absy, 0x39), (.izx, 0x21), (.izy, 0x31)]) ∧
    (i.mnemonic = .ora → (i.mode, i.opcode) ∈ [(Mode.imm, (0x09 : Byte)), (.zp, 0x05), (.zpx, 0x15),
      (.abs, 0x0D), (.absx, 0x1D), (.absy, 0x19), (.izx, 0x01), (.izy, 0x11)]) ∧
    (i.mnemonic = .eor → (i.mode, i.opcode) ∈ [(Mode.imm, (0x49 : Byte)), (.zp, 0x45), (.zpx, 0x55),
      (.abs, 0x4D), (.absx, 0x5D), (.absy, 0x59), (.izx, 0x41), (.izy, 0x51)])

/-- R225, R226, R227, R163: CMP, CPX and CPY in every mode set C exactly when the register is at or above
the operand, Z when they are equal, N from bit 7 of the difference, and write no register and not V,
whatever the carry was. -/
def Obligations.ComparesSetFlagsOnly : Prop :=
  ∀ (i : Instr) (o : Operand) (s t : State) (v : Byte) (f : Fault), i.operand = some o →
    (i.mnemonic ∈ [.cmp, .cpx, .cpy] → readOperand o s = .raise f → exec i s = .fault f) ∧
    (i.mnemonic ∈ [.cmp, .cpx, .cpy] → readOperand o s = .ok v t →
      let reg := if i.mnemonic = .cmp then s.a else if i.mnemonic = .cpx then s.x else s.y
      ExecGives i s { s with
        p := { s.p with
          c := decide (v.toNat ≤ reg.toNat)
          z := decide (reg = v)
          n := decide (128 ≤ (reg.toNat + (256 - v.toNat)) % 256) }
        pc := s.pc + BitVec.ofNat 16 i.length }) ∧
    (i.mnemonic = .cmp → (i.mode, i.opcode) ∈ [(Mode.imm, (0xC9 : Byte)), (.zp, 0xC5), (.zpx, 0xD5),
      (.abs, 0xCD), (.absx, 0xDD), (.absy, 0xD9), (.izx, 0xC1), (.izy, 0xD1)]) ∧
    (i.mnemonic = .cpx → (i.mode, i.opcode) ∈ [(Mode.imm, (0xE0 : Byte)), (.zp, 0xE4), (.abs, 0xEC)]) ∧
    (i.mnemonic = .cpy → (i.mode, i.opcode) ∈ [(Mode.imm, (0xC0 : Byte)), (.zp, 0xC4), (.abs, 0xCC)])

/-- R228: BIT sets Z when A and the operand share no set bit, N from the operand's bit 7 and V from its
bit 6, and writes nothing else. -/
def Obligations.BitTestsTheOperand : Prop :=
  ∀ (i : Instr) (o : Operand) (s t : State) (v : Byte) (f : Fault), i.mnemonic = .bit →
    i.operand = some o →
    (i.mode, i.opcode) ∈ [(Mode.zp, (0x24 : Byte)), (.abs, 0x2C)] ∧
    (readOperand o s = .raise f → exec i s = .fault f) ∧
    (readOperand o s = .ok v t → ExecGives i s { s with
      p := { s.p with
        z := decide (∀ k : Fin 8, ¬ (s.a.getLsbD k = true ∧ v.getLsbD k = true))
        n := decide (128 ≤ v.toNat)
        v := decide (64 ≤ v.toNat % 128) }
      pc := s.pc + BitVec.ofNat 16 i.length })

/-! ### Increments, decrements, shifts and rotates -/

/-- R240, R241, R165, R172: INC and DEC in every mode replace the byte at the effective address, by one
write, with one more or one less modulo 256, set Z and N from the result, and fault where its read faults. -/
def Obligations.IncDecModifyMemory : Prop :=
  ∀ (i : Instr) (m : MemOperand) (s t u : State) (ea : Addr) (v : Byte) (f : Fault),
    i.operand = some (.mem m) → i.mnemonic ∈ [.inc, .dec] →
    (i.mode, i.opcode) ∈ (if i.mnemonic = .inc
      then [(Mode.zp, (0xE6 : Byte)), (.zpx, 0xF6), (.abs, 0xEE), (.absx, 0xFE)]
      else [(Mode.zp, (0xC6 : Byte)), (.zpx, 0xD6), (.abs, 0xCE), (.absx, 0xDE)]) ∧
    (readOperand (.mem m) s = .raise f → exec i s = .fault f) ∧
    (effectiveAddress m s = .ok ea t → readOperand (.mem m) s = .ok v u →
      let r := if i.mnemonic = .inc then (v.toNat + 1) % 256 else (v.toNat + 255) % 256
      ExecGives i s { s with
        bus := s.bus.write ea (BitVec.ofNat 8 r), p := Flags.ofResult r s.p
        pc := s.pc + BitVec.ofNat 16 i.length })

/-- R242 to R245, R165: INX, INY, DEX and DEY. -/
def Obligations.IndexIncDec : Prop :=
  ∀ s : State,
    (Instr.inx.opcode = 0xE8 ∧ exec .inx s = .next { s with
      x := BitVec.ofNat 8 (s.x.toNat + 1), p := Flags.ofResult (s.x.toNat + 1) s.p, pc := s.pc + 1 }) ∧
    (Instr.iny.opcode = 0xC8 ∧ exec .iny s = .next { s with
      y := BitVec.ofNat 8 (s.y.toNat + 1), p := Flags.ofResult (s.y.toNat + 1) s.p, pc := s.pc + 1 }) ∧
    (Instr.dex.opcode = 0xCA ∧ exec .dex s = .next { s with
      x := BitVec.ofNat 8 (s.x.toNat + 255), p := Flags.ofResult (s.x.toNat + 255) s.p
      pc := s.pc + 1 }) ∧
    (Instr.dey.opcode = 0x88 ∧ exec .dey s = .next { s with
      y := BitVec.ofNat 8 (s.y.toNat + 255), p := Flags.ofResult (s.y.toNat + 255) s.p
      pc := s.pc + 1 })

/-- R246, R248, R250, R252, R164: the accumulator shifts and rotates: A takes the result of
`shiftResult` narrowed to 8 bits, C the bit shifted out, Z and N come from the result, V is unchanged. -/
def Obligations.AccumulatorShifts : Prop :=
  ∀ (i : Instr) (s : State), i.mode = .acc →
    (i.mnemonic, i.opcode) ∈ [(Mnemonic.asl, (0x0A : Byte)), (.lsr, 0x4A), (.rol, 0x2A), (.ror, 0x6A)] ∧
    (let r := shiftResult i.mnemonic s.a s.p.c
     exec i s = .next { s with
       a := BitVec.ofNat 8 r.1, p := Flags.ofResult r.1 { s.p with c := r.2 }, pc := s.pc + 1 })

/-- R247, R249, R251, R253, R164, R172: the memory shifts and rotates in every mode replace the byte at the
effective address, by one write, with the result of `shiftResult` narrowed to 8 bits; C is the bit
shifted out, Z and N come from the result, and they fault where its read faults. -/
def Obligations.MemoryShifts : Prop :=
  ∀ (i : Instr) (m : MemOperand) (s t u : State) (ea : Addr) (v : Byte) (f : Fault),
    i.operand = some (.mem m) → i.mnemonic ∈ [.asl, .lsr, .rol, .ror] →
    (i.mnemonic, i.mode, i.opcode) ∈ [(Mnemonic.asl, Mode.zp, (0x06 : Byte)), (.asl, .zpx, 0x16),
      (.asl, .abs, 0x0E), (.asl, .absx, 0x1E), (.lsr, .zp, 0x46), (.lsr, .zpx, 0x56), (.lsr, .abs, 0x4E),
      (.lsr, .absx, 0x5E), (.rol, .zp, 0x26), (.rol, .zpx, 0x36), (.rol, .abs, 0x2E),
      (.rol, .absx, 0x3E), (.ror, .zp, 0x66), (.ror, .zpx, 0x76), (.ror, .abs, 0x6E),
      (.ror, .absx, 0x7E)] ∧
    (readOperand (.mem m) s = .raise f → exec i s = .fault f) ∧
    (effectiveAddress m s = .ok ea t → readOperand (.mem m) s = .ok v u →
      let r := shiftResult i.mnemonic v s.p.c
      ExecGives i s { s with
        bus := s.bus.write ea (BitVec.ofNat 8 r.1), p := Flags.ofResult r.1 { s.p with c := r.2 }
        pc := s.pc + BitVec.ofNat 16 i.length })

/-! ### Branches, jumps, calls and returns -/

/-- R260 to R267, R173, R144: each branch tests its flag; taken, PC becomes PC0 + 2 plus the signed
offset, else PC0 + 2, modulo 2^16; nothing else changes. -/
def Obligations.BranchesTestTheirFlag : Prop :=
  ∀ (s : State) (b : Byte),
    let landing (taken : Bool) : State :=
      { s with pc := if taken then BitVec.ofInt 16 (s.pc.toNat + 2 + b.toInt) else s.pc + 2 }
    ([Instr.bpl b, .bmi b, .bvc b, .bvs b, .bcc b, .bcs b, .bne b, .beq b].map Instr.opcode =
      [0x10, 0x30, 0x50, 0x70, 0x90, 0xB0, 0xD0, 0xF0]) ∧
    exec (.bpl b) s = .next (landing (!s.p.n)) ∧ exec (.bmi b) s = .next (landing s.p.n) ∧
    exec (.bvc b) s = .next (landing (!s.p.v)) ∧ exec (.bvs b) s = .next (landing s.p.v) ∧
    exec (.bcc b) s = .next (landing (!s.p.c)) ∧ exec (.bcs b) s = .next (landing s.p.c) ∧
    exec (.bne b) s = .next (landing (!s.p.z)) ∧ exec (.beq b) s = .next (landing s.p.z)

/-- R280, R151, R322: JMP absolute loads PC with its operand; JMP indirect with the word at the operand
address, whose high byte is at the 16-bit successor, or ends in `MapperOffsetOverflow` at the first byte
of that word that lies outside the ROM. -/
def Obligations.JmpLoadsPc : Prop :=
  ∀ (s : State) (w : Addr) (n : Nat),
    (Instr.jmpAbs w).opcode = 0x4C ∧ (Instr.jmpInd w).opcode = 0x6C ∧
    exec (.jmpAbs w) s = .next { s with pc := w } ∧
    (s.bus.WordAt w n → ExecGives (.jmpInd w) s { s with pc := BitVec.ofNat 16 n }) ∧
    (∀ m cart a, s.bus = .mmc1 m cart → s.bus.WordFails w a →
      exec (.jmpInd w) s = .fault (.mapperOffsetOverflow a (prgOffset m cart.romSize a) s.pc))

/-- R281, R70: JSR pushes PC0 + 2, high byte first, lowers SP by 2 and loads PC with its operand. -/
def Obligations.JsrPushesTheReturnAddress : Prop :=
  ∀ (s : State) (w : Addr), (Instr.jsr w).opcode = 0x20 ∧
    ExecGives (.jsr w) s { s with
      bus := s.bus.pushed s.sp [BitVec.ofNat 8 ((s.pc.toNat + 2) % 65536 / 256),
        BitVec.ofNat 8 (s.pc.toNat + 2)]
      sp := s.sp - 2, pc := w }

/-- R282, R71: RTS pulls the address above SP, low byte first, raises SP by 2 and loads PC with the
address plus 1. It completes in every state. -/
def Obligations.RtsReturnsPastThePulledAddress : Prop :=
  ∀ s : State, Instr.rts.opcode = 0x60 ∧ ∃ lo hi : Byte,
    s.bus.peek (stackAddr (s.sp + 1)) = some lo ∧ s.bus.peek (stackAddr (s.sp + 2)) = some hi ∧
    ExecGives .rts s { s with
      sp := s.sp + 2, pc := BitVec.ofNat 16 (lo.toNat + 256 * hi.toNat + 1) }

/-- R282's corner case: RTS after JSR restores SP and returns to the byte after the JSR, when memory is
canonical. -/
def Obligations.RtsUndoesJsr : Prop :=
  ∀ (s t : State) (w p : Addr), s.Inv → exec (.jsr w) s = .next t →
    ∃ u, exec .rts (t.setPc p) = .next u ∧ u.pc = s.pc + 3 ∧ u.sp = s.sp

/-- R283, R33: RTI pulls the six flags (bits 5 and 4 discarded), then PC, low byte first, with no plus
one, and raises SP by 3. It completes in every state. -/
def Obligations.RtiRestoresFlagsAndPc : Prop :=
  ∀ s : State, Instr.rti.opcode = 0x40 ∧ ∃ st lo hi : Byte,
    s.bus.peek (stackAddr (s.sp + 1)) = some st ∧ s.bus.peek (stackAddr (s.sp + 2)) = some lo ∧
    s.bus.peek (stackAddr (s.sp + 3)) = some hi ∧
    ExecGives .rti s { s with
      sp := s.sp + 3
      p := { n := st.getLsbD 7, v := st.getLsbD 6, d := st.getLsbD 3, i := st.getLsbD 2,
             z := st.getLsbD 1, c := st.getLsbD 0 }
      pc := BitVec.ofNat 16 (lo.toNat + 256 * hi.toNat) }

/-- R284, R334, R337, R322: BRK pushes PC0 + 2 and the packed status with the interrupt-context mask,
lowers SP by 3, sets I, and loads PC from the IRQ vector as it reads after the pushes, whatever I was; or
it ends in `MapperOffsetOverflow` at the first byte of the vector that then lies outside the ROM. -/
def Obligations.BrkEntersTheIrqHandler : Prop :=
  ∀ (s : State) (n : Nat), Instr.brk.opcode = 0x00 ∧
    let b := s.bus.pushed s.sp (entryBytes (s.pc + 2) s)
    (b.WordAt s.params.vecIrq n →
      ExecGives .brk s { s with
        bus := b, sp := s.sp - 3, p := { s.p with i := true }, pc := BitVec.ofNat 16 n }) ∧
    (∀ m cart a, s.bus = .mmc1 m cart → b.WordFails s.params.vecIrq a →
      exec .brk s = .fault (.mapperOffsetOverflow a (prgOffset m cart.romSize a) s.pc))

/-- R338, R283: RTI after BRK restores every flag, I among them, and SP, and returns to PC0 + 2, when
memory is canonical and the mask touches only bits 5 and 4. -/
def Obligations.RtiUndoesBrk : Prop :=
  ∀ (s t : State) (p : Addr), s.Inv → s.params.WellFormed → exec .brk s = .next t →
    ∃ u, exec .rti (t.setPc p) = .next u ∧ u.p = s.p ∧ u.sp = s.sp ∧ u.pc = s.pc + 2 ∧
      u.a = s.a ∧ u.x = s.x ∧ u.y = s.y

/-! ### Flags and the stack -/

/-- R300 to R306, R311: each flag instruction writes its one flag, and NOP writes nothing but PC. -/
def Obligations.FlagInstructionsAndNop : Prop :=
  ∀ s : State,
    (Instr.clc.opcode = 0x18 ∧ exec .clc s = .next { s with p := { s.p with c := false }, pc := s.pc + 1 }) ∧
    (Instr.sec.opcode = 0x38 ∧ exec .sec s = .next { s with p := { s.p with c := true }, pc := s.pc + 1 }) ∧
    (Instr.cli.opcode = 0x58 ∧ exec .cli s = .next { s with p := { s.p with i := false }, pc := s.pc + 1 }) ∧
    (Instr.sei.opcode = 0x78 ∧ exec .sei s = .next { s with p := { s.p with i := true }, pc := s.pc + 1 }) ∧
    (Instr.clv.opcode = 0xB8 ∧ exec .clv s = .next { s with p := { s.p with v := false }, pc := s.pc + 1 }) ∧
    (Instr.cld.opcode = 0xD8 ∧ exec .cld s = .next { s with p := { s.p with d := false }, pc := s.pc + 1 }) ∧
    (Instr.sed.opcode = 0xF8 ∧ exec .sed s = .next { s with p := { s.p with d := true }, pc := s.pc + 1 }) ∧
    (Instr.nop.opcode = 0xEA ∧ exec .nop s = .next { s with pc := s.pc + 1 })

/-- R307, R308, R68, R69: PHA writes A at `0x0100 | SP` and lowers SP; PLA raises SP, loads A from
`0x0100 | SP` and sets Z and N. Both complete in every state. -/
def Obligations.PhaAndPlaMoveA : Prop :=
  ∀ s : State,
    (Instr.pha.opcode = 0x48 ∧ ExecGives .pha s { s with
      bus := s.bus.write (BitVec.ofNat 16 (256 + s.sp.toNat)) s.a, sp := s.sp - 1, pc := s.pc + 1 }) ∧
    Instr.pla.opcode = 0x68 ∧ ∃ v : Byte,
      s.bus.peek (BitVec.ofNat 16 (256 + (s.sp.toNat + 1) % 256)) = some v ∧
      ExecGives .pla s { s with
        a := v, sp := s.sp + 1, p := Flags.ofResult v.toNat s.p, pc := s.pc + 1 }

/-- R309, R310, R32, R33: PHP pushes N V 1 0 D I Z C ORed with PHP_MASK and changes no flag; PLP loads the
six flags from bits 7, 6, 3, 2, 1, 0 of the pulled byte. Both complete in every state. -/
def Obligations.PhpAndPlpMoveP : Prop :=
  ∀ s : State,
    (Instr.php.opcode = 0x08 ∧ ExecGives .php s { s with
      bus := s.bus.write (BitVec.ofNat 16 (256 + s.sp.toNat))
        (BitVec.ofNat 8 (128 * s.p.n.toNat + 64 * s.p.v.toNat + 32 + 8 * s.p.d.toNat + 4 * s.p.i.toNat +
          2 * s.p.z.toNat + s.p.c.toNat) ||| s.params.phpMask)
      sp := s.sp - 1, pc := s.pc + 1 }) ∧
    Instr.plp.opcode = 0x28 ∧ ∃ st : Byte,
      s.bus.peek (BitVec.ofNat 16 (256 + (s.sp.toNat + 1) % 256)) = some st ∧
      ExecGives .plp s { s with
        sp := s.sp + 1
        p := { n := st.getLsbD 7, v := st.getLsbD 6, d := st.getLsbD 3, i := st.getLsbD 2,
               z := st.getLsbD 1, c := st.getLsbD 0 }
        pc := s.pc + 1 }

/-- R310, R33, R68, R69: a pull after its push restores what was pushed and SP: PLP after PHP every flag,
PLA after PHA the accumulator, when memory is canonical. -/
def Obligations.PullsUndoPushes : Prop :=
  ∀ (s t : State) (q : Flags) (v : Byte), s.Inv → s.params.WellFormed →
    (exec .php s = .next t → ∃ u, exec .plp (t.setP q) = .next u ∧ u.p = s.p ∧ u.sp = s.sp) ∧
    (exec .pha s = .next t → ∃ u, exec .pla (t.setA v) = .next u ∧ u.a = s.a ∧ u.sp = s.sp)

/-- R32, R33: the status byte is N V 1 0 D I Z C from bit 7 down; unpacking takes the flags from bits 7, 6,
3, 2, 1, 0 and discards bits 5 and 4; and `unpack(pack(P) | m)` restores P for every mask m that
touches only bits 5 and 4. -/
def Obligations.UnpackInvertsPack : Prop :=
  ∀ (p : Flags) (m b : Byte),
    (pack p).toNat = 128 * p.n.toNat + 64 * p.v.toNat + 32 + 8 * p.d.toNat + 4 * p.i.toNat +
      2 * p.z.toNat + p.c.toNat ∧
    unpack b = { n := decide (b.toNat / 128 % 2 = 1), v := decide (b.toNat / 64 % 2 = 1)
                 d := decide (b.toNat / 8 % 2 = 1), i := decide (b.toNat / 4 % 2 = 1)
                 z := decide (b.toNat / 2 % 2 = 1), c := decide (b.toNat % 2 = 1) } ∧
    (m &&& 0xCF = 0 → unpack (pack p ||| m) = p)

/-! ### The bus and the mapper -/

/-- R93: on FlatBus a write sets the byte at its address and no other, at every address. -/
def Obligations.FlatBusIsRam : Prop :=
  ∀ (ram : Memory) (a a' : Addr) (v : Byte), (Bus.flat ram).wf = true →
    ((Bus.flat ram).write a v).peek a' = if a' = a then some v else (Bus.flat ram).peek a'

/-- R72, R73, R74, R75: on Mmc1Bus a write below 0x2000 is read back at every address with the same low
11 bits; 0x2000 to 0x5FFF reads 0 and a write there changes nothing; 0x6000 to 0x7FFF is RAM when
cartridge RAM is present, whatever `ramEnable` holds, and open bus when it is not. -/
def Obligations.Mmc1AddressMap : Prop :=
  ∀ (m : MapperState) (cart : Cart) (a a' : Addr) (v : Byte), (Bus.mmc1 m cart).wf = true →
    (a.toNat < 0x2000 → a'.toNat < 0x2000 → a.toNat % 2048 = a'.toNat % 2048 →
      ((Bus.mmc1 m cart).write a v).peek a' = some v) ∧
    (0x2000 ≤ a.toNat → a.toNat < 0x6000 →
      (Bus.mmc1 m cart).write a v = .mmc1 m cart ∧ (Bus.mmc1 m cart).peek a = some 0) ∧
    (0x6000 ≤ a.toNat → a.toNat < 0x8000 → cart.prgRamPresent = true →
      ((Bus.mmc1 m cart).write a v).peek a = some v) ∧
    (0x6000 ≤ a.toNat → a.toNat < 0x8000 → cart.prgRamPresent = false →
      (Bus.mmc1 m cart).write a v = .mmc1 m cart ∧ (Bus.mmc1 m cart).peek a = some 0)

/-- R79: a write to the cartridge window whose bit 7 is 1 clears `shift` and `count` and does nothing
else. -/
def Obligations.ProtocolReset : Prop :=
  ∀ (m : MapperState) (cart : Cart) (a : Addr) (v : Byte), 0x8000 ≤ a.toNat → 128 ≤ v.toNat →
    (Bus.mmc1 m cart).write a v = .mmc1 { m with shift := 0, count := 0 } cart

/-- R80, R81, R82, R83: from an empty accumulator, five writes to the cartridge window with bit 7 clear
put d0 + 2 d1 + 4 d2 + 8 d3 + 16 d4, of their low bits, in the register that the fifth address's
bits 14:13 select, clear `shift` and `count`, and change no other register, no RAM and no ROM. -/
def Obligations.FiveWritesCommit : Prop :=
  ∀ (m : MapperState) (cart : Cart) (a0 a1 a2 a3 a4 : Addr) (v0 v1 v2 v3 v4 : Byte),
    m.shift = 0 → m.count = 0 →
    (∀ a ∈ [a0, a1, a2, a3, a4], 0x8000 ≤ a.toNat) → (∀ v ∈ [v0, v1, v2, v3, v4], v.toNat < 128) →
    let val : BitVec 5 := BitVec.ofNat 5 (v0.toNat % 2 + 2 * (v1.toNat % 2) + 4 * (v2.toNat % 2) +
      8 * (v3.toNat % 2) + 16 * (v4.toNat % 2))
    (((((Bus.mmc1 m cart).write a0 v0).write a1 v1).write a2 v2).write a3 v3).write a4 v4 =
      .mmc1 (if a4.toNat < 0xA000 then { m with control := val }
             else if a4.toNat < 0xC000 then { m with chr0 := val }
             else if a4.toNat < 0xE000 then { m with chr1 := val }
             else { m with prg := val }) cart

/-- R85: the ROM offset of a cartridge address in each PRG mode, from the numbers in `control` and `prg`. -/
def Obligations.PrgOffsetByMode : Prop :=
  ∀ (m : MapperState) (size : Nat) (a : Addr), 0x8000 ≤ a.toNat → 0x4000 ≤ size →
    let mode := m.control.toNat / 4 % 4
    let bank := m.prg.toNat % 16
    prgOffset m size a =
      if mode = 0 ∨ mode = 1 then bank / 2 * 0x8000 + (a.toNat - 0x8000)
      else if mode = 2 then
        (if a.toNat < 0xC000 then a.toNat - 0x8000 else bank * 0x4000 + (a.toNat - 0xC000))
      else
        (if a.toNat < 0xC000 then bank * 0x4000 + (a.toNat - 0x8000)
         else (size - 0x4000) + (a.toNat - 0xC000))

/-- R76, R86, R322, R328: a read of the cartridge window gives the ROM byte at `PrgOffset`, changing at
most the halt request, or raises `MapperOffsetOverflow` with the address, the offset and PC when the
offset is not below the ROM size; and a step whose opcode byte, or an operand byte its mode reads, lies
outside the ROM ends in that fault. -/
def Obligations.CartridgeReads : Prop :=
  ∀ (s : State) (m : MapperState) (cart : Cart) (a : Addr), s.bus = .mmc1 m cart →
    let overflow (at' : Addr) : Fault :=
      .mapperOffsetOverflow at' (prgOffset m cart.romSize at') s.pc
    (0x8000 ≤ a.toNat →
      (prgOffset m cart.romSize a < cart.romSize → ∃ t, s.AfterEvents t ∧
        memRead a s = .ok (Memory.read cart.rom (prgOffset m cart.romSize a)) t) ∧
      (cart.romSize ≤ prgOffset m cart.romSize a → memRead a s = .raise (overflow a))) ∧
    (s.run = .running →
      (s.bus.peek s.pc = none → step s = .fault (overflow s.pc)) ∧
      (∀ op d, s.bus.peek s.pc = some op → descriptorOf op = some d →
        (1 ≤ d.mode.operandReads → s.bus.peek (s.pc + 1) = none →
          step s = .fault (overflow (s.pc + 1))) ∧
        (2 ≤ d.mode.operandReads → s.bus.peek (s.pc + 1) ≠ none → s.bus.peek (s.pc + 2) = none →
          step s = .fault (overflow (s.pc + 2)))))

/-! ### Interrupts and the host port -/

/-- R330, R331, R332, R335, R381, R382, R320, R322: a RESET or NMI of a machine that is not Faulted pushes
PC and the packed status with the interrupt-context mask, lowers SP by 3 and loads PC from its vector as it
reads after the pushes, whatever I holds; I, the other flags, A, X, Y, the run state and the step count
stay. Where a byte of the vector then lies outside the ROM the trigger answers `MapperOffsetOverflow` with
the interrupted PC and the machine is Faulted, the step count as it was. -/
def Obligations.ResetAndNmiDeliver : Prop :=
  ∀ (s : State) (n : Nat), (∀ f, s.run ≠ .faulted f) →
    let b := s.bus.pushed s.sp (entryBytes s.pc s)
    let after : State := { s with bus := b, sp := s.sp - 3, pc := BitVec.ofNat 16 n }
    let faults (r : State × Option Fault) (f : Fault) : Prop :=
      ∃ u, r = (u, some f) ∧ u.run = .faulted f ∧ u.steps = s.steps
    (b.WordAt s.params.vecReset n → ∃ u, triggerReset s = (u, none) ∧ after.AfterEvents u) ∧
    (b.WordAt s.params.vecNmi n → ∃ u, triggerNmi s = (u, none) ∧ after.AfterEvents u) ∧
    (∀ m cart a, s.bus = .mmc1 m cart →
      let f := Fault.mapperOffsetOverflow a (prgOffset m cart.romSize a) s.pc
      (b.WordFails s.params.vecReset a → faults (triggerReset s) f) ∧
      (b.WordFails s.params.vecNmi a → faults (triggerNmi s) f))

/-- R333, R320, R322: an IRQ masked by I changes nothing and is not remembered; with I clear, or with the
masking parameter off, it is delivered through the IRQ vector and does not set I; where a byte of that
vector, as it reads after the pushes, lies outside the ROM, it answers `MapperOffsetOverflow` with the
interrupted PC and the machine is Faulted, the step count as it was. -/
def Obligations.IrqIsMaskedByI : Prop :=
  ∀ (s : State) (n : Nat), (∀ f, s.run ≠ .faulted f) →
    let b := s.bus.pushed s.sp (entryBytes s.pc s)
    (s.params.irqMaskedByI = true → s.p.i = true → triggerIrq s = (s, none)) ∧
    ((s.params.irqMaskedByI = false ∨ s.p.i = false) →
      (b.WordAt s.params.vecIrq n → ∃ u, triggerIrq s = (u, none) ∧ State.AfterEvents
        { s with bus := b, sp := s.sp - 3, pc := BitVec.ofNat 16 n } u) ∧
      (∀ m cart a, s.bus = .mmc1 m cart → b.WordFails s.params.vecIrq a →
        let f := Fault.mapperOffsetOverflow a (prgOffset m cart.romSize a) s.pc
        ∃ u, triggerIrq s = (u, some f) ∧ u.run = .faulted f ∧ u.steps = s.steps))

/-- R320, R323, R326, R51: a step that faults with f leaves the machine Faulted with f, the step counted
for `StuckPC` and not for the two other faults, and the breakpoints, the parameters and the cartridge as
they were. While Faulted with f, the host's step answers f and changes nothing, a run answers f at once,
and the three triggers have no effect. -/
def Obligations.FaultedIsFinal : Prop :=
  ∀ (s : State) (f : Fault) (fuel : Nat),
    ((∀ g, s.run ≠ .faulted g) → step s = .fault f → ∃ t, hostStep s = (t, some f) ∧
      t.run = .faulted f ∧
      t.steps = (match f with
        | .stuckPc _ => s.steps + 1
        | .unimplementedOpcode _ _ | .mapperOffsetOverflow _ _ _ => s.steps) ∧
      t.bp = s.bp ∧ t.params = s.params ∧ t.bus.cart? = s.bus.cart?) ∧
    (s.run = .faulted f →
      step s = .fault f ∧ hostStep s = (s, some f) ∧ hostRun fuel s = .faulted f s ∧
      triggerReset s = (s, none) ∧ triggerNmi s = (s, none) ∧ triggerIrq s = (s, none))

/-- R324, R325, R341, with the run loop's fuel, which is the model's choice (log 17): a pending halt
request stops a run before its first step, clearing the request and changing nothing else but the run
state and the step count; a run that halts ends Halted and one that faults ends Faulted; with a budget of
n no run completes more than n steps, a run of more than n iterations has ended, and without breakpoints
and a halt request a run that halts has completed exactly n. -/
def Obligations.RunStopsAtBoundaries : Prop :=
  ∀ (s t : State) (fuel n : Nat) (f : Fault), (∀ f, s.run ≠ .faulted f) →
    (s.haltReq = true → hostRun (fuel + 1) s =
      .halted { s with haltReq := false, run := .halted, steps := 0 }) ∧
    (hostRun fuel s = .halted t → t.run = .halted) ∧
    (hostRun fuel s = .faulted f t → t.run = .faulted f) ∧
    (s.params.instrBudget = some n →
      (hostRun fuel s = .halted t ∨ hostRun fuel s = .unfinished t → t.steps ≤ n) ∧
      (n < fuel → hostRun fuel s ≠ .unfinished t) ∧
      (s.bp = [] → s.haltReq = false → hostRun fuel s = .halted t → t.steps = n))

/-- R384, R380, R8, R89: a mapper is constructed for a ROM size that is a positive multiple of 0x4000 and
for no other, with the banking fields at their power-on values; and `offset` of a cartridge address
answers its ROM offset while that lies in the image, reports it where it does not, and says of every
other address that it is no ROM. -/
def Obligations.ConstructionAndOffset : Prop :=
  ∀ (cart : Cart) (params : Params) (m : MapperState) (s : State) (a : Addr),
    ((∃ t, construct cart params = .ok t) ↔ 0 < cart.romSize ∧ cart.romSize % 0x4000 = 0) ∧
    (∀ t, construct cart params = .ok t → t.params = params ∧ t.run = .running ∧ t.haltReq = false ∧
      t.steps = 0 ∧ t.bp = [] ∧ ∃ wram prgRam, t.bus = .mmc1
        { shift := 0, count := 0, control := BitVec.ofNat 5 (4 * params.defaultPrgMode.toNat), chr0 := 0
          chr1 := 0, prg := 0, wram := wram, prgRam := prgRam } cart) ∧
    (s.bus = .mmc1 m cart → 0x8000 ≤ a.toNat →
      hostOffset a s = if prgOffset m cart.romSize a < cart.romSize
        then .rom (prgOffset m cart.romSize a) else .overflow (prgOffset m cart.romSize a)) ∧
    (s.bus = .mmc1 m cart → a.toNat < 0x8000 → ∃ off, hostOffset a s = .notRom off)

/-- R351: registering a breakpoint with a non-empty mask puts exactly one entry of that name at that
address where there was at most one, and leaves the entries at every other address as they were, in
their order; an empty mask is refused (93_implementation_defined.md I16). -/
def Obligations.RegisterBreakpoint : Prop :=
  ∀ (s : State) (mask : EventMask) (name : String) (a : Addr) (cb : Nat),
    (mask = ⟨false, false, false⟩ → registerBreakpoint mask name a cb s = .error .emptyEventMask) ∧
    (mask ≠ ⟨false, false, false⟩ → ∃ t, registerBreakpoint mask name a cb s = .ok t ∧
      t = s.setBp t.bp ∧
      (∀ a', a' ≠ a → t.bp.filter (fun e => e.addr = a') = s.bp.filter (fun e => e.addr = a')) ∧
      ((∀ e ∈ s.bp, ¬ (e.addr = a ∧ e.name = name)) → t.bp = s.bp ++ [⟨a, name, mask, cb⟩]) ∧
      (∀ l r e, s.bp = l ++ e :: r → (∀ x ∈ l, ¬ (x.addr = a ∧ x.name = name)) →
        e.addr = a → e.name = name → t.bp = l ++ ⟨a, name, mask, cb⟩ :: r))

/-- R38, R90, R91, R92: setting the CPU's state writes every register and flag and nothing else, so that a
CPU snapshot is read back whole; setting the mapper's or the flat array's state writes all of it, leaves
the ROM and changes nothing else; setting either to what was read from it changes nothing; and `ClearRam`
makes every RAM byte 0 and changes nothing else. That a mapper without cartridge RAM still has, snapshots
and restores the field `prgRam` is the model's choice (log 21). -/
def Obligations.SnapshotsAndClearRam : Prop :=
  ∀ (s : State) (c : CpuState),
    setCpuState (getCpuState s) s = s ∧ setBusState (getBusState s) s = .ok s ∧
    getCpuState (setCpuState c s) = c ∧ (setCpuState c s).bus = s.bus ∧
    (setCpuState c s).run = s.run ∧ (setCpuState c s).haltReq = s.haltReq ∧
    (setCpuState c s).steps = s.steps ∧ (setCpuState c s).bp = s.bp ∧
    (setCpuState c s).params = s.params ∧
    (∀ m m' cart, s.bus = .mmc1 m cart → ∃ t, setBusState (.mmc1 m') s = .ok t ∧
      t = { s with bus := .mmc1 m' cart } ∧ getBusState t = .mmc1 m') ∧
    (∀ ram ram', s.bus = .flat ram → ∃ t, setBusState (.flat ram') s = .ok t ∧
      t = { s with bus := .flat ram' } ∧ getBusState t = .flat ram') ∧
    clearRam s = { s with bus := (clearRam s).bus } ∧
    (∀ m cart a, s.bus = .mmc1 m cart → a.toNat < 0x8000 →
      (clearRam s).bus.peek a = some 0 ∧
      ∃ wram prgRam, (clearRam s).bus = .mmc1 { m with wram := wram, prgRam := prgRam } cart) ∧
    (∀ ram a, s.bus = .flat ram → (clearRam s).bus.peek a = some 0 ∧ (clearRam s).bus.cart? = none)

/-- R380, R331: the power-on values the spec states, and that `State.reset` is what the host's `reset()`
leaves of the power-on state. The values the spec leaves unspecified (A, X, Y, SP, PC, the flags, the
RAM bytes, the ROM image) are the model's choice, logs 1 to 5. -/
def Obligations.ResetLeavesThePowerOnValues : Prop :=
  triggerReset State.powerOn = (State.reset, none) ∧
  State.powerOn.run = .running ∧ State.powerOn.haltReq = false ∧ State.powerOn.steps = 0 ∧
  State.powerOn.bp = [] ∧
  (∃ wram prgRam cart, State.powerOn.bus = .mmc1
    { shift := 0, count := 0, control := 0x0C, chr0 := 0, chr1 := 0, prg := 0,
      wram := wram, prgRam := prgRam } cart) ∧
  State.powerOn.params.vecNmi = 0xFFFA ∧ State.powerOn.params.vecReset = 0xFFFC ∧
  State.powerOn.params.vecIrq = 0xFFFE

/-! ### Invariants -/

/-- R39, R40, R45, R46, R49: the invariant holds at reset: every memory is canonical within its size, the
cartridge is legal, and `shift` holds no bit at or above the position `count`. -/
def Obligations.InvariantAtReset : Prop := State.reset.Inv

/-- R39, R40, R45, R46, R49: every step keeps the invariant, from every state that has it. -/
def Obligations.StepKeepsTheInvariant : Prop :=
  ∀ s t : State, s.Inv → step s = .next t → t.Inv

/-- R51, R77, R50: no step changes the parameters, the cartridge (its ROM image among them), the bus
variant or the breakpoint registry. -/
def Obligations.StepChangesNoParameter : Prop :=
  ∀ s t : State, step s = .next t →
    t.params = s.params ∧ t.bus.cart? = s.bus.cart? ∧ t.bp = s.bp ∧ t.run = .running ∧
      t.steps = s.steps + 1
end

