-- ==== Sys2Proof/Laws/Memory.lean ====
section
/-! SUPPORT. The laws of sparse memory: read after write, and that a write keeps the canonical form. -/

namespace Sys2Proof.Memory

@[simp] theorem read_nil (a : Nat) : Memory.read [] a = 0#8 := rfl

/-- A write leaves every other index alone, whatever the list. -/
theorem read_write_other {a a' : Nat} (h : a ≠ a') (m : Memory) (v : Byte) :
    Memory.read (Memory.write m a v) a' = Memory.read m a' := by
  induction m with
  | nil => by_cases hv : v = 0#8 <;> simp [Memory.write, Memory.read, hv, h]
  | cons c m ih =>
    obtain ⟨k, w⟩ := c
    by_cases hv : v = 0#8 <;> simp only [Memory.write, hv, if_true, if_false] <;>
      split <;> (try split) <;> simp_all [Memory.read]

/-- Every index a canonical tail lists is at or above its lower bound. -/
theorem read_of_wfFrom_lt {lo size a : Nat} {m : Memory} (h : Memory.wfFrom lo size m = true)
    (ha : a < lo) : Memory.read m a = 0#8 := by
  induction m generalizing lo with
  | nil => rfl
  | cons c m ih =>
    obtain ⟨k, w⟩ := c
    simp only [Memory.wfFrom, Bool.and_eq_true, decide_eq_true_eq] at h
    have hk : k ≠ a := by omega
    simpa [Memory.read, hk] using ih h.2 (by omega)

/-- Read after write at the same index, in a canonical memory. -/
theorem read_write_same {lo size : Nat} {m : Memory} (h : Memory.wfFrom lo size m = true) (a : Nat)
    (v : Byte) : Memory.read (Memory.write m a v) a = v := by
  induction m generalizing lo with
  | nil => by_cases hv : v = 0#8 <;> simp [Memory.write, Memory.read, hv]
  | cons c m ih =>
    obtain ⟨k, w⟩ := c
    simp only [Memory.wfFrom, Bool.and_eq_true, decide_eq_true_eq] at h
    have htail : ∀ b, b ≤ k → Memory.read m b = 0#8 := fun b hb => read_of_wfFrom_lt h.2 (by omega)
    by_cases hlt : a < k
    · by_cases hv : v = 0#8
      · simp [Memory.write, hlt, hv, Memory.read, show k ≠ a by omega, htail a (by omega)]
      · simp [Memory.write, hlt, hv, Memory.read]
    · by_cases hak : a = k
      · by_cases hv : v = 0#8 <;> simp [Memory.write, hv, hak, Memory.read, htail]
      · simpa [Memory.write, hlt, hak, Memory.read, Ne.symm hak] using ih h.2

theorem wfFrom_weaken {lo lo' size : Nat} {m : Memory} (hle : lo' ≤ lo)
    (h : Memory.wfFrom lo size m = true) : Memory.wfFrom lo' size m = true := by
  cases m with
  | nil => rfl
  | cons c m =>
    obtain ⟨k, w⟩ := c
    simp only [Memory.wfFrom, Bool.and_eq_true, decide_eq_true_eq] at h ⊢
    exact ⟨⟨⟨by omega, h.1.1.2⟩, h.1.2⟩, h.2⟩

theorem write_wfFrom {lo size a : Nat} {m : Memory} (v : Byte) (hlo : lo ≤ a) (ha : a < size)
    (h : Memory.wfFrom lo size m = true) : Memory.wfFrom lo size (Memory.write m a v) = true := by
  induction m generalizing lo with
  | nil => by_cases hv : v = 0#8 <;> simp [Memory.write, Memory.wfFrom, hv, hlo, ha]
  | cons c m ih =>
    obtain ⟨k, w⟩ := c
    have h0 := h
    simp only [Memory.wfFrom, Bool.and_eq_true, decide_eq_true_eq] at h
    obtain ⟨⟨⟨h1, h2⟩, h3⟩, h4⟩ := h
    by_cases hlt : a < k
    · by_cases hv : v = 0#8
      · simpa [Memory.write, hlt, hv] using h0
      · simp only [Memory.write, hlt, hv, if_true, if_false, Memory.wfFrom, Bool.and_eq_true,
          decide_eq_true_eq]
        exact ⟨⟨⟨hlo, ha⟩, by simpa using hv⟩, ⟨⟨by omega, h2⟩, h3⟩, h4⟩
    · by_cases hak : a = k
      · by_cases hv : v = 0#8
        · simpa [Memory.write, hak, hv] using wfFrom_weaken (by omega) h4
        · subst hak
          simp only [Memory.write, hlt, hv, if_true, if_false, Memory.wfFrom, Bool.and_eq_true,
            decide_eq_true_eq]
          exact ⟨⟨⟨hlo, ha⟩, by simpa using hv⟩, h4⟩
      · simp only [Memory.write, hlt, hak, if_false, Memory.wfFrom, Bool.and_eq_true,
          decide_eq_true_eq]
        exact ⟨⟨⟨h1, h2⟩, h3⟩, ih (by omega) h4⟩

/-- A write within the size keeps the canonical form. -/
theorem write_wf {size a : Nat} {m : Memory} (v : Byte) (ha : a < size)
    (h : Memory.wf size m = true) : Memory.wf size (Memory.write m a v) = true :=
  write_wfFrom v (Nat.zero_le a) ha h

end Sys2Proof.Memory
end

