-- ==== Sys2Proof/Laws/Bus.lean ====
section
/-! SUPPORT. The laws of the bus: what a write keeps, and what a read after it gives. -/

namespace Sys2Proof.Machine

theorem wramIndex_lt (a : Addr) : wramIndex a < Config.wramSize :=
  Nat.mod_lt _ (by decide)

/-- A commit writes one of the four registers and nothing else. -/
theorem commit_cases (m : MapperState) (a : Addr) (val : BitVec 5) :
    m.commit a val = { m with control := val } ∨ m.commit a val = { m with chr0 := val } ∨
    m.commit a val = { m with chr1 := val } ∨ m.commit a val = { m with prg := val } := by
  unfold MapperState.commit
  split <;> simp

/-- What `ShiftWrite` can do: reset the protocol, commit, or accumulate one bit. -/
theorem shiftWrite_cases (m : MapperState) (a : Addr) (v : Byte) :
    (v.getLsbD 7 = true ∧ m.shiftWrite a v = { m with shift := 0, count := 0 }) ∨
    (v.getLsbD 7 = false ∧ m.count = 4 ∧
      m.shiftWrite a v = { m.commit a (m.accumulate v) with shift := 0, count := 0 }) ∨
    (v.getLsbD 7 = false ∧ m.count ≠ 4 ∧
      m.shiftWrite a v = { m with shift := m.accumulate v, count := m.count + 1 }) := by
  unfold MapperState.shiftWrite
  split
  · simp [*]
  · split <;> simp_all

/-- The RAMs are no part of the shift-register protocol. -/
theorem shiftWrite_ram (m : MapperState) (a : Addr) (v : Byte) :
    (m.shiftWrite a v).wram = m.wram ∧ (m.shiftWrite a v).prgRam = m.prgRam := by
  rcases shiftWrite_cases m a v with ⟨_, h⟩ | ⟨_, _, h⟩ | ⟨_, _, h⟩ <;> rw [h] <;> simp
  rcases commit_cases m a (m.accumulate v) with h | h | h | h <;> rw [h] <;> simp

/-- The accumulator holds only bits below the position after the one written. -/
theorem accumulate_lt (m : MapperState) (v : Byte) (h : m.shift.toNat < 2 ^ m.count.val)
    (hc : m.count ≠ 4) : (m.accumulate v).toNat < 2 ^ (m.count + 1).val := by
  obtain ⟨shift, count, control, chr0, chr1, prg, wram, prgRam⟩ := m
  simp only at h hc
  simp only [MapperState.accumulate]
  generalize v.getLsbD 0 = b
  have hs := shift.isLt
  obtain ⟨n, hn⟩ := count
  have : n = 0 ∨ n = 1 ∨ n = 2 ∨ n = 3 := by
    have : n ≠ 4 := fun h4 => hc (by ext; simpa using h4)
    omega
  have key : ∀ (k : Fin 4) (sh : BitVec 5) (b : Bool), sh.toNat < 2 ^ k.val →
      (sh ||| (BitVec.ofBool b).setWidth 5 <<< k.val).toNat < 2 ^ (k.val + 1) := by decide
  rcases this with rfl | rfl | rfl | rfl
  · exact key 0 shift b h
  · exact key 1 shift b h
  · exact key 2 shift b h
  · exact key 3 shift b h

/-- `ShiftWrite` keeps the mapper's data canonical. -/
theorem shiftWrite_wf {m : MapperState} (a : Addr) (v : Byte) (h : m.wf = true) :
    (m.shiftWrite a v).wf = true := by
  have hr := shiftWrite_ram m a v
  simp only [MapperState.wf, hr.1, hr.2, Bool.and_eq_true, decide_eq_true_eq] at h ⊢
  refine ⟨h.1, ?_⟩
  rcases shiftWrite_cases m a v with ⟨_, e⟩ | ⟨_, _, e⟩ | ⟨_, hc, e⟩ <;> rw [e]
  · simp
  · simp
  · exact accumulate_lt m v h.2 hc

/-- A bus write keeps everything canonical. -/
theorem Bus.write_wf {b : Bus} (a : Addr) (v : Byte) (h : b.wf = true) : (b.write a v).wf = true := by
  cases b with
  | flat ram => exact Memory.write_wf v a.isLt h
  | mmc1 m cart =>
    simp only [Bus.wf, Bool.and_eq_true] at h
    simp only [Bus.write]
    split
    · have h' := h.1
      simp only [MapperState.wf, Bool.and_eq_true] at h'
      simp only [Bus.wf, MapperState.wf, Bool.and_eq_true]
      exact ⟨⟨⟨Memory.write_wf v (wramIndex_lt a) h'.1.1, h'.1.2⟩, h'.2⟩, h.2⟩
    split
    · simpa [Bus.wf] using h
    split
    · split
      · rename_i h2 h3 _
        have h' := h.1
        simp only [MapperState.wf, Bool.and_eq_true] at h'
        simp only [Bus.wf, MapperState.wf, Bool.and_eq_true]
        refine ⟨⟨⟨h'.1.1, Memory.write_wf v ?_ h'.1.2⟩, h'.2⟩, h.2⟩
        simp only [Config.prgRamStart, Config.cartStart, Config.prgRamSize] at *
        omega
      · simpa [Bus.wf] using h
    · simp only [Bus.wf, Bool.and_eq_true]
      exact ⟨shiftWrite_wf a v h.1, h.2⟩

/-- A bus write changes no cartridge and no bus variant (R51, R77). -/
@[simp] theorem Bus.write_cart? (b : Bus) (a : Addr) (v : Byte) : (b.write a v).cart? = b.cart? := by
  cases b with
  | flat ram => rfl
  | mmc1 m cart =>
    simp only [Bus.write]
    split <;> (try split) <;> (try split) <;> (try split) <;> rfl

/-- Outside the cartridge window a write changes no byte but the one it names. -/
theorem Bus.read_write_other {b : Bus} {a a' : Addr} (v : Byte) (hp : b.isPort a = false)
    (hs : b.sameByte a a' = false) : (b.write a v).read a' = b.read a' := by
  cases b with
  | flat ram =>
    have : a.toNat ≠ a'.toNat := by
      intro e
      have := BitVec.eq_of_toNat_eq e
      simp_all [Bus.sameByte]
    simp [Bus.read, Bus.write, Memory.read_write_other this]
  | mmc1 m cart =>
    simp only [Bus.isPort, decide_eq_false_iff_not] at hp
    simp only [Bus.sameByte, Bool.or_eq_false_iff, beq_eq_false_iff_ne, ne_eq] at hs
    have hne : a.toNat ≠ a'.toNat := fun e => hs.1 (BitVec.eq_of_toNat_eq e)
    simp only [Bus.write]
    split
    · rename_i h1
      by_cases h2 : a'.toNat < Config.openBusStart
      · have : wramIndex a ≠ wramIndex a' := by
          intro e
          simp [h1, h2, e] at hs
        simp [Bus.read, h2, Memory.read_write_other this]
      · simp only [Bus.read, h2, if_false]
        rfl
    split
    · rfl
    split
    · rename_i h1 h2 h3
      split
      · by_cases h5 : a'.toNat < Config.prgRamStart
        · simp [Bus.read, h5]
        · have : a.toNat - Config.prgRamStart ≠ a'.toNat - Config.prgRamStart := by omega
          simp only [Bus.read, Memory.read_write_other this]
          rfl
      · rfl
    · omega

/-- The same, through the read of one byte that claims speak of. -/
theorem Bus.peek_write_other {b : Bus} {a a' : Addr} (v : Byte) (hp : b.isPort a = false)
    (hs : b.sameByte a a' = false) : (b.write a v).peek a' = b.peek a' := by
  simp only [Bus.peek, Bus.read_write_other v hp hs]

/-- A write to the cartridge window changes no byte below it. -/
theorem Bus.peek_write_port {b : Bus} {a a' : Addr} (v : Byte) (hp : b.isPort a = true)
    (ha : a'.toNat < Config.cartStart) : (b.write a v).peek a' = b.peek a' := by
  cases b with
  | flat ram => simp [Bus.isPort] at hp
  | mmc1 m cart =>
    simp only [Bus.isPort, decide_eq_true_eq] at hp
    have h1 : ¬ a.toNat < Config.openBusStart := by
      simp only [Config.cartStart, Config.openBusStart] at *; omega
    have h2 : ¬ a.toNat < Config.prgRamStart := by
      simp only [Config.cartStart, Config.prgRamStart] at *; omega
    have h3 : ¬ a.toNat < Config.cartStart := by omega
    simp only [Bus.write, h1, h2, h3, if_false, Bus.peek, Bus.read, ha, if_true,
      (shiftWrite_ram m a v).1, (shiftWrite_ram m a v).2]

/-- A read after a write to RAM gives the byte written, at every address of the same byte. -/
theorem Bus.peek_write_same {b : Bus} {a a' : Addr} (v : Byte) (hw : b.wf = true)
    (hs : b.sameByte a a' = true) (hp : b.isPort a = false) :
    (∃ m cart, b = .mmc1 m cart ∧ Config.openBusStart ≤ a.toNat ∧
      (a.toNat < Config.prgRamStart ∨ cart.prgRamPresent = false)) ∨
    (b.write a v).peek a' = some v := by
  cases b with
  | flat ram =>
    have : a = a' := by simpa [Bus.sameByte] using hs
    subst this
    right
    simp [Bus.peek, Bus.read, Bus.write, Memory.read_write_same (lo := 0) hw]
  | mmc1 m cart =>
    simp only [Bus.isPort, decide_eq_false_iff_not] at hp
    simp only [Bus.wf, MapperState.wf, Bool.and_eq_true] at hw
    simp only [Bus.sameByte, Bool.or_eq_true, Bool.and_eq_true, beq_iff_eq, decide_eq_true_eq] at hs
    by_cases h1 : a.toNat < Config.openBusStart
    · right
      have h1' : a'.toNat < Config.openBusStart := by rcases hs with rfl | h <;> [exact h1; exact h.1.2]
      have hi : wramIndex a = wramIndex a' := by rcases hs with rfl | h <;> [rfl; exact h.2]
      simp [Bus.peek, Bus.read, Bus.write, h1, h1', ← hi, Memory.read_write_same (lo := 0) hw.1.1.1]
    · have : a = a' := by rcases hs with rfl | h <;> [rfl; exact absurd h.1.1 h1]
      subst this
      by_cases h2 : a.toNat < Config.prgRamStart
      · exact .inl ⟨m, cart, rfl, by omega, .inl h2⟩
      · by_cases hpr : cart.prgRamPresent
        · right
          have h3 : a.toNat < Config.cartStart := by omega
          simp [Bus.peek, Bus.read, Bus.write, h1, h2, h3, hpr,
            Memory.read_write_same (lo := 0) hw.1.1.2]
        · exact .inl ⟨m, cart, rfl, by omega, .inr (by simpa using hpr)⟩

/-- A byte is unreadable only in the cartridge window of the mapper bus, where its ROM offset is
outside the image (R86). -/
theorem Bus.read_error {b : Bus} {a : Addr} {off : Nat} (h : b.read a = .error off) :
    ∃ m cart, b = .mmc1 m cart ∧ Config.cartStart ≤ a.toNat ∧ off = prgOffset m cart.romSize a ∧
      cart.romSize ≤ off := by
  cases b with
  | flat ram => simp [Bus.read] at h
  | mmc1 m cart =>
    simp only [Bus.read] at h
    split at h
    · simp at h
    split at h
    · simp at h
    split at h
    · split at h <;> simp at h
    · rename_i h3
      split at h
      · simp at h
      · simp only [Except.error.injEq] at h
        exact ⟨m, cart, rfl, by omega, h.symm, by omega⟩

/-- A byte that cannot be read is in the cartridge window, its offset outside the image (R86). -/
theorem Bus.peek_eq_none {b : Bus} {a : Addr} (h : b.peek a = none) :
    ∃ m cart, b = .mmc1 m cart ∧ Config.cartStart ≤ a.toNat ∧ cart.romSize ≤ prgOffset m cart.romSize a ∧
      b.read a = .error (prgOffset m cart.romSize a) := by
  unfold Bus.peek at h
  split at h
  · simp at h
  · rename_i off hr
    obtain ⟨m, cart, rfl, h1, rfl, h2⟩ := Bus.read_error hr
    exact ⟨m, cart, rfl, h1, h2, hr⟩

/-- A store below the cartridge window changes the mapper's RAMs at most (R83). -/
theorem Bus.write_below {m : MapperState} {cart : Cart} {a : Addr} (v : Byte)
    (h : a.toNat < Config.cartStart) : ∃ wram prgRam,
      (Bus.mmc1 m cart).write a v = .mmc1 { m with wram := wram, prgRam := prgRam } cart := by
  simp only [Bus.write, h, if_true]
  repeat' split
  all_goals exact ⟨_, _, rfl⟩

/-- Below the cartridge window every byte is readable. -/
theorem Bus.read_below {b : Bus} {a : Addr} (h : a.toNat < Config.cartStart) : ∃ v, b.read a = .ok v := by
  cases hr : b.read a with
  | ok v => exact ⟨v, rfl⟩
  | error off =>
    obtain ⟨_, _, _, hc, _⟩ := Bus.read_error hr
    omega

end Sys2Proof.Machine
end

