-- ==== Sys2Proof/Laws/Decode.lean ====
section
/-! SUPPORT. The descriptor table and the encoder agree, entry by entry. -/

namespace Sys2Proof

/-- The operand bytes an instruction of a mode is encoded with: the signature byte of BRK is 0. -/
def operandBytes (m : Mode) (lo hi : Byte) : List Byte :=
  match m.length with
  | 1 => []
  | 2 => [if m = .brk then 0 else lo]
  | _ => [lo, hi]

/-- A descriptor makes the instruction whose encoding is its opcode byte and the operand bytes. -/
def Descriptor.Agrees (d : Descriptor) : Prop :=
  ∀ lo hi, encode (d.build lo hi) = d.opcode :: operandBytes d.mode lo hi

theorem agrees_loadStore : ∀ d ∈ descriptorsLoadStore, d.Agrees := by
  unfold descriptorsLoadStore
  repeat' first
    | exact List.forall_mem_nil _
    | refine List.forall_mem_append.2 ⟨?_, ?_⟩
    | refine List.forall_mem_cons.2 ⟨fun lo hi => ?_, ?_⟩
  all_goals first
    | rfl
    | (simp only [encode, lowByte_wordOf, highByte_wordOf]; rfl)

theorem agrees_arithLogic : ∀ d ∈ descriptorsArithLogic, d.Agrees := by
  unfold descriptorsArithLogic
  repeat' first
    | exact List.forall_mem_nil _
    | refine List.forall_mem_append.2 ⟨?_, ?_⟩
    | refine List.forall_mem_cons.2 ⟨fun lo hi => ?_, ?_⟩
  all_goals first
    | rfl
    | (simp only [encode, lowByte_wordOf, highByte_wordOf]; rfl)

theorem agrees_incDecShift : ∀ d ∈ descriptorsIncDecShift, d.Agrees := by
  unfold descriptorsIncDecShift
  repeat' first
    | exact List.forall_mem_nil _
    | refine List.forall_mem_append.2 ⟨?_, ?_⟩
    | refine List.forall_mem_cons.2 ⟨fun lo hi => ?_, ?_⟩
  all_goals first
    | rfl
    | (simp only [encode, lowByte_wordOf, highByte_wordOf]; rfl)

theorem agrees_control : ∀ d ∈ descriptorsBranch ++ descriptorsControl ++ descriptorsFlagsStack,
    d.Agrees := by
  unfold descriptorsBranch descriptorsControl descriptorsFlagsStack
  repeat' first
    | exact List.forall_mem_nil _
    | refine List.forall_mem_append.2 ⟨?_, ?_⟩
    | refine List.forall_mem_cons.2 ⟨fun lo hi => ?_, ?_⟩
  all_goals first
    | rfl
    | (simp only [encode, lowByte_wordOf, highByte_wordOf]; rfl)

/-- Every descriptor of the table agrees with the encoder. -/
theorem descriptors_agree : ∀ d ∈ descriptors, d.Agrees := by
  intro d hd
  have h := agrees_control d
  simp only [descriptors, List.mem_append] at hd h
  rcases hd with ((((h1 | h1) | h1) | h1) | h1) | h1
  · exact agrees_loadStore d h1
  · exact agrees_arithLogic d h1
  · exact agrees_incDecShift d h1
  · exact h (.inl (.inl h1))
  · exact h (.inl (.inr h1))
  · exact h (.inr h1)

/-- A descriptor of the pseudo-mode BRK makes BRK whatever its operand bytes (R122). -/
theorem descriptors_brk : ∀ d ∈ descriptors, d.mode = .brk → ∀ lo hi, d.build lo hi = .brk := by
  unfold descriptors descriptorsLoadStore descriptorsArithLogic descriptorsIncDecShift descriptorsBranch
    descriptorsControl descriptorsFlagsStack
  repeat' first
    | exact List.forall_mem_nil _
    | refine List.forall_mem_append.2 ⟨?_, ?_⟩
    | refine List.forall_mem_cons.2 ⟨fun hm lo hi => ?_, ?_⟩
  all_goals cases hm <;> rfl

/-- What `descriptorOf` answers is an entry of the table for that byte. -/
theorem descriptorOf_some {op : Byte} {d : Descriptor} (h : descriptorOf op = some d) :
    d ∈ descriptors ∧ d.opcode = op :=
  ⟨List.mem_of_find?_eq_some h, by simpa using List.find?_some h⟩

end Sys2Proof
end

