-- ==== Sys2Proof/Laws/State.lean ====
section
/-! SUPPORT. One lemma per field per register update, so that no later proof unfolds a record update. -/

namespace Sys2Proof.Machine.State

@[simp] theorem setA_a (s : State) (v : Byte) : (s.setA v).a = v := rfl
@[simp] theorem setA_x (s : State) (v : Byte) : (s.setA v).x = s.x := rfl
@[simp] theorem setA_y (s : State) (v : Byte) : (s.setA v).y = s.y := rfl
@[simp] theorem setA_sp (s : State) (v : Byte) : (s.setA v).sp = s.sp := rfl
@[simp] theorem setA_pc (s : State) (v : Byte) : (s.setA v).pc = s.pc := rfl
@[simp] theorem setA_p (s : State) (v : Byte) : (s.setA v).p = s.p := rfl
@[simp] theorem setA_run (s : State) (v : Byte) : (s.setA v).run = s.run := rfl
@[simp] theorem setA_haltReq (s : State) (v : Byte) : (s.setA v).haltReq = s.haltReq := rfl
@[simp] theorem setA_steps (s : State) (v : Byte) : (s.setA v).steps = s.steps := rfl
@[simp] theorem setA_bus (s : State) (v : Byte) : (s.setA v).bus = s.bus := rfl
@[simp] theorem setA_bp (s : State) (v : Byte) : (s.setA v).bp = s.bp := rfl
@[simp] theorem setA_params (s : State) (v : Byte) : (s.setA v).params = s.params := rfl

@[simp] theorem setX_a (s : State) (v : Byte) : (s.setX v).a = s.a := rfl
@[simp] theorem setX_x (s : State) (v : Byte) : (s.setX v).x = v := rfl
@[simp] theorem setX_y (s : State) (v : Byte) : (s.setX v).y = s.y := rfl
@[simp] theorem setX_sp (s : State) (v : Byte) : (s.setX v).sp = s.sp := rfl
@[simp] theorem setX_pc (s : State) (v : Byte) : (s.setX v).pc = s.pc := rfl
@[simp] theorem setX_p (s : State) (v : Byte) : (s.setX v).p = s.p := rfl
@[simp] theorem setX_run (s : State) (v : Byte) : (s.setX v).run = s.run := rfl
@[simp] theorem setX_haltReq (s : State) (v : Byte) : (s.setX v).haltReq = s.haltReq := rfl
@[simp] theorem setX_steps (s : State) (v : Byte) : (s.setX v).steps = s.steps := rfl
@[simp] theorem setX_bus (s : State) (v : Byte) : (s.setX v).bus = s.bus := rfl
@[simp] theorem setX_bp (s : State) (v : Byte) : (s.setX v).bp = s.bp := rfl
@[simp] theorem setX_params (s : State) (v : Byte) : (s.setX v).params = s.params := rfl

@[simp] theorem setY_a (s : State) (v : Byte) : (s.setY v).a = s.a := rfl
@[simp] theorem setY_x (s : State) (v : Byte) : (s.setY v).x = s.x := rfl
@[simp] theorem setY_y (s : State) (v : Byte) : (s.setY v).y = v := rfl
@[simp] theorem setY_sp (s : State) (v : Byte) : (s.setY v).sp = s.sp := rfl
@[simp] theorem setY_pc (s : State) (v : Byte) : (s.setY v).pc = s.pc := rfl
@[simp] theorem setY_p (s : State) (v : Byte) : (s.setY v).p = s.p := rfl
@[simp] theorem setY_run (s : State) (v : Byte) : (s.setY v).run = s.run := rfl
@[simp] theorem setY_haltReq (s : State) (v : Byte) : (s.setY v).haltReq = s.haltReq := rfl
@[simp] theorem setY_steps (s : State) (v : Byte) : (s.setY v).steps = s.steps := rfl
@[simp] theorem setY_bus (s : State) (v : Byte) : (s.setY v).bus = s.bus := rfl
@[simp] theorem setY_bp (s : State) (v : Byte) : (s.setY v).bp = s.bp := rfl
@[simp] theorem setY_params (s : State) (v : Byte) : (s.setY v).params = s.params := rfl

@[simp] theorem setSp_a (s : State) (v : Byte) : (s.setSp v).a = s.a := rfl
@[simp] theorem setSp_x (s : State) (v : Byte) : (s.setSp v).x = s.x := rfl
@[simp] theorem setSp_y (s : State) (v : Byte) : (s.setSp v).y = s.y := rfl
@[simp] theorem setSp_sp (s : State) (v : Byte) : (s.setSp v).sp = v := rfl
@[simp] theorem setSp_pc (s : State) (v : Byte) : (s.setSp v).pc = s.pc := rfl
@[simp] theorem setSp_p (s : State) (v : Byte) : (s.setSp v).p = s.p := rfl
@[simp] theorem setSp_run (s : State) (v : Byte) : (s.setSp v).run = s.run := rfl
@[simp] theorem setSp_haltReq (s : State) (v : Byte) : (s.setSp v).haltReq = s.haltReq := rfl
@[simp] theorem setSp_steps (s : State) (v : Byte) : (s.setSp v).steps = s.steps := rfl
@[simp] theorem setSp_bus (s : State) (v : Byte) : (s.setSp v).bus = s.bus := rfl
@[simp] theorem setSp_bp (s : State) (v : Byte) : (s.setSp v).bp = s.bp := rfl
@[simp] theorem setSp_params (s : State) (v : Byte) : (s.setSp v).params = s.params := rfl

@[simp] theorem setPc_a (s : State) (v : Addr) : (s.setPc v).a = s.a := rfl
@[simp] theorem setPc_x (s : State) (v : Addr) : (s.setPc v).x = s.x := rfl
@[simp] theorem setPc_y (s : State) (v : Addr) : (s.setPc v).y = s.y := rfl
@[simp] theorem setPc_sp (s : State) (v : Addr) : (s.setPc v).sp = s.sp := rfl
@[simp] theorem setPc_pc (s : State) (v : Addr) : (s.setPc v).pc = v := rfl
@[simp] theorem setPc_p (s : State) (v : Addr) : (s.setPc v).p = s.p := rfl
@[simp] theorem setPc_run (s : State) (v : Addr) : (s.setPc v).run = s.run := rfl
@[simp] theorem setPc_haltReq (s : State) (v : Addr) : (s.setPc v).haltReq = s.haltReq := rfl
@[simp] theorem setPc_steps (s : State) (v : Addr) : (s.setPc v).steps = s.steps := rfl
@[simp] theorem setPc_bus (s : State) (v : Addr) : (s.setPc v).bus = s.bus := rfl
@[simp] theorem setPc_bp (s : State) (v : Addr) : (s.setPc v).bp = s.bp := rfl
@[simp] theorem setPc_params (s : State) (v : Addr) : (s.setPc v).params = s.params := rfl

@[simp] theorem setP_a (s : State) (v : Flags) : (s.setP v).a = s.a := rfl
@[simp] theorem setP_x (s : State) (v : Flags) : (s.setP v).x = s.x := rfl
@[simp] theorem setP_y (s : State) (v : Flags) : (s.setP v).y = s.y := rfl
@[simp] theorem setP_sp (s : State) (v : Flags) : (s.setP v).sp = s.sp := rfl
@[simp] theorem setP_pc (s : State) (v : Flags) : (s.setP v).pc = s.pc := rfl
@[simp] theorem setP_p (s : State) (v : Flags) : (s.setP v).p = v := rfl
@[simp] theorem setP_run (s : State) (v : Flags) : (s.setP v).run = s.run := rfl
@[simp] theorem setP_haltReq (s : State) (v : Flags) : (s.setP v).haltReq = s.haltReq := rfl
@[simp] theorem setP_steps (s : State) (v : Flags) : (s.setP v).steps = s.steps := rfl
@[simp] theorem setP_bus (s : State) (v : Flags) : (s.setP v).bus = s.bus := rfl
@[simp] theorem setP_bp (s : State) (v : Flags) : (s.setP v).bp = s.bp := rfl
@[simp] theorem setP_params (s : State) (v : Flags) : (s.setP v).params = s.params := rfl

@[simp] theorem setRun_a (s : State) (v : RunState) : (s.setRun v).a = s.a := rfl
@[simp] theorem setRun_x (s : State) (v : RunState) : (s.setRun v).x = s.x := rfl
@[simp] theorem setRun_y (s : State) (v : RunState) : (s.setRun v).y = s.y := rfl
@[simp] theorem setRun_sp (s : State) (v : RunState) : (s.setRun v).sp = s.sp := rfl
@[simp] theorem setRun_pc (s : State) (v : RunState) : (s.setRun v).pc = s.pc := rfl
@[simp] theorem setRun_p (s : State) (v : RunState) : (s.setRun v).p = s.p := rfl
@[simp] theorem setRun_run (s : State) (v : RunState) : (s.setRun v).run = v := rfl
@[simp] theorem setRun_haltReq (s : State) (v : RunState) : (s.setRun v).haltReq = s.haltReq := rfl
@[simp] theorem setRun_steps (s : State) (v : RunState) : (s.setRun v).steps = s.steps := rfl
@[simp] theorem setRun_bus (s : State) (v : RunState) : (s.setRun v).bus = s.bus := rfl
@[simp] theorem setRun_bp (s : State) (v : RunState) : (s.setRun v).bp = s.bp := rfl
@[simp] theorem setRun_params (s : State) (v : RunState) : (s.setRun v).params = s.params := rfl

@[simp] theorem setHaltReq_a (s : State) (v : Bool) : (s.setHaltReq v).a = s.a := rfl
@[simp] theorem setHaltReq_x (s : State) (v : Bool) : (s.setHaltReq v).x = s.x := rfl
@[simp] theorem setHaltReq_y (s : State) (v : Bool) : (s.setHaltReq v).y = s.y := rfl
@[simp] theorem setHaltReq_sp (s : State) (v : Bool) : (s.setHaltReq v).sp = s.sp := rfl
@[simp] theorem setHaltReq_pc (s : State) (v : Bool) : (s.setHaltReq v).pc = s.pc := rfl
@[simp] theorem setHaltReq_p (s : State) (v : Bool) : (s.setHaltReq v).p = s.p := rfl
@[simp] theorem setHaltReq_run (s : State) (v : Bool) : (s.setHaltReq v).run = s.run := rfl
@[simp] theorem setHaltReq_haltReq (s : State) (v : Bool) : (s.setHaltReq v).haltReq = v := rfl
@[simp] theorem setHaltReq_steps (s : State) (v : Bool) : (s.setHaltReq v).steps = s.steps := rfl
@[simp] theorem setHaltReq_bus (s : State) (v : Bool) : (s.setHaltReq v).bus = s.bus := rfl
@[simp] theorem setHaltReq_bp (s : State) (v : Bool) : (s.setHaltReq v).bp = s.bp := rfl
@[simp] theorem setHaltReq_params (s : State) (v : Bool) : (s.setHaltReq v).params = s.params := rfl

@[simp] theorem setSteps_a (s : State) (v : Nat) : (s.setSteps v).a = s.a := rfl
@[simp] theorem setSteps_x (s : State) (v : Nat) : (s.setSteps v).x = s.x := rfl
@[simp] theorem setSteps_y (s : State) (v : Nat) : (s.setSteps v).y = s.y := rfl
@[simp] theorem setSteps_sp (s : State) (v : Nat) : (s.setSteps v).sp = s.sp := rfl
@[simp] theorem setSteps_pc (s : State) (v : Nat) : (s.setSteps v).pc = s.pc := rfl
@[simp] theorem setSteps_p (s : State) (v : Nat) : (s.setSteps v).p = s.p := rfl
@[simp] theorem setSteps_run (s : State) (v : Nat) : (s.setSteps v).run = s.run := rfl
@[simp] theorem setSteps_haltReq (s : State) (v : Nat) : (s.setSteps v).haltReq = s.haltReq := rfl
@[simp] theorem setSteps_steps (s : State) (v : Nat) : (s.setSteps v).steps = v := rfl
@[simp] theorem setSteps_bus (s : State) (v : Nat) : (s.setSteps v).bus = s.bus := rfl
@[simp] theorem setSteps_bp (s : State) (v : Nat) : (s.setSteps v).bp = s.bp := rfl
@[simp] theorem setSteps_params (s : State) (v : Nat) : (s.setSteps v).params = s.params := rfl

@[simp] theorem setBus_a (s : State) (v : Bus) : (s.setBus v).a = s.a := rfl
@[simp] theorem setBus_x (s : State) (v : Bus) : (s.setBus v).x = s.x := rfl
@[simp] theorem setBus_y (s : State) (v : Bus) : (s.setBus v).y = s.y := rfl
@[simp] theorem setBus_sp (s : State) (v : Bus) : (s.setBus v).sp = s.sp := rfl
@[simp] theorem setBus_pc (s : State) (v : Bus) : (s.setBus v).pc = s.pc := rfl
@[simp] theorem setBus_p (s : State) (v : Bus) : (s.setBus v).p = s.p := rfl
@[simp] theorem setBus_run (s : State) (v : Bus) : (s.setBus v).run = s.run := rfl
@[simp] theorem setBus_haltReq (s : State) (v : Bus) : (s.setBus v).haltReq = s.haltReq := rfl
@[simp] theorem setBus_steps (s : State) (v : Bus) : (s.setBus v).steps = s.steps := rfl
@[simp] theorem setBus_bus (s : State) (v : Bus) : (s.setBus v).bus = v := rfl
@[simp] theorem setBus_bp (s : State) (v : Bus) : (s.setBus v).bp = s.bp := rfl
@[simp] theorem setBus_params (s : State) (v : Bus) : (s.setBus v).params = s.params := rfl

@[simp] theorem setBp_a (s : State) (v : List Breakpoint) : (s.setBp v).a = s.a := rfl
@[simp] theorem setBp_x (s : State) (v : List Breakpoint) : (s.setBp v).x = s.x := rfl
@[simp] theorem setBp_y (s : State) (v : List Breakpoint) : (s.setBp v).y = s.y := rfl
@[simp] theorem setBp_sp (s : State) (v : List Breakpoint) : (s.setBp v).sp = s.sp := rfl
@[simp] theorem setBp_pc (s : State) (v : List Breakpoint) : (s.setBp v).pc = s.pc := rfl
@[simp] theorem setBp_p (s : State) (v : List Breakpoint) : (s.setBp v).p = s.p := rfl
@[simp] theorem setBp_run (s : State) (v : List Breakpoint) : (s.setBp v).run = s.run := rfl
@[simp] theorem setBp_haltReq (s : State) (v : List Breakpoint) : (s.setBp v).haltReq = s.haltReq := rfl
@[simp] theorem setBp_steps (s : State) (v : List Breakpoint) : (s.setBp v).steps = s.steps := rfl
@[simp] theorem setBp_bus (s : State) (v : List Breakpoint) : (s.setBp v).bus = s.bus := rfl
@[simp] theorem setBp_bp (s : State) (v : List Breakpoint) : (s.setBp v).bp = v := rfl
@[simp] theorem setBp_params (s : State) (v : List Breakpoint) : (s.setBp v).params = s.params := rfl

/-- Writing back what a field holds changes nothing. -/
@[simp] theorem setHaltReq_self (s : State) : s.setHaltReq s.haltReq = s := rfl

@[simp] theorem setHaltReq_setHaltReq (s : State) (v w : Bool) :
    (s.setHaltReq v).setHaltReq w = s.setHaltReq w := rfl

end Sys2Proof.Machine.State
end

