-- ==== Sys2Proof/Laws/Ops.lean ====
section
/-! SUPPORT. What each shared operation can do, said once: an event changes only `haltReq`, a read
answers the bus's byte, a write changes the bus, a push and a pull also move SP, and the interrupt
entry and return are made of those. -/

namespace Sys2Proof.Machine

/-! ### Events -/

theorem answer_eq (k : EventKind) (a : Addr) (s : State) (e : Breakpoint) :
    State.answer k a s e = s.setHaltReq (State.answer k a s e).haltReq := by
  unfold State.answer
  split <;> rfl

/-- Only the halt request may change in an event (R355). -/
theorem event_eq (s : State) (k : EventKind) (a : Addr) :
    s.event k a = s.setHaltReq (s.event k a).haltReq := by
  unfold State.event
  generalize s.bp = l
  induction l generalizing s with
  | nil => rfl
  | cons e l ih =>
    rw [List.foldl_cons, ih, answer_eq k a s e]
    rfl

/-- With no breakpoint an event changes nothing. -/
theorem event_of_no_bp {s : State} (h : s.bp = []) (k : EventKind) (a : Addr) : s.event k a = s := by
  simp [State.event, h]

/-- A callback can set the halt request and never clear it (R355). -/
theorem event_haltReq_mono {s : State} (h : s.haltReq = true) (k : EventKind) (a : Addr) :
    (s.event k a).haltReq = true := by
  unfold State.event
  generalize s.bp = l
  induction l generalizing s with
  | nil => exact h
  | cons e l ih =>
    rw [List.foldl_cons]
    apply ih
    unfold State.answer
    split <;> simp [h]

@[simp] theorem event_a (s : State) (k : EventKind) (a : Addr) : (s.event k a).a = s.a := by
  rw [event_eq]; rfl

@[simp] theorem event_x (s : State) (k : EventKind) (a : Addr) : (s.event k a).x = s.x := by
  rw [event_eq]; rfl

@[simp] theorem event_y (s : State) (k : EventKind) (a : Addr) : (s.event k a).y = s.y := by
  rw [event_eq]; rfl

@[simp] theorem event_sp (s : State) (k : EventKind) (a : Addr) : (s.event k a).sp = s.sp := by
  rw [event_eq]; rfl

@[simp] theorem event_pc (s : State) (k : EventKind) (a : Addr) : (s.event k a).pc = s.pc := by
  rw [event_eq]; rfl

@[simp] theorem event_p (s : State) (k : EventKind) (a : Addr) : (s.event k a).p = s.p := by
  rw [event_eq]; rfl

@[simp] theorem event_run (s : State) (k : EventKind) (a : Addr) : (s.event k a).run = s.run := by
  rw [event_eq]; rfl

@[simp] theorem event_steps (s : State) (k : EventKind) (a : Addr) : (s.event k a).steps = s.steps := by
  rw [event_eq]; rfl

@[simp] theorem event_bus (s : State) (k : EventKind) (a : Addr) : (s.event k a).bus = s.bus := by
  rw [event_eq]; rfl

@[simp] theorem event_bp (s : State) (k : EventKind) (a : Addr) : (s.event k a).bp = s.bp := by
  rw [event_eq]; rfl

@[simp] theorem event_params (s : State) (k : EventKind) (a : Addr) : (s.event k a).params = s.params := by
  rw [event_eq]; rfl

/-! ### After some events -/

theorem State.AfterEvents.refl (s : State) : s.AfterEvents s := ⟨s.haltReq, rfl, fun _ => rfl, id⟩

theorem State.AfterEvents.trans {s t u : State} (h : s.AfterEvents t) (h' : t.AfterEvents u) :
    s.AfterEvents u := by
  obtain ⟨b, rfl, h1, h2⟩ := h
  obtain ⟨b', rfl, h3, h4⟩ := h'
  exact ⟨b', rfl, fun e => (h3 e).trans (h1 e), fun e => h4 (h2 e)⟩

theorem event_after (s : State) (k : EventKind) (a : Addr) : s.AfterEvents (s.event k a) :=
  ⟨_, event_eq s k a, fun h => by rw [event_of_no_bp h], fun h => event_haltReq_mono h k a⟩

theorem State.AfterEvents.a_eq {s t : State} (h : s.AfterEvents t) : t.a = s.a := by
  obtain ⟨_, rfl, _⟩ := h
  rfl

theorem State.AfterEvents.x_eq {s t : State} (h : s.AfterEvents t) : t.x = s.x := by
  obtain ⟨_, rfl, _⟩ := h
  rfl

theorem State.AfterEvents.y_eq {s t : State} (h : s.AfterEvents t) : t.y = s.y := by
  obtain ⟨_, rfl, _⟩ := h
  rfl

theorem State.AfterEvents.sp_eq {s t : State} (h : s.AfterEvents t) : t.sp = s.sp := by
  obtain ⟨_, rfl, _⟩ := h
  rfl

theorem State.AfterEvents.pc_eq {s t : State} (h : s.AfterEvents t) : t.pc = s.pc := by
  obtain ⟨_, rfl, _⟩ := h
  rfl

theorem State.AfterEvents.p_eq {s t : State} (h : s.AfterEvents t) : t.p = s.p := by
  obtain ⟨_, rfl, _⟩ := h
  rfl

theorem State.AfterEvents.run_eq {s t : State} (h : s.AfterEvents t) : t.run = s.run := by
  obtain ⟨_, rfl, _⟩ := h
  rfl

theorem State.AfterEvents.steps_eq {s t : State} (h : s.AfterEvents t) : t.steps = s.steps := by
  obtain ⟨_, rfl, _⟩ := h
  rfl

theorem State.AfterEvents.bus_eq {s t : State} (h : s.AfterEvents t) : t.bus = s.bus := by
  obtain ⟨_, rfl, _⟩ := h
  rfl

theorem State.AfterEvents.bp_eq {s t : State} (h : s.AfterEvents t) : t.bp = s.bp := by
  obtain ⟨_, rfl, _⟩ := h
  rfl

theorem State.AfterEvents.params_eq {s t : State} (h : s.AfterEvents t) : t.params = s.params := by
  obtain ⟨_, rfl, _⟩ := h
  rfl

theorem State.AfterEvents.eq_of_no_bp {s t : State} (h : s.AfterEvents t) (hb : s.bp = []) : t = s := by
  obtain ⟨b, rfl, h1, _⟩ := h
  rw [h1 hb]
  rfl

/-- A write of the stack pointer after some events is the events after the write; and so for the other
registers. -/
theorem State.AfterEvents.setSp {s t : State} (h : s.AfterEvents t) (v : Byte) :
    (s.setSp v).AfterEvents (t.setSp v) := by
  obtain ⟨b, rfl, h1, h2⟩ := h
  exact ⟨b, rfl, h1, h2⟩

theorem State.AfterEvents.setA {s t : State} (h : s.AfterEvents t) (v : Byte) :
    (s.setA v).AfterEvents (t.setA v) := by
  obtain ⟨b, rfl, h1, h2⟩ := h
  exact ⟨b, rfl, h1, h2⟩

theorem State.AfterEvents.setX {s t : State} (h : s.AfterEvents t) (v : Byte) :
    (s.setX v).AfterEvents (t.setX v) := by
  obtain ⟨b, rfl, h1, h2⟩ := h
  exact ⟨b, rfl, h1, h2⟩

theorem State.AfterEvents.setY {s t : State} (h : s.AfterEvents t) (v : Byte) :
    (s.setY v).AfterEvents (t.setY v) := by
  obtain ⟨b, rfl, h1, h2⟩ := h
  exact ⟨b, rfl, h1, h2⟩

theorem State.AfterEvents.setPc {s t : State} (h : s.AfterEvents t) (v : Addr) :
    (s.setPc v).AfterEvents (t.setPc v) := by
  obtain ⟨b, rfl, h1, h2⟩ := h
  exact ⟨b, rfl, h1, h2⟩

theorem State.AfterEvents.setP {s t : State} (h : s.AfterEvents t) (v : Flags) :
    (s.setP v).AfterEvents (t.setP v) := by
  obtain ⟨b, rfl, h1, h2⟩ := h
  exact ⟨b, rfl, h1, h2⟩

theorem State.AfterEvents.setBus {s t : State} (h : s.AfterEvents t) (v : Bus) :
    (s.setBus v).AfterEvents (t.setBus v) := by
  obtain ⟨b, rfl, h1, h2⟩ := h
  exact ⟨b, rfl, h1, h2⟩

theorem State.AfterEvents.setSteps {s t : State} (h : s.AfterEvents t) (v : Nat) :
    (s.setSteps v).AfterEvents (t.setSteps v) := by
  obtain ⟨b, rfl, h1, h2⟩ := h
  exact ⟨b, rfl, h1, h2⟩

theorem State.AfterEvents.setRun {s t : State} (h : s.AfterEvents t) (v : RunState) :
    (s.setRun v).AfterEvents (t.setRun v) := by
  obtain ⟨b, rfl, h1, h2⟩ := h
  exact ⟨b, rfl, h1, h2⟩

/-! ### Results -/

@[simp] theorem Res.bind_ok {α β : Type} (v : α) (s : State) (k : α → State → Res β) :
    (Res.ok v s).bind k = k v s := rfl

@[simp] theorem Res.bind_raise {α β : Type} (f : Fault) (k : α → State → Res β) :
    (Res.raise f : Res α).bind k = .raise f := rfl

/-- A sequence answers exactly when both of its parts do. -/
theorem Res.bind_eq_ok {α β : Type} {r : Res α} {k : α → State → Res β} {w : β} {t : State} :
    r.bind k = .ok w t ↔ ∃ v u, r = .ok v u ∧ k v u = .ok w t := by
  cases r <;> simp

/-- A sequence faults in its first part or, after it, in its second (R328). -/
theorem Res.bind_eq_raise {α β : Type} {r : Res α} {k : α → State → Res β} {f : Fault} :
    r.bind k = .raise f ↔ r = .raise f ∨ ∃ v u, r = .ok v u ∧ k v u = .raise f := by
  cases r <;> simp

/-! ### Reads -/

/-- A read that answers: the bus's byte, and only the event happened. -/
theorem busAccess_ok {k : EventKind} {a : Addr} {s t : State} {v : Byte}
    (h : busAccess k a s = .ok v t) : t = s.event k a ∧ s.bus.read a = .ok v := by
  simp only [busAccess, event_bus] at h
  split at h <;> simp_all

/-- A read that faults: the ROM offset lies outside the image (R322). -/
theorem busAccess_raise {k : EventKind} {a : Addr} {s : State} {f : Fault}
    (h : busAccess k a s = .raise f) :
    ∃ off, s.bus.read a = .error off ∧ f = .mapperOffsetOverflow a off s.pc := by
  simp only [busAccess, event_bus, event_pc] at h
  split at h <;> simp_all

/-- A read of a readable byte. -/
theorem busAccess_of_read {a : Addr} {s : State} {v : Byte} (k : EventKind)
    (h : s.bus.read a = .ok v) : busAccess k a s = .ok v (s.event k a) := by
  simp [busAccess, h]

theorem peek_eq_some {b : Bus} {a : Addr} {v : Byte} : b.peek a = some v ↔ b.read a = .ok v := by
  unfold Bus.peek
  split <;> simp_all

/-- A read that answers changes what its event changes. -/
theorem busAccess_after {k : EventKind} {a : Addr} {s t : State} {v : Byte}
    (h : busAccess k a s = .ok v t) : s.AfterEvents t := by
  rw [(busAccess_ok h).1]
  exact event_after s k a

theorem memRead_after {a : Addr} {s t : State} {v : Byte} (h : memRead a s = .ok v t) :
    s.AfterEvents t := busAccess_after h

/-- A word read is two byte reads, the low byte first (R62). -/
theorem memReadWord_ok {a w : Addr} {s t : State} (h : memReadWord a s = .ok w t) :
    ∃ lo hi, s.bus.read a = .ok lo ∧ s.bus.read (a + 1) = .ok hi ∧ w = wordOf lo hi ∧
      s.AfterEvents t := by
  simp only [memReadWord, Res.bind_eq_ok] at h
  obtain ⟨lo, t1, h1, hi, t2, h2, h3⟩ := h
  simp only [Res.ok.injEq] at h3
  have e1 := busAccess_ok h1
  have e2 := busAccess_ok h2
  refine ⟨lo, hi, e1.2, ?_, h3.1.symm, ?_⟩
  · have := e2.2
    rw [e1.1] at this
    simpa using this
  · rw [← h3.2]
    exact (busAccess_after h1).trans (busAccess_after h2)

/-- Reads of a word answer where both bytes are readable. -/
theorem memReadWord_of_read {a : Addr} {s : State} {lo hi : Byte} (h1 : s.bus.read a = .ok lo)
    (h2 : s.bus.read (a + 1) = .ok hi) : ∃ t, memReadWord a s = .ok (wordOf lo hi) t := by
  refine ⟨(s.event .read a).event .read (a + 1), ?_⟩
  rw [memReadWord, memRead, busAccess_of_read _ h1, Res.bind_ok, memRead,
    busAccess_of_read (s := s.event .read a) .read (by simpa using h2), Res.bind_ok]

/-- A word read that faults does so on one of its bytes. -/
theorem memReadWord_raise {a : Addr} {s : State} {f : Fault} (h : memReadWord a s = .raise f) :
    ∃ a' off, s.bus.read a' = .error off ∧ f = .mapperOffsetOverflow a' off s.pc := by
  simp only [memReadWord, Res.bind_eq_raise] at h
  rcases h with h | ⟨lo, t, h1, h | ⟨_, _, _, h⟩⟩
  · obtain ⟨off, h⟩ := busAccess_raise h
    exact ⟨a, off, h⟩
  · obtain ⟨off, h2⟩ := busAccess_raise h
    rw [(busAccess_ok h1).1] at h2
    exact ⟨a + 1, off, by simpa using h2⟩
  · simp at h

/-- A word read faults on the first of its bytes that lies outside the ROM (R62, R322, R328). -/
theorem memReadWord_of_fails {m : MapperState} {cart : Cart} {a a' : Addr} {s : State}
    (hb : s.bus = .mmc1 m cart) (h : s.bus.WordFails a a') :
    memReadWord a s = .raise (.mapperOffsetOverflow a' (prgOffset m cart.romSize a') s.pc) := by
  have key : ∀ x, s.bus.peek x = none → s.bus.read x = .error (prgOffset m cart.romSize x) := by
    intro x hx
    obtain ⟨m', cart', h1, _, _, h2⟩ := Bus.peek_eq_none hx
    rw [hb] at h1
    injection h1 with h1 h3
    rw [h2, h1, h3]
  rcases h with ⟨h, rfl⟩ | ⟨h, h', rfl⟩
  · simp [memReadWord, memRead, busAccess, key _ h]
  · obtain ⟨v, hv⟩ := Option.ne_none_iff_exists'.1 h
    rw [memReadWord, memRead, busAccess_of_read _ (peek_eq_some.1 hv), Res.bind_ok, memRead, busAccess,
      event_bus, event_bus, key _ h']
    simp

/-! ### Writes and the stack -/

@[simp] theorem memWrite_a (a : Addr) (v : Byte) (s : State) : (memWrite a v s).a = s.a := by
  simp [memWrite]

@[simp] theorem memWrite_x (a : Addr) (v : Byte) (s : State) : (memWrite a v s).x = s.x := by
  simp [memWrite]

@[simp] theorem memWrite_y (a : Addr) (v : Byte) (s : State) : (memWrite a v s).y = s.y := by
  simp [memWrite]

@[simp] theorem memWrite_sp (a : Addr) (v : Byte) (s : State) : (memWrite a v s).sp = s.sp := by
  simp [memWrite]

@[simp] theorem memWrite_pc (a : Addr) (v : Byte) (s : State) : (memWrite a v s).pc = s.pc := by
  simp [memWrite]

@[simp] theorem memWrite_p (a : Addr) (v : Byte) (s : State) : (memWrite a v s).p = s.p := by
  simp [memWrite]

@[simp] theorem memWrite_run (a : Addr) (v : Byte) (s : State) : (memWrite a v s).run = s.run := by
  simp [memWrite]

@[simp] theorem memWrite_steps (a : Addr) (v : Byte) (s : State) : (memWrite a v s).steps = s.steps := by
  simp [memWrite]

@[simp] theorem memWrite_bus (a : Addr) (v : Byte) (s : State) : (memWrite a v s).bus = s.bus.write a v := by
  simp [memWrite]

@[simp] theorem memWrite_bp (a : Addr) (v : Byte) (s : State) : (memWrite a v s).bp = s.bp := by
  simp [memWrite]

@[simp] theorem memWrite_params (a : Addr) (v : Byte) (s : State) : (memWrite a v s).params = s.params := by
  simp [memWrite]

@[simp] theorem push_a (v : Byte) (s : State) : (push v s).a = s.a := by
  simp [push]

@[simp] theorem push_x (v : Byte) (s : State) : (push v s).x = s.x := by
  simp [push]

@[simp] theorem push_y (v : Byte) (s : State) : (push v s).y = s.y := by
  simp [push]

@[simp] theorem push_sp (v : Byte) (s : State) : (push v s).sp = s.sp - 1 := by
  simp [push]

@[simp] theorem push_pc (v : Byte) (s : State) : (push v s).pc = s.pc := by
  simp [push]

@[simp] theorem push_p (v : Byte) (s : State) : (push v s).p = s.p := by
  simp [push]

@[simp] theorem push_run (v : Byte) (s : State) : (push v s).run = s.run := by
  simp [push]

@[simp] theorem push_steps (v : Byte) (s : State) : (push v s).steps = s.steps := by
  simp [push]

@[simp] theorem push_bus (v : Byte) (s : State) : (push v s).bus = s.bus.write (stackAddr s.sp) v := by
  simp [push]

@[simp] theorem push_bp (v : Byte) (s : State) : (push v s).bp = s.bp := by
  simp [push]

@[simp] theorem push_params (v : Byte) (s : State) : (push v s).params = s.params := by
  simp [push]

@[simp] theorem pushAddr_a (w : Addr) (s : State) :
    (pushAddr w s).a = s.a := by
  simp [pushAddr]

@[simp] theorem pushAddr_x (w : Addr) (s : State) :
    (pushAddr w s).x = s.x := by
  simp [pushAddr]

@[simp] theorem pushAddr_y (w : Addr) (s : State) :
    (pushAddr w s).y = s.y := by
  simp [pushAddr]

@[simp] theorem pushAddr_sp (w : Addr) (s : State) :
    (pushAddr w s).sp = s.sp - 1 - 1 := by
  simp [pushAddr]

@[simp] theorem pushAddr_pc (w : Addr) (s : State) :
    (pushAddr w s).pc = s.pc := by
  simp [pushAddr]

@[simp] theorem pushAddr_p (w : Addr) (s : State) :
    (pushAddr w s).p = s.p := by
  simp [pushAddr]

@[simp] theorem pushAddr_run (w : Addr) (s : State) :
    (pushAddr w s).run = s.run := by
  simp [pushAddr]

@[simp] theorem pushAddr_steps (w : Addr) (s : State) :
    (pushAddr w s).steps = s.steps := by
  simp [pushAddr]

@[simp] theorem pushAddr_bus (w : Addr) (s : State) :
    (pushAddr w s).bus = (s.bus.write (stackAddr s.sp) (highByte w)).write (stackAddr (s.sp - 1)) (lowByte w) := by
  simp [pushAddr]

@[simp] theorem pushAddr_bp (w : Addr) (s : State) :
    (pushAddr w s).bp = s.bp := by
  simp [pushAddr]

@[simp] theorem pushAddr_params (w : Addr) (s : State) :
    (pushAddr w s).params = s.params := by
  simp [pushAddr]

/-- A store changes the bus and, by its event, perhaps the halt request. -/
theorem memWrite_after (a : Addr) (v : Byte) (s : State) :
    (s.setBus (s.bus.write a v)).AfterEvents (memWrite a v s) := event_after _ _ _

/-- A push changes the bus, SP and perhaps the halt request. -/
theorem push_after (v : Byte) (s : State) :
    ((s.setBus (s.bus.write (stackAddr s.sp) v)).setSp (s.sp - 1)).AfterEvents (push v s) := by
  have h := (memWrite_after (stackAddr s.sp) v s).setSp (s.sp - 1)
  rwa [push, memWrite_sp]

/-- A pushed address: two bytes on the stack, the high one first (R70). -/
theorem pushAddr_after (w : Addr) (s : State) :
    ((s.setSp (s.sp - 2)).setBus (s.bus.pushed s.sp [highByte w, lowByte w])).AfterEvents
      (pushAddr w s) := by
  have h1 := push_after (highByte w) s
  have h2 := push_after (lowByte w) (push (highByte w) s)
  simp only [push_bus, push_sp] at h2
  have e : s.sp - 2 = s.sp - 1 - 1 := by rw [BitVec.sub_sub]; rfl
  rw [e]
  exact ((h1.setBus _).setSp _).trans h2

/-- A stack address lies in the stack page. -/
theorem stackAddr_toNat (sp : Byte) : (stackAddr sp).toNat = 0x100 + sp.toNat := by
  revert sp
  decide

theorem stackAddr_below (sp : Byte) : (stackAddr sp).toNat < Config.cartStart := by
  have := sp.isLt
  rw [stackAddr_toNat, Config.cartStart]
  omega

theorem stackAddr_not_port (b : Bus) (sp : Byte) : b.isPort (stackAddr sp) = false := by
  have := stackAddr_below sp
  cases b <;> simp [Bus.isPort]
  omega

theorem stackAddr_inj {sp sp' : Byte} (h : stackAddr sp = stackAddr sp') : sp = sp' := by
  apply BitVec.eq_of_toNat_eq
  have := congrArg BitVec.toNat h
  rw [stackAddr_toNat, stackAddr_toNat] at this
  omega

/-- Two stack bytes are the same byte of the bus only when SP is the same. -/
theorem stackAddr_sameByte (b : Bus) (sp sp' : Byte) :
    b.sameByte (stackAddr sp) (stackAddr sp') = (sp == sp') := by
  have hw : ∀ q : Byte, wramIndex (stackAddr q) = 0x100 + q.toNat := by
    intro q
    have := q.isLt
    rw [wramIndex, stackAddr_toNat, Config.wramSize, Nat.mod_eq_of_lt (by omega)]
  by_cases h : sp = sp'
  · subst h
    cases b <;> simp [Bus.sameByte]
  · have h1 : stackAddr sp ≠ stackAddr sp' := fun e => h (stackAddr_inj e)
    have h2 : wramIndex (stackAddr sp) ≠ wramIndex (stackAddr sp') := by
      rw [hw, hw]
      intro e
      exact h (BitVec.eq_of_toNat_eq (by omega))
    have e : (sp == sp') = false := by simpa using h
    cases b <;> simp only [Bus.sameByte, beq_eq_false_iff_ne.mpr h1, beq_eq_false_iff_ne.mpr h2, e,
      Bool.and_false, Bool.or_false]

/-- A pull always answers: the stack page is readable on both buses. It moves SP. -/
theorem pull_eq (s : State) : ∃ v u, s.bus.read (stackAddr (s.sp + 1)) = .ok v ∧
    pull s = .ok v u ∧ (s.setSp (s.sp + 1)).AfterEvents u := by
  obtain ⟨v, hv⟩ := Bus.read_below (b := s.bus) (stackAddr_below (s.sp + 1))
  exact ⟨v, _, hv, busAccess_of_read .read hv, event_after _ _ _⟩

/-- A pulled address always answers. -/
theorem pullAddr_eq (s : State) : ∃ lo hi u, s.bus.read (stackAddr (s.sp + 1)) = .ok lo ∧
    s.bus.read (stackAddr (s.sp + 1 + 1)) = .ok hi ∧ pullAddr s = .ok (wordOf lo hi) u ∧
    (s.setSp (s.sp + 1 + 1)).AfterEvents u := by
  obtain ⟨lo, t, hlo, e, ht⟩ := pull_eq s
  obtain ⟨hi, u, hhi, e', hu⟩ := pull_eq t
  rw [ht.bus_eq, ht.sp_eq] at hhi
  rw [ht.sp_eq] at hu
  refine ⟨lo, hi, u, hlo, hhi, ?_, (ht.setSp _).trans hu⟩
  rw [pullAddr, e, Res.bind_ok, e', Res.bind_ok]

/-! ### Interrupt entry and return -/

/-- The state after the three pushes of an interrupt entry (R337). -/
theorem pushes_after (ret : Addr) (s : State) (st : Byte) :
    ((s.setSp (s.sp - 3)).setBus (s.bus.pushed s.sp [highByte ret, lowByte ret, st])).AfterEvents
      (push st (pushAddr ret s)) := by
  have h1 := pushAddr_after ret s
  have h2 := push_after st (pushAddr ret s)
  have e : s.sp - 3 = s.sp - 2 - 1 := by rw [BitVec.sub_sub]; rfl
  have e2 : s.sp - 2 = s.sp - 1 - 1 := by rw [BitVec.sub_sub]; rfl
  rw [h1.bus_eq, h1.sp_eq] at h2
  rw [e]
  simp only [State.setBus_bus, State.setBus_sp, State.setSp_sp] at h2
  have h3 := ((h1.setBus ((s.bus.pushed s.sp [highByte ret, lowByte ret]).write
    (stackAddr (s.sp - 2)) st)).setSp (s.sp - 2 - 1)).trans h2
  simpa only [Bus.pushed, e2, State.setBus, State.setSp] using h3

/-- An interrupt entry: where the vector's word can be read after the pushes, the three bytes are on
the stack, SP is 3 lower, and the target is that word. -/
theorem enterInterrupt_of_read {ret vector : Addr} {s : State} {lo hi : Byte}
    (h1 : (s.bus.pushed s.sp [highByte ret, lowByte ret, pack s.p ||| s.params.intCtxMask]).read vector
      = .ok lo)
    (h2 : (s.bus.pushed s.sp [highByte ret, lowByte ret, pack s.p ||| s.params.intCtxMask]).read
      (vector + 1) = .ok hi) :
    ∃ u, enterInterrupt ret vector s = .ok (wordOf lo hi) u ∧
      ((s.setSp (s.sp - 3)).setBus (s.bus.pushed s.sp
        [highByte ret, lowByte ret, pack s.p ||| s.params.intCtxMask])).AfterEvents u := by
  have h := pushes_after ret s (pack s.p ||| s.params.intCtxMask)
  have hb := h.bus_eq
  rw [State.setBus_bus] at hb
  obtain ⟨u, hu⟩ := memReadWord_of_read (a := vector)
    (s := push (pack s.p ||| s.params.intCtxMask) (pushAddr ret s)) (by rw [hb]; exact h1)
    (by rw [hb]; exact h2)
  obtain ⟨_, _, _, _, _, h'⟩ := memReadWord_ok hu
  exact ⟨u, by simpa [enterInterrupt] using hu, h.trans h'⟩

/-- Pushes change the work RAM at most: the stack page is below the cartridge window (R23, R73). -/
theorem Bus.pushed_mmc1 (m : MapperState) (cart : Cart) (sp : Byte) (vs : List Byte) : ∃ wram prgRam,
    (Bus.mmc1 m cart).pushed sp vs = .mmc1 { m with wram := wram, prgRam := prgRam } cart := by
  induction vs generalizing m sp with
  | nil => exact ⟨m.wram, m.prgRam, rfl⟩
  | cons v vs ih =>
    obtain ⟨w, r, h⟩ := Bus.write_below (m := m) (cart := cart) v (stackAddr_below sp)
    obtain ⟨w', r', h'⟩ := ih { m with wram := w, prgRam := r } (sp - 1)
    exact ⟨w', r', by rw [Bus.pushed, h, h']⟩

/-- A byte that cannot be read after pushes could not be read before them, and has the same offset. -/
theorem Bus.read_error_of_pushed {b : Bus} {sp : Byte} {vs : List Byte} {a : Addr} {off : Nat}
    (h : (b.pushed sp vs).read a = .error off) : b.read a = .error off := by
  cases b with
  | flat ram =>
    have e : ∃ ram', (Bus.flat ram).pushed sp vs = .flat ram' := by
      clear h
      induction vs generalizing ram sp with
      | nil => exact ⟨ram, rfl⟩
      | cons v vs ih => exact ih _
    obtain ⟨ram', e⟩ := e
    simp [e, Bus.read] at h
  | mmc1 m cart =>
    obtain ⟨w, r, e⟩ := Bus.pushed_mmc1 m cart sp vs
    rw [e] at h
    obtain ⟨_, _, e', h1, _, _⟩ := Bus.read_error h
    have h2 : ¬ a.toNat < Config.openBusStart := by
      simp only [Config.openBusStart, Config.cartStart] at *
      omega
    have h3 : ¬ a.toNat < Config.prgRamStart := by
      simp only [Config.prgRamStart, Config.cartStart] at *
      omega
    have h4 : ¬ a.toNat < Config.cartStart := by omega
    simp only [Bus.read, h2, h3, h4, if_false] at h ⊢
    exact h

/-- An interrupt entry faults where its vector's word cannot be read after the pushes (R330). -/
theorem enterInterrupt_of_fails {m : MapperState} {cart : Cart} {ret vector a : Addr} {s : State}
    (hb : s.bus = .mmc1 m cart)
    (h : (s.bus.pushed s.sp [highByte ret, lowByte ret, pack s.p ||| s.params.intCtxMask]).WordFails
      vector a) :
    enterInterrupt ret vector s = .raise (.mapperOffsetOverflow a (prgOffset m cart.romSize a) s.pc) := by
  have hp := pushes_after ret s (pack s.p ||| s.params.intCtxMask)
  have hb' := hp.bus_eq
  obtain ⟨w, r, hm⟩ := Bus.pushed_mmc1 m cart s.sp
    [highByte ret, lowByte ret, pack s.p ||| s.params.intCtxMask]
  rw [State.setBus_bus] at hb'
  have := memReadWord_of_fails (a := vector) (hb'.trans (by rw [hb]; exact hm)) (by rw [hb']; exact h)
  simp only [enterInterrupt, pushAddr_p, pushAddr_params]
  rw [this, hp.pc_eq]
  rfl

/-- An interrupt entry that answers is one of those. -/
theorem enterInterrupt_ok {ret vector target : Addr} {s t : State}
    (h : enterInterrupt ret vector s = .ok target t) :
    ((s.setSp (s.sp - 3)).setBus (s.bus.pushed s.sp
      [highByte ret, lowByte ret, pack s.p ||| s.params.intCtxMask])).AfterEvents t ∧
    ∃ lo hi, t.bus.read vector = .ok lo ∧ t.bus.read (vector + 1) = .ok hi ∧ target = wordOf lo hi := by
  obtain ⟨lo, hi, h1, h2, h3, h4⟩ := memReadWord_ok h
  simp only [pushAddr_p, pushAddr_params] at h1 h2 h4
  refine ⟨(pushes_after ret s _).trans h4, lo, hi, ?_, ?_, h3⟩ <;> rw [h4.bus_eq] <;> assumption

/-- RTI's sequence always answers (R283). -/
theorem leaveInterrupt_eq (s : State) : ∃ b lo hi u, s.bus.read (stackAddr (s.sp + 1)) = .ok b ∧
    s.bus.read (stackAddr (s.sp + 1 + 1)) = .ok lo ∧
    s.bus.read (stackAddr (s.sp + 1 + 1 + 1)) = .ok hi ∧
    leaveInterrupt s = .ok (wordOf lo hi) u ∧
    ((s.setSp (s.sp + 1 + 1 + 1)).setP (unpack b)).AfterEvents u := by
  obtain ⟨b, t, hb, e, ht⟩ := pull_eq s
  obtain ⟨lo, hi, u, hlo, hhi, e', hu⟩ := pullAddr_eq (t.setP (unpack b))
  simp only [State.setP_bus, State.setP_sp, ht.bus_eq, ht.sp_eq, State.setSp_bus, State.setSp_sp]
    at hlo hhi hu
  refine ⟨b, lo, hi, u, hb, hlo, hhi, ?_, ((ht.setP _).setSp _).trans hu⟩
  rw [leaveInterrupt, e, Res.bind_ok, e']

end Sys2Proof.Machine
end

