-- ==== Sys2Proof/Laws/Operands.lean ====
section
/-! SUPPORT. What the resolver can do: an address computation and an operand read change only the halt
request, an address computation always answers, and an operand read faults only where its byte lies
outside the ROM. -/

namespace Sys2Proof.Machine

/-- An address computation changes what the events of its pointer reads change. -/
theorem effectiveAddress_after {m : MemOperand} {s t : State} {ea : Addr}
    (h : effectiveAddress m s = .ok ea t) : s.AfterEvents t := by
  cases m <;> simp only [effectiveAddress, Res.ok.injEq, Res.bind_eq_ok] at h
  case izx => obtain ⟨_, _, _, _, _, h⟩ := memReadWord_ok h; exact h
  case izy =>
    obtain ⟨_, u, h, _, rfl⟩ := h
    obtain ⟨_, _, _, _, _, h⟩ := memReadWord_ok h
    exact h
  all_goals
    obtain ⟨_, rfl⟩ := h
    exact .refl s

/-- A pointer in the zero page always answers: its two bytes end at 0x0100, RAM on both buses (R122). -/
theorem zeroPage_pointer (b : Byte) (s : State) : ∃ w t, memReadWord (zeroPage b) s = .ok w t := by
  have hb := b.isLt
  have e : (zeroPage b).toNat = b.toNat := by simp [zeroPage]; omega
  obtain ⟨lo, h1⟩ := Bus.read_below (b := s.bus) (a := zeroPage b) (by rw [e, Config.cartStart]; omega)
  obtain ⟨hi, h2⟩ := Bus.read_below (b := s.bus) (a := zeroPage b + 1)
    (by rw [BitVec.toNat_add, e, Config.cartStart]; simp; omega)
  exact ⟨_, memReadWord_of_read h1 h2⟩

/-- An address computation always answers (R145 to R153). -/
theorem effectiveAddress_answers (m : MemOperand) (s : State) :
    ∃ ea t, effectiveAddress m s = .ok ea t := by
  cases m
  case izx b => exact zeroPage_pointer (b + s.x) s
  case izy b =>
    obtain ⟨w, t, h⟩ := zeroPage_pointer b s
    exact ⟨_, t, by rw [effectiveAddress, h, Res.bind_ok]⟩
  all_goals exact ⟨_, _, rfl⟩

/-- An operand that answers is the immediate byte or the byte at the effective address. -/
theorem readOperand_ok {o : Operand} {s t : State} {v : Byte} (h : readOperand o s = .ok v t) :
    s.AfterEvents t ∧ ((∃ b, o = .imm b ∧ v = b) ∨
      ∃ m ea u, o = .mem m ∧ effectiveAddress m s = .ok ea u ∧ s.bus.read ea = .ok v) := by
  cases o with
  | imm b =>
    simp only [readOperand, Res.ok.injEq] at h
    obtain ⟨rfl, rfl⟩ := h
    exact ⟨.refl s, .inl ⟨b, rfl, rfl⟩⟩
  | mem m =>
    simp only [readOperand, Res.bind_eq_ok] at h
    obtain ⟨ea, u, h1, h2⟩ := h
    have ha := effectiveAddress_after h1
    have hr := (busAccess_ok h2).2
    rw [ha.bus_eq] at hr
    exact ⟨ha.trans (memRead_after h2), .inr ⟨m, ea, u, rfl, h1, hr⟩⟩

theorem readOperand_after {o : Operand} {s t : State} {v : Byte} (h : readOperand o s = .ok v t) :
    s.AfterEvents t := (readOperand_ok h).1

/-- An operand read faults only where a byte lies outside the ROM (R322). -/
theorem readOperand_raise {o : Operand} {s : State} {f : Fault} (h : readOperand o s = .raise f) :
    ∃ a off, s.bus.read a = .error off ∧ f = .mapperOffsetOverflow a off s.pc := by
  cases o with
  | imm b => simp [readOperand] at h
  | mem m =>
    simp only [readOperand, Res.bind_eq_raise] at h
    rcases h with h | ⟨ea, u, h1, h2⟩
    · obtain ⟨_, _, h'⟩ := effectiveAddress_answers m s
      rw [h'] at h
      cases h
    · obtain ⟨off, h3, h4⟩ := busAccess_raise h2
      have ha := effectiveAddress_after h1
      rw [ha.bus_eq] at h3
      rw [ha.pc_eq] at h4
      exact ⟨ea, off, h3, h4⟩

end Sys2Proof.Machine
end

