-- ==== Sys2Proof/Laws/Shapes.lean ====
section
/-! SUPPORT. What each shape of an instruction can do, said once: what it answers where its operand can
be read, that it faults where the operand faults, and that there is no other case. -/

namespace Sys2Proof.Machine

/-- The Standard and ReadModifyWrite shapes answer with PC past the instruction. -/
theorem advance_eq_next {m : Mode} {s t : State} {r : Res Unit} :
    advance m s r = .next t ↔
      ∃ u, r = .ok () u ∧ t = u.setPc (s.pc + BitVec.ofNat 16 m.length) := by
  cases r <;> simp [advance, eq_comm]

theorem advance_eq_fault {m : Mode} {s : State} {r : Res Unit} {f : Fault} :
    advance m s r = .fault f ↔ r = .raise f := by
  cases r <;> simp [advance]

theorem advance_not_refused {m : Mode} {s : State} {r : Res Unit} {e : Refusal} :
    advance m s r ≠ .refused e := by
  cases r <;> simp [advance]

/-- The Jump shape answers with PC at the target. -/
theorem jump_eq_next {t : State} {r : Res Addr} :
    jump r = .next t ↔ ∃ a u, r = .ok a u ∧ t = u.setPc a := by
  cases r <;> simp [jump, eq_comm]

theorem jump_eq_fault {r : Res Addr} {f : Fault} : jump r = .fault f ↔ r = .raise f := by
  cases r <;> simp [jump]

theorem jump_not_refused {r : Res Addr} {e : Refusal} : jump r ≠ .refused e := by
  cases r <;> simp [jump]

/-! ### Reading an operand -/

theorem reading_of_ok {f : Byte → State → State} {o : Operand} {s t : State} {v : Byte}
    (h : readOperand o s = .ok v t) :
    reading f o s = .next ((f v t).setPc (s.pc + BitVec.ofNat 16 o.mode.length)) := by
  rw [reading, h]
  rfl

theorem reading_of_raise {f : Byte → State → State} {o : Operand} {s : State} {e : Fault}
    (h : readOperand o s = .raise e) : reading f o s = .fault e := by
  rw [reading, h]
  rfl

theorem reading_eq_next {f : Byte → State → State} {o : Operand} {s t : State}
    (h : reading f o s = .next t) : ∃ v u, readOperand o s = .ok v u ∧
      t = (f v u).setPc (s.pc + BitVec.ofNat 16 o.mode.length) := by
  cases hr : readOperand o s with
  | ok v u => rw [reading_of_ok hr] at h; exact ⟨v, u, rfl, by simpa using h.symm⟩
  | raise e => rw [reading_of_raise hr] at h; simp at h

/-! ### Storing -/

theorem storing_of_ok {src : State → Byte} {m : MemOperand} {s t : State} {ea : Addr}
    (h : effectiveAddress m s = .ok ea t) :
    storing src m s = .next ((memWrite ea (src t) t).setPc (s.pc + BitVec.ofNat 16 m.mode.length)) := by
  rw [storing, h]
  rfl

theorem storing_of_raise {src : State → Byte} {m : MemOperand} {s : State} {e : Fault}
    (h : effectiveAddress m s = .raise e) : storing src m s = .fault e := by
  rw [storing, h]
  rfl

theorem storing_eq_next {src : State → Byte} {m : MemOperand} {s t : State}
    (h : storing src m s = .next t) : ∃ ea u, effectiveAddress m s = .ok ea u ∧
      t = (memWrite ea (src u) u).setPc (s.pc + BitVec.ofNat 16 m.mode.length) := by
  cases hr : effectiveAddress m s with
  | ok ea u => rw [storing_of_ok hr] at h; exact ⟨ea, u, rfl, by simpa using h.symm⟩
  | raise e => rw [storing_of_raise hr] at h; simp at h

/-! ### Reading, modifying and writing back -/

theorem modifying_of_ok {f : Byte → Flags → Byte × Flags} {m : MemOperand} {s t u : State} {ea : Addr}
    {v : Byte} (h : effectiveAddress m s = .ok ea t) (h' : readOperand (.mem m) s = .ok v u) :
    modifying f m s = .next ((memWrite ea (f v u.p).1 (u.setP (f v u.p).2)).setPc
      (s.pc + BitVec.ofNat 16 m.mode.length)) := by
  rw [readOperand, h, Res.bind_ok] at h'
  rw [modifying, h, Res.bind_ok, h']
  rfl

theorem modifying_of_raise {f : Byte → Flags → Byte × Flags} {m : MemOperand} {s : State} {e : Fault}
    (h : readOperand (.mem m) s = .raise e) : modifying f m s = .fault e := by
  simp only [readOperand, Res.bind_eq_raise] at h
  rcases h with h | ⟨ea, t, h, h'⟩
  · rw [modifying, h]; rfl
  · rw [modifying, h, Res.bind_ok, h']; rfl

theorem modifying_eq_next {f : Byte → Flags → Byte × Flags} {m : MemOperand} {s t : State}
    (h : modifying f m s = .next t) : ∃ ea v u u', effectiveAddress m s = .ok ea u' ∧
      readOperand (.mem m) s = .ok v u ∧
      t = (memWrite ea (f v u.p).1 (u.setP (f v u.p).2)).setPc
        (s.pc + BitVec.ofNat 16 m.mode.length) := by
  cases hr : readOperand (.mem m) s with
  | raise e => rw [modifying_of_raise hr] at h; simp at h
  | ok v u =>
    have hr' := hr
    simp only [readOperand, Res.bind_eq_ok] at hr'
    obtain ⟨ea, u', h1, _⟩ := hr'
    rw [modifying_of_ok h1 hr] at h
    exact ⟨ea, v, u, u', h1, rfl, by simpa using h.symm⟩

/-- Reading, storing and modifying instructions are of the Standard or ReadModifyWrite shape. -/
theorem reading_advances (f : Byte → State → State) (o : Operand) (s : State) :
    ∃ r, reading f o s = advance o.mode s r := ⟨_, rfl⟩

theorem storing_advances (src : State → Byte) (m : MemOperand) (s : State) :
    ∃ r, storing src m s = advance m.mode s r := ⟨_, rfl⟩

theorem modifying_advances (f : Byte → Flags → Byte × Flags) (m : MemOperand) (s : State) :
    ∃ r, modifying f m s = advance m.mode s r := ⟨_, rfl⟩

theorem reading_not_refused {f : Byte → State → State} {o : Operand} {s : State} {e : Refusal} :
    reading f o s ≠ .refused e := advance_not_refused

theorem storing_not_refused {src : State → Byte} {m : MemOperand} {s : State} {e : Refusal} :
    storing src m s ≠ .refused e := advance_not_refused

theorem modifying_not_refused {f : Byte → Flags → Byte × Flags} {m : MemOperand} {s : State}
    {e : Refusal} : modifying f m s ≠ .refused e := advance_not_refused

end Sys2Proof.Machine
end

