-- ==== Sys2Proof/Laws/Forms.lean ====
section
/-! SUPPORT. From an instruction as syntax to the operation its meaning is made of: by its mnemonic and
its operand form. -/

namespace Sys2Proof.Machine

/-- The operation of a mnemonic on an operand form, for the mnemonics that have an operand. -/
def operationOf : Mnemonic → Operand → Option (State → Out)
  | .lda, o => some (ldaOp o)
  | .ldx, o => some (ldxOp o)
  | .ldy, o => some (ldyOp o)
  | .adc, o => some (adcOp o)
  | .sbc, o => some (sbcOp o)
  | .and, o => some (andOp o)
  | .ora, o => some (oraOp o)
  | .eor, o => some (eorOp o)
  | .cmp, o => some (cmpOp o)
  | .cpx, o => some (cpxOp o)
  | .cpy, o => some (cpyOp o)
  | .bit, o => some (bitOp o)
  | .sta, .mem m => some (staOp m)
  | .stx, .mem m => some (stxOp m)
  | .sty, .mem m => some (styOp m)
  | .inc, .mem m => some (incOp m)
  | .dec, .mem m => some (decOp m)
  | .asl, .mem m => some (aslOp m)
  | .lsr, .mem m => some (lsrOp m)
  | .rol, .mem m => some (rolOp m)
  | .ror, .mem m => some (rorOp m)
  | _, _ => none

/-- The meaning of an instruction that has an operand is its mnemonic's operation on it. -/
theorem exec_of_operand {i : Instr} {o : Operand} (h : i.operand = some o) :
    operationOf i.mnemonic o = some (exec i) := by
  cases i <;> cases h <;> rfl

/-- The operand form has the instruction's mode. -/
theorem operand_mode {i : Instr} {o : Operand} (h : i.operand = some o) : o.mode = i.mode := by
  cases i <;> cases h <;> rfl

/-- The encoder writes as many bytes as the mode says. -/
theorem length_eq (i : Instr) : i.length = i.mode.length := by
  cases i <;> rfl

/-- An instruction that has an operand is of the Standard or ReadModifyWrite shape (R171, R172). -/
theorem exec_advances {i : Instr} {o : Operand} (h : i.operand = some o) (s : State) :
    ∃ r, exec i s = advance i.mode s r := by
  have he := exec_of_operand h
  rw [← operand_mode h]
  cases hm : i.mnemonic <;> rw [hm] at he <;> cases o <;> (try simp [operationOf] at he; done) <;>
    injection he with he <;> rw [← he] <;>
    first
    | exact reading_advances _ _ _
    | exact storing_advances _ _ _
    | exact modifying_advances _ _ _

end Sys2Proof.Machine
end

