-- ==== Sys2Proof/Laws/Exec.lean ====
section
/-! SUPPORT. What an instruction can do, said once for all 151: the stores it makes and where, what no
instruction changes, and the one fault it can end in. -/

namespace Sys2Proof.Machine

/-- The bus after a list of stores, in order. -/
def Bus.writes (b : Bus) (ws : List (Addr × Byte)) : Bus := ws.foldl (fun b w => b.write w.1 w.2) b

@[simp] theorem Bus.writes_nil (b : Bus) : b.writes [] = b := rfl

@[simp] theorem Bus.writes_cons (b : Bus) (w : Addr × Byte) (ws : List (Addr × Byte)) :
    b.writes (w :: ws) = (b.write w.1 w.2).writes ws := rfl

/-- Stores keep the canonical form. -/
theorem Bus.writes_wf {b : Bus} (h : b.wf = true) (ws : List (Addr × Byte)) :
    (b.writes ws).wf = true := by
  induction ws generalizing b with
  | nil => exact h
  | cons w ws ih => exact ih (Bus.write_wf _ _ h)

/-- Stores change no cartridge. -/
@[simp] theorem Bus.writes_cart? (b : Bus) (ws : List (Addr × Byte)) : (b.writes ws).cart? = b.cart? := by
  induction ws generalizing b with
  | nil => rfl
  | cons w ws ih => rw [Bus.writes_cons, ih, Bus.write_cart?]

/-- What may become of the halt request between two boundaries: without breakpoints it stays, and it is
never lost (R36, R355). -/
def Requests (s t : State) : Prop :=
  (s.bp = [] → t.haltReq = s.haltReq) ∧ (s.haltReq = true → t.haltReq = true)

theorem Requests.refl (s : State) : Requests s s := ⟨fun _ => rfl, id⟩

theorem State.AfterEvents.requests {s t : State} (h : s.AfterEvents t) : Requests s t := by
  obtain ⟨b, rfl, h1, h2⟩ := h
  exact ⟨h1, h2⟩

/-- One sequence of events after another. -/
theorem Requests.trans {s t u : State} (h : Requests s t) (hb : t.bp = s.bp) (h' : Requests t u) :
    Requests s u :=
  ⟨fun e => (h'.1 (hb.trans e)).trans (h.1 e), fun e => h'.2 (h.2 e)⟩

/-- What `exec` leaves when it completes: the stores of `storeTargets`, in order; the run state, the
step count, the breakpoints and the parameters as they were; and a halt request only from a callback. -/
def Stored (targets : List Addr) (s t : State) : Prop :=
  ∃ ws : List (Addr × Byte), ws.map Prod.fst = targets ∧ t.bus = s.bus.writes ws ∧
    t.run = s.run ∧ t.steps = s.steps ∧ t.bp = s.bp ∧ t.params = s.params ∧ Requests s t

/-- A state that differs in registers and flags only. -/
theorem Stored.of_regs {s t : State} (h1 : t.bus = s.bus) (h2 : t.run = s.run) (h3 : t.steps = s.steps)
    (h4 : t.bp = s.bp) (h5 : t.params = s.params) (h6 : Requests s t) : Stored [] s t :=
  ⟨[], rfl, h1, h2, h3, h4, h5, h6⟩

theorem reading_stored {f : Byte → State → State} {o : Operand} {s t : State}
    (h : reading f o s = .next t)
    (hf : ∀ v u, (f v u).bus = u.bus ∧ (f v u).run = u.run ∧ (f v u).steps = u.steps ∧
      (f v u).bp = u.bp ∧ (f v u).params = u.params ∧ (f v u).haltReq = u.haltReq) : Stored [] s t := by
  obtain ⟨v, u, h1, rfl⟩ := reading_eq_next h
  have ha := readOperand_after h1
  obtain ⟨f1, f2, f3, f4, f5, f6⟩ := hf v u
  exact .of_regs (f1.trans ha.bus_eq) (f2.trans ha.run_eq) (f3.trans ha.steps_eq) (f4.trans ha.bp_eq)
    (f5.trans ha.params_eq) (ha.requests.trans ha.bp_eq ⟨fun _ => f6, fun h => f6.trans h⟩)

theorem storing_stored {src : State → Byte} {m : MemOperand} {s t : State}
    (h : storing src m s = .next t) : Stored (m.target s) s t := by
  obtain ⟨ea, u, h1, rfl⟩ := storing_eq_next h
  have ha := effectiveAddress_after h1
  exact ⟨[(ea, src u)], by simp [MemOperand.target, h1], by simp [ha.bus_eq], by simp [ha.run_eq],
    by simp [ha.steps_eq], by simp [ha.bp_eq], by simp [ha.params_eq],
    ha.requests.trans ha.bp_eq (memWrite_after _ _ _).requests⟩

theorem modifying_stored {f : Byte → Flags → Byte × Flags} {m : MemOperand} {s t : State}
    (h : modifying f m s = .next t) : Stored (m.target s) s t := by
  obtain ⟨ea, v, u, u', h1, h2, rfl⟩ := modifying_eq_next h
  have ha := readOperand_after h2
  exact ⟨[(ea, (f v u.p).1)], by simp [MemOperand.target, h1], by simp [ha.bus_eq], by simp [ha.run_eq],
    by simp [ha.steps_eq], by simp [ha.bp_eq], by simp [ha.params_eq],
    ha.requests.trans ha.bp_eq (memWrite_after ea (f v u.p).1 (u.setP (f v u.p).2)).requests⟩

/-- What no instruction changes, and where each stores. -/
theorem exec_stored {i : Instr} {s t : State} (h : exec i s = .next t) : Stored (storeTargets i s) s t := by
  cases ho : i.operand with
  | some o =>
    have he := exec_of_operand ho
    cases hm : i.mnemonic <;> rw [hm] at he
    case lda | ldx | ldy | adc | sbc | and | ora | eor | cmp | cpx | cpy | bit =>
      injection he with he
      have e : storeTargets i s = [] := by simp [storeTargets, hm]
      rw [e]
      rw [← he] at h
      exact reading_stored h fun _ _ => ⟨rfl, rfl, rfl, rfl, rfl, rfl⟩
    case sta | stx | sty =>
      cases o with
      | imm b => simp [operationOf] at he
      | mem m =>
        injection he with he
        have e : storeTargets i s = m.target s := by simp [storeTargets, hm, ho]
        rw [e]
        rw [← he] at h
        exact storing_stored h
    case inc | dec | asl | lsr | rol | ror =>
      cases o with
      | imm b => simp [operationOf] at he
      | mem m =>
        injection he with he
        have e : storeTargets i s = m.target s := by simp [storeTargets, hm, ho]
        rw [e]
        rw [← he] at h
        exact modifying_stored h
    all_goals simp [operationOf] at he
  | none =>
    cases i <;> cases ho
    case none.jmpInd.refl w =>
      simp only [exec, execJmpInd, jump_eq_next] at h
      obtain ⟨a, u, h1, rfl⟩ := h
      obtain ⟨_, _, _, _, _, ha⟩ := memReadWord_ok h1
      exact .of_regs ha.bus_eq ha.run_eq ha.steps_eq ha.bp_eq ha.params_eq ha.requests
    case none.rts.refl =>
      obtain ⟨lo, hi, u, _, _, h1, ha⟩ := pullAddr_eq s
      simp only [exec, execRts, h1, Res.bind_ok, jump, Host.Outcome.next.injEq] at h
      subst h
      exact .of_regs ha.bus_eq ha.run_eq ha.steps_eq ha.bp_eq ha.params_eq ha.requests
    case none.rti.refl =>
      obtain ⟨b, lo, hi, u, _, _, _, h1, ha⟩ := leaveInterrupt_eq s
      simp only [exec, execRti, h1, jump, Host.Outcome.next.injEq] at h
      subst h
      exact .of_regs ha.bus_eq ha.run_eq ha.steps_eq ha.bp_eq ha.params_eq ha.requests
    case none.pla.refl =>
      obtain ⟨v, u, _, h1, ha⟩ := pull_eq s
      simp only [exec, execPla, h1, Res.bind_ok, advance, Host.Outcome.next.injEq] at h
      subst h
      exact .of_regs ha.bus_eq ha.run_eq ha.steps_eq ha.bp_eq ha.params_eq ha.requests
    case none.plp.refl =>
      obtain ⟨v, u, _, h1, ha⟩ := pull_eq s
      simp only [exec, execPlp, h1, Res.bind_ok, advance, Host.Outcome.next.injEq] at h
      subst h
      exact .of_regs ha.bus_eq ha.run_eq ha.steps_eq ha.bp_eq ha.params_eq ha.requests
    case none.brk.refl =>
      simp only [exec, execBrk, jump_eq_next, Res.bind_eq_ok, Res.ok.injEq] at h
      obtain ⟨_, _, ⟨_, u, h1, _, rfl⟩, rfl⟩ := h
      have ha := (enterInterrupt_ok h1).1
      have e : s.sp - 2 = s.sp - 1 - 1 := by rw [BitVec.sub_sub]; rfl
      exact ⟨[(stackAddr s.sp, highByte (s.pc + 2)), (stackAddr (s.sp - 1), lowByte (s.pc + 2)),
        (stackAddr (s.sp - 2), pack s.p ||| s.params.intCtxMask)], rfl,
        by rw [e]; exact ha.bus_eq, ha.run_eq, ha.steps_eq, ha.bp_eq, ha.params_eq, ha.requests⟩
    case none.jsr.refl w =>
      simp only [exec, execJsr, jump, Host.Outcome.next.injEq] at h
      subst h
      exact ⟨[(stackAddr s.sp, highByte (s.pc + 2)), (stackAddr (s.sp - 1), lowByte (s.pc + 2))], rfl,
        by simp, by simp, by simp, by simp, by simp, (pushAddr_after _ s).requests⟩
    case none.pha.refl =>
      simp only [exec, execPha, implied, advance, Host.Outcome.next.injEq] at h
      subst h
      exact ⟨[(stackAddr s.sp, s.a)], rfl, by simp, by simp, by simp, by simp, by simp,
        (push_after _ s).requests⟩
    case none.php.refl =>
      simp only [exec, execPhp, implied, advance, Host.Outcome.next.injEq] at h
      subst h
      exact ⟨[(stackAddr s.sp, pack s.p ||| s.params.phpMask)], rfl, by simp, by simp, by simp, by simp,
        by simp, (push_after _ s).requests⟩
    all_goals
      injection h with h
      subst h
      exact .of_regs rfl rfl rfl rfl rfl (.refl _)

/-- An instruction that faults does so at a byte that the bus it began with cannot read, recording PC0
(R322, R328). -/
theorem exec_fault {i : Instr} {s : State} {f : Fault} (h : exec i s = .fault f) :
    ∃ a off, s.bus.read a = .error off ∧ f = .mapperOffsetOverflow a off s.pc := by
  cases ho : i.operand with
  | some o =>
    have he := exec_of_operand ho
    cases hm : i.mnemonic <;> rw [hm] at he
    case lda | ldx | ldy | adc | sbc | and | ora | eor | cmp | cpx | cpy | bit =>
      injection he with he
      rw [← he] at h
      have hr : readOperand o s = .raise f := by
        cases hr : readOperand o s with
        | ok v u => exact absurd (h.symm.trans (reading_of_ok hr)) (by simp)
        | raise e => simpa using (reading_of_raise hr).symm.trans h
      exact readOperand_raise hr
    case sta | stx | sty =>
      cases o with
      | imm b => simp [operationOf] at he
      | mem m =>
        injection he with he
        rw [← he] at h
        obtain ⟨ea, u, hr⟩ := effectiveAddress_answers m s
        exact absurd (h.symm.trans (storing_of_ok hr)) (by simp)
    case inc | dec | asl | lsr | rol | ror =>
      cases o with
      | imm b => simp [operationOf] at he
      | mem m =>
        injection he with he
        rw [← he] at h
        have hr : readOperand (.mem m) s = .raise f := by
          cases hr : readOperand (.mem m) s with
          | ok v u =>
            have hr' := hr
            simp only [readOperand, Res.bind_eq_ok] at hr'
            obtain ⟨_, _, h1, _⟩ := hr'
            exact absurd (h.symm.trans (modifying_of_ok h1 hr)) (by simp)
          | raise e => simpa using (modifying_of_raise hr).symm.trans h
        exact readOperand_raise hr
    all_goals simp [operationOf] at he
  | none =>
    cases i <;> cases ho
    case none.jmpInd.refl w =>
      simp only [exec, execJmpInd, jump_eq_fault] at h
      exact memReadWord_raise h
    case none.rts.refl =>
      obtain ⟨lo, hi, u, _, _, h1, _⟩ := pullAddr_eq s
      simp [exec, execRts, h1, jump] at h
    case none.rti.refl =>
      obtain ⟨b, lo, hi, u, _, _, _, h1, _⟩ := leaveInterrupt_eq s
      simp [exec, execRti, h1, jump] at h
    case none.pla.refl =>
      obtain ⟨v, u, _, h1, _⟩ := pull_eq s
      simp [exec, execPla, h1, advance] at h
    case none.plp.refl =>
      obtain ⟨v, u, _, h1, _⟩ := pull_eq s
      simp [exec, execPlp, h1, advance] at h
    case none.brk.refl =>
      simp only [exec, execBrk, jump_eq_fault, Res.bind_eq_raise, reduceCtorEq, and_false, exists_false,
        or_false, enterInterrupt] at h
      obtain ⟨a, off, h1, h2⟩ := memReadWord_raise h
      have hp := pushes_after (s.pc + 2) s (pack s.p ||| s.params.intCtxMask)
      rw [pushAddr_p, pushAddr_params, hp.bus_eq, State.setBus_bus] at h1
      rw [pushAddr_p, pushAddr_params, hp.pc_eq] at h2
      exact ⟨a, off, Bus.read_error_of_pushed h1, h2⟩
    all_goals injection h

/-- No instruction is refused. -/
theorem exec_not_refused (i : Instr) (s : State) (r : Refusal) : exec i s ≠ .refused r := by
  intro h
  cases ho : i.operand with
  | some o =>
    have he := exec_of_operand ho
    cases hm : i.mnemonic <;> rw [hm] at he <;> cases o <;> (try simp [operationOf] at he; done) <;>
      injection he with he <;> rw [← he] at h <;>
      first
      | exact reading_not_refused h
      | exact storing_not_refused h
      | exact modifying_not_refused h
  | none =>
    cases i <;> cases ho <;>
      first
      | exact advance_not_refused h
      | exact jump_not_refused h
      | injection h

end Sys2Proof.Machine
end

