-- ==== Sys2Proof/Laws/Flags.lean ====
section
/-! SUPPORT. The flag computations said of numbers. -/

namespace Sys2Proof.Machine

/-- `setZeroNegative` depends on the number the byte is (R160). -/
theorem setZeroNegative_eq (v : Byte) (p : Flags) : setZeroNegative v p = Flags.ofResult v.toNat p := by
  have h1 : (v == 0) = decide (v.toNat % 256 = 0) := by revert v; decide
  have h2 : v.getLsbD 7 = decide (128 ≤ v.toNat % 256) := by revert v; decide
  simp only [setZeroNegative, Flags.ofResult, h1, h2]

/-- Z and N depend on the low 8 bits alone. -/
theorem Flags.ofResult_congr {n m : Nat} (h : n % 256 = m % 256) (p : Flags) :
    Flags.ofResult n p = Flags.ofResult m p := by
  simp [Flags.ofResult, h]

theorem setZeroNegative_ofNat (n : Nat) (p : Flags) :
    setZeroNegative (BitVec.ofNat 8 n) p = Flags.ofResult n p := by
  rw [setZeroNegative_eq]
  exact Flags.ofResult_congr (by simp) p

/-- The overflow bit of the adder is the signed overflow (R161). -/
theorem overflow_eq (a b : Byte) (c : Bool) :
    (((a ^^^ BitVec.ofNat 8 (sum9 a b c)) &&& (b ^^^ BitVec.ofNat 8 (sum9 a b c)) &&& 0x80) != 0) =
      decide (OutsideSigned8 (a.toInt + b.toInt + c.toNat)) := by
  have h : ∀ r : Byte, ((a ^^^ r) &&& (b ^^^ r) &&& 0x80 != 0) =
      ((a.msb != r.msb) && (b.msb != r.msb)) := by
    intro r
    have h7 : ∀ x : Byte, (x &&& 0x80 != 0) = x.getLsbD 7 := by decide
    rw [h7]
    simp [BitVec.msb_eq_getLsbD_last]
  rw [h]
  simp only [BitVec.msb_eq_decide, BitVec.toInt_eq_toNat_cond, BitVec.toNat_ofNat, OutsideSigned8, sum9]
  have := a.isLt
  have := b.isLt
  rw [Bool.eq_iff_iff]
  simp only [Bool.and_eq_true, bne_iff_ne, ne_eq, decide_eq_decide, decide_eq_true_eq]
  cases c <;> simp only [Bool.toNat_false, Bool.toNat_true] <;> split <;> split <;> omega

/-- `twosCompAdd` said of numbers (R161). -/
theorem twosCompAdd_eq (a b : Byte) (p : Flags) :
    twosCompAdd a b p = (BitVec.ofNat 8 (sum9 a b p.c), Flags.ofResult (sum9 a b p.c) { p with
      c := decide (255 < sum9 a b p.c)
      v := decide (OutsideSigned8 (a.toInt + b.toInt + p.c.toNat)) }) := by
  simp only [twosCompAdd, overflow_eq, setZeroNegative_ofNat, gt_iff_lt]

theorem complement_toNat (b : Byte) : (b ^^^ 0xFF).toNat = 255 - b.toNat := by
  revert b
  decide

theorem complement_toInt (b : Byte) : (b ^^^ 0xFF).toInt = -b.toInt - 1 := by
  revert b
  decide

/-- `compare` said of numbers (R163). -/
theorem compareFlags_eq (r m : Byte) (p : Flags) : compareFlags r m p = { p with
    c := decide (m.toNat ≤ r.toNat)
    z := decide (r = m)
    n := decide (128 ≤ (r.toNat + (256 - m.toNat)) % 256) } := by
  have := r.isLt
  have := m.isLt
  have e : (r = m) ↔ r.toNat = m.toNat := ⟨fun h => by rw [h], BitVec.eq_of_toNat_eq⟩
  have e1 : r.toNat + (255 - m.toNat) + 1 = r.toNat + (256 - m.toNat) := by omega
  simp only [compareFlags, sum9, complement_toNat, setZeroNegative_ofNat, Flags.ofResult, Bool.toNat_true,
    e, e1, gt_iff_lt]
  have h1 : (255 < r.toNat + (256 - m.toNat)) ↔ m.toNat ≤ r.toNat := by omega
  have h2 : ((r.toNat + (256 - m.toNat)) % 256 = 0) ↔ r.toNat = m.toNat := by omega
  simp only [h1, h2]

/-- The shifts and rotates said of numbers (R164). -/
theorem shift_eq (v : Byte) (p : Flags) :
    aslF v p = (BitVec.ofNat 8 (shiftResult .asl v p.c).1,
      Flags.ofResult (shiftResult .asl v p.c).1 { p with c := (shiftResult .asl v p.c).2 }) ∧
    lsrF v p = (BitVec.ofNat 8 (shiftResult .lsr v p.c).1,
      Flags.ofResult (shiftResult .lsr v p.c).1 { p with c := (shiftResult .lsr v p.c).2 }) ∧
    rolF v p = (BitVec.ofNat 8 (shiftResult .rol v p.c).1,
      Flags.ofResult (shiftResult .rol v p.c).1 { p with c := (shiftResult .rol v p.c).2 }) ∧
    rorF v p = (BitVec.ofNat 8 (shiftResult .ror v p.c).1,
      Flags.ofResult (shiftResult .ror v p.c).1 { p with c := (shiftResult .ror v p.c).2 }) := by
  have h7 : ∀ x : Byte, x.getLsbD 7 = decide (128 ≤ x.toNat) := by decide
  have h0 : ∀ x : Byte, x.getLsbD 0 = decide (x.toNat % 2 = 1) := by decide
  have hl : ∀ x : Byte, x <<< 1 = BitVec.ofNat 8 (2 * x.toNat) := by decide
  have hr : ∀ x : Byte, x >>> 1 = BitVec.ofNat 8 (x.toNat / 2) := by decide
  have hlc : ∀ (x : Byte) (c : Bool), x <<< 1 ||| bitAt c 0 = BitVec.ofNat 8 (2 * x.toNat + c.toNat) := by
    decide
  have hrc : ∀ (x : Byte) (c : Bool),
      x >>> 1 ||| bitAt c 7 = BitVec.ofNat 8 (x.toNat / 2 + 128 * c.toNat) := by decide
  refine ⟨?_, ?_, ?_, ?_⟩
  · simp only [aslF, h7, hl, setZeroNegative_ofNat, shiftResult]
  · simp only [lsrF, h0, hr, setZeroNegative_ofNat, shiftResult]
  · simp only [rolF, h7, hlc, setZeroNegative_ofNat, shiftResult]
  · simp only [rorF, h0, hrc, setZeroNegative_ofNat, shiftResult]

/-- The status byte bit by bit (R32). -/
theorem pack_eq (p : Flags) : pack p = BitVec.ofNat 8 (128 * p.n.toNat + 64 * p.v.toNat + 32 +
    8 * p.d.toNat + 4 * p.i.toNat + 2 * p.z.toNat + p.c.toNat) := by
  obtain ⟨c, z, i, d, v, n⟩ := p
  revert c z i d v n
  decide

end Sys2Proof.Machine
end

