-- ==== Sys2Proof/Laws/HostPort.lean ====
section
/-! SUPPORT. What the host's operations can do, said once: what entering Faulted leaves, how a step of the
host ends, and that the operations keep the canonical form of every memory. -/

namespace Sys2Proof.Machine

/-! ### Entering Faulted (R320) -/

@[simp] theorem enterFaulted_run (f : Fault) (s : State) : (s.enterFaulted f).run = .faulted f := rfl
@[simp] theorem enterFaulted_steps (f : Fault) (s : State) :
    (s.enterFaulted f).steps = f.stepsAfter s.steps := rfl
@[simp] theorem enterFaulted_bp (f : Fault) (s : State) : (s.enterFaulted f).bp = s.bp := rfl
@[simp] theorem enterFaulted_params (f : Fault) (s : State) : (s.enterFaulted f).params = s.params := rfl
@[simp] theorem enterFaulted_cart? (f : Fault) (s : State) :
    (s.enterFaulted f).bus.cart? = s.bus.cart? := by
  cases h : s.bus <;> simp [State.enterFaulted, Bus.afterFault, h, Bus.cart?]

/-- A halt request is not lost in a fault (R36). -/
theorem enterFaulted_haltReq_mono {f : Fault} {s : State} (h : s.haltReq = true) :
    (s.enterFaulted f).haltReq = true := by
  simp [State.enterFaulted, State.haltReqAfterFault, h]

/-- Without breakpoints a fault leaves the halt request alone (R355). -/
theorem enterFaulted_haltReq_of_no_bp {f : Fault} {s : State} (h : s.bp = []) :
    (s.enterFaulted f).haltReq = s.haltReq := by
  simp [State.enterFaulted, State.haltReqAfterFault, h]

/-- A step of a machine that is not Faulted completes, or leaves it Faulted: none is refused (R320). -/
theorem hostStep_cases {s : State} (h : ∀ f, s.run ≠ .faulted f) :
    (∃ t, step s = .next t ∧ hostStep s = (t, none)) ∨
    (∃ f, step s = .fault f ∧ hostStep s = (s.enterFaulted f, some f)) := by
  have hr : ∀ u r, runInstr u ≠ .refused r := by
    intro u r hu
    unfold runInstr at hu
    split at hu
    · rename_i i v _
      cases he : exec i v <;> simp only [he, completeStep] at hu
      · split at hu <;> simp at hu
      · simp at hu
      · exact exec_not_refused _ _ _ he
    · simp at hu
  cases hs : step s with
  | next t => exact .inl ⟨t, rfl, by simp [hostStep, hs]⟩
  | fault f =>
    exact .inr ⟨f, rfl, by simp only [hostStep, hs]⟩
  | refused r =>
    unfold step at hs
    split at hs
    · exact absurd hs (hr _ _)
    · exact absurd hs (hr _ _)
    · simp at hs

/-! ### The canonical form -/

/-- Placing a byte keeps everything canonical (log 13). -/
theorem Bus.place_wf {b b' : Bus} {a : Addr} {v : Byte} (h : b.wf = true) (hp : b.place a v = some b') :
    b'.wf = true := by
  cases b with
  | flat ram =>
    simp only [Bus.place, Option.some.injEq] at hp
    subst hp
    exact Memory.write_wf v a.isLt h
  | mmc1 m cart =>
    simp only [Bus.wf, MapperState.wf, Cart.wf, Bool.and_eq_true] at h
    obtain ⟨⟨⟨hw, hr⟩, hs⟩, hc, hrom⟩ := h
    simp only [Bus.place] at hp
    split at hp
    · simp only [Option.some.injEq] at hp
      subst hp
      simp only [Bus.wf, MapperState.wf, Cart.wf, Bool.and_eq_true]
      exact ⟨⟨⟨Memory.write_wf v (wramIndex_lt a) hw, hr⟩, hs⟩, hc, hrom⟩
    split at hp
    · simp at hp
    split at hp
    · split at hp
      · rename_i h2 h3 _
        simp only [Option.some.injEq] at hp
        subst hp
        simp only [Bus.wf, MapperState.wf, Cart.wf, Bool.and_eq_true]
        refine ⟨⟨⟨hw, Memory.write_wf v ?_ hr⟩, hs⟩, hc, hrom⟩
        simp only [Config.prgRamStart, Config.cartStart, Config.prgRamSize] at *
        omega
      · simp at hp
    · split at hp
      · rename_i hlt
        simp only [Option.some.injEq] at hp
        subst hp
        simp only [Bus.wf, MapperState.wf, Cart.wf, Bool.and_eq_true]
        exact ⟨⟨⟨hw, hr⟩, hs⟩, hc, Memory.write_wf v hlt hrom⟩
      · simp at hp

theorem Bus.placeAll_wf {b b' : Bus} {a : Addr} {vs : List Byte} (h : b.wf = true)
    (hp : b.placeAll a vs = some b') : b'.wf = true := by
  induction vs generalizing b a with
  | nil =>
    simp only [Bus.placeAll, Option.some.injEq] at hp
    rwa [← hp]
  | cons v vs ih =>
    simp only [Bus.placeAll] at hp
    split at hp
    · rename_i b1 h1
      exact ih (Bus.place_wf h h1) hp
    · simp at hp

/-- Placing an instruction for the next fetch keeps the invariant (log 13). -/
theorem withFetchWord_inv {s : State} (h : s.Inv) (nbits w : Nat) : (s.withFetchWord nbits w).Inv := by
  unfold State.withFetchWord State.withBytes
  split
  · rename_i b hb
    exact Bus.placeAll_wf h hb
  · split
    · rename_i b hb
      exact Bus.placeAll_wf h hb
    · exact h

/-- `ClearRam` keeps the invariant (R92). -/
theorem clearRam_inv {s : State} (h : s.Inv) : (clearRam s).Inv := by
  unfold clearRam State.Inv at *
  cases hb : s.bus with
  | flat ram => rfl
  | mmc1 m cart =>
    rw [hb] at h
    simp only [Bus.wf, MapperState.wf, Bool.and_eq_true] at h
    simp only [State.setBus_bus, Bus.wf, MapperState.wf, Bool.and_eq_true]
    exact ⟨⟨⟨rfl, rfl⟩, h.1.2⟩, h.2⟩

/-- A trigger that raises no fault keeps the invariant (R330). -/
theorem trigger_inv {s t : State} {vector : Addr} (h : s.Inv) (ht : trigger vector s = (t, none)) :
    t.Inv := by
  unfold trigger deliver at ht
  split at ht
  · simp only [Prod.mk.injEq, and_true] at ht
    rwa [← ht]
  · split at ht
    · rename_i u he
      simp only [Prod.mk.injEq, and_true] at ht
      subst ht
      have hb := (enterInterrupt_ok he).1.bus_eq
      have hw := Bus.write_wf (stackAddr (s.sp - 1 - 1)) (pack s.p ||| s.params.intCtxMask)
        (Bus.write_wf (stackAddr (s.sp - 1)) (lowByte s.pc) (Bus.write_wf (stackAddr s.sp) (highByte s.pc) h))
      unfold State.Inv
      rw [State.setPc_bus, hb]
      exact hw
    · simp at ht

/-- A machine built from a canonical cartridge has the invariant (R384). -/
theorem construct_inv {cart : Cart} {params : Params} {s : State} (h : cart.wf = true)
    (hs : construct cart params = .ok s) : s.Inv := by
  unfold construct at hs
  split at hs
  · simp only [Except.ok.injEq] at hs
    subst hs
    simp only [State.Inv, State.powerOnWith, MapperState.powerOn, Bus.wf, MapperState.wf, h]
    rfl
  · simp at hs

/-- The work RAM of `State.reset` is canonical. -/
theorem reset_wram_wf : Memory.wf Config.wramSize [(0x1FE, 0x30)] = true := rfl

end Sys2Proof.Machine
end

