-- ==== Sys2Proof/Laws/Stack.lean ====
section
/-! SUPPORT. The stack page read back after pushes. -/

namespace Sys2Proof.Machine

theorem stackAddr_eq (sp : Byte) : stackAddr sp = BitVec.ofNat 16 (256 + sp.toNat) := by
  apply BitVec.eq_of_toNat_eq
  have := sp.isLt
  rw [stackAddr_toNat, BitVec.toNat_ofNat]
  omega

/-- A pushed byte is read back, in a canonical memory. -/
theorem peek_pushed_same {b : Bus} (hw : b.wf = true) (sp v : Byte) :
    (b.write (stackAddr sp) v).peek (stackAddr sp) = some v := by
  rcases Bus.peek_write_same (a := stackAddr sp) (a' := stackAddr sp) v hw
    (by simp [stackAddr_sameByte]) (stackAddr_not_port b sp) with ⟨_, _, _, h, _⟩ | h
  · have := sp.isLt
    rw [stackAddr_toNat, Config.openBusStart] at h
    omega
  · exact h

/-- A push leaves every other stack byte alone. -/
theorem peek_pushed_other {b : Bus} {sp sp' : Byte} (h : sp ≠ sp') (v : Byte) :
    (b.write (stackAddr sp) v).peek (stackAddr sp') = b.peek (stackAddr sp') :=
  Bus.peek_write_other v (stackAddr_not_port b sp) (by simpa [stackAddr_sameByte] using h)

/-- Pushes keep the canonical form. -/
theorem Bus.pushed_wf {b : Bus} (h : b.wf = true) (sp : Byte) (vs : List Byte) :
    (b.pushed sp vs).wf = true := by
  induction vs generalizing b sp with
  | nil => exact h
  | cons v vs ih => exact ih (Bus.write_wf _ _ h) _

end Sys2Proof.Machine
end

