-- ==== Sys2Proof/Laws/Step.lean ====
section
/-! SUPPORT. What fetching and a step can do, said once. -/

namespace Sys2Proof.Machine

/-- Operand fetches that answer change what their events change. -/
theorem fetchOperands_after {m : Mode} {s t : State} {ops : Byte × Byte}
    (h : fetchOperands m s = .ok ops t) : s.AfterEvents t := by
  unfold fetchOperands at h
  split at h
  · simp only [Res.ok.injEq] at h
    rw [← h.2]
    exact .refl s
  · simp only [Res.bind_eq_ok, Res.ok.injEq] at h
    obtain ⟨_, _, h1, _, rfl⟩ := h
    exact memRead_after h1
  · simp only [Res.bind_eq_ok, Res.ok.injEq] at h
    obtain ⟨_, _, h1, _, _, h2, _, rfl⟩ := h
    exact (memRead_after h1).trans (memRead_after h2)

/-- Operand fetches fault only where a byte lies outside the ROM. -/
theorem fetchOperands_raise {m : Mode} {s : State} {f : Fault} (h : fetchOperands m s = .raise f) :
    ∃ a off, s.bus.read a = .error off ∧ f = .mapperOffsetOverflow a off s.pc := by
  unfold fetchOperands at h
  split at h
  · simp at h
  · simp only [Res.bind_eq_raise, reduceCtorEq, and_false, exists_false, or_false] at h
    obtain ⟨off, h⟩ := busAccess_raise h
    exact ⟨_, off, h⟩
  · simp only [Res.bind_eq_raise, reduceCtorEq, and_false, exists_false, or_false] at h
    rcases h with h | ⟨_, t, h1, h⟩
    · obtain ⟨off, h⟩ := busAccess_raise h
      exact ⟨_, off, h⟩
    · obtain ⟨off, h2⟩ := busAccess_raise h
      have ha := memRead_after h1
      rw [ha.bus_eq, ha.pc_eq] at h2
      exact ⟨_, off, h2⟩

/-- A fetch that answers changes what its events change. -/
theorem fetchInstr_after {i : Instr} {s t : State} (h : fetchInstr s = .ok i t) : s.AfterEvents t := by
  simp only [fetchInstr, Res.bind_eq_ok] at h
  obtain ⟨op, u, h1, h2⟩ := h
  split at h2
  · simp at h2
  · simp only [Res.bind_eq_ok, Res.ok.injEq] at h2
    obtain ⟨_, _, h3, _, rfl⟩ := h2
    exact (busAccess_after h1).trans (fetchOperands_after h3)

/-- A fetch that faults: a byte outside the ROM, or an opcode byte with no descriptor (R321, R322). -/
theorem fetchInstr_raise {s : State} {f : Fault} (h : fetchInstr s = .raise f) :
    (∃ a off, s.bus.read a = .error off ∧ f = .mapperOffsetOverflow a off s.pc) ∨
    (∃ op, s.bus.read s.pc = .ok op ∧ descriptorOf op = none ∧ f = .unimplementedOpcode s.pc op) := by
  simp only [fetchInstr, Res.bind_eq_raise] at h
  rcases h with h | ⟨op, u, h1, h2⟩
  · obtain ⟨off, h⟩ := busAccess_raise h
    exact .inl ⟨_, off, h⟩
  · have ha := busAccess_after h1
    split at h2
    · rename_i hd
      simp only [Res.raise.injEq] at h2
      exact .inr ⟨op, (busAccess_ok h1).2, hd, h2.symm⟩
    · simp only [Res.bind_eq_raise, reduceCtorEq, and_false, exists_false, or_false] at h2
      obtain ⟨a, off, h3, h4⟩ := fetchOperands_raise h2
      rw [ha.bus_eq] at h3
      rw [ha.pc_eq] at h4
      exact .inl ⟨a, off, h3, h4⟩

/-- A step that completes: the fetched instruction's next state, with the step counted (R175, R342). -/
theorem step_next {s t : State} (h : step s = .next t) : ∃ i u v,
    (s.setRun .running).AfterEvents u ∧ exec i u = .next v ∧ t = v.setSteps (v.steps + 1) := by
  have key : ∀ r : State, r = s.setRun .running → runInstr r = .next t → ∃ i u v,
      (s.setRun .running).AfterEvents u ∧ exec i u = .next v ∧ t = v.setSteps (v.steps + 1) := by
    rintro r rfl hr
    unfold runInstr at hr
    split at hr
    · rename_i i u hf
      cases he : exec i u with
      | next v =>
        simp only [he, completeStep] at hr
        split at hr
        · simp at hr
        · exact ⟨i, u, v, fetchInstr_after hf, he, by simpa using hr.symm⟩
      | fault f => simp [he, completeStep] at hr
      | refused r => simp [he, completeStep] at hr
    · simp at hr
  unfold step at h
  split at h
  · rename_i hrun
    exact key s (by rw [← hrun]; rfl) h
  · exact key _ rfl h
  · simp at h

end Sys2Proof.Machine
end

