-- ==== Sys2Proof/Tests/Slice0.lean ====
section
/-! SUPPORT. Tests: ill-formed terms refused, every encoding of R125 decoded, vectors of
95_test_vectors.md (each theorem names its vector), and for every statement with hypotheses a witness
that meets them. -/

namespace Sys2Proof.Tests

open Machine

/-! ### Helpers -/

/-- FlatBus RAM with some cells written. -/
def ram (cells : List (Nat × Byte)) : Bus :=
  .flat (cells.foldl (fun m c => Memory.write m c.1 c.2) [])

/-- A machine on FlatBus with PC = 0x0600, SP = 0xFF, the other registers and the flags 0. -/
def flat (cells : List (Nat × Byte)) : State :=
  { State.powerOnWith (ram cells) Params.default with pc := 0x0600, sp := 0xFF }

/-- A machine on Mmc1Bus with an empty image of a size, in a PRG mode and bank, PC = 0x0600. -/
def mapped (romSize : Nat) (control prg : BitVec 5) : State :=
  { State.powerOnWith (.mmc1 { MapperState.powerOn Params.default with control := control, prg := prg }
      ⟨[], romSize, true⟩) Params.default with pc := 0x0600, sp := 0xFF }

/-- The state after one step from `s` with `bytes` placed at PC. -/
def after (s : State) (bytes : List Byte) : Option State :=
  match step (s.withBytes bytes) with
  | .next t => some t
  | _ => none

/-- The fault of one step from `s` with `bytes` placed at PC. -/
def faultOf (s : State) (bytes : List Byte) : Option Fault :=
  match step (s.withBytes bytes) with
  | .fault f => some f
  | _ => none

/-- Every row of a table passes its check. -/
def allOk {α : Type} (f : α → Bool) (rows : List α) : Bool := rows.all f

/-- Whether bytes decode to an instruction and to nothing more. -/
def decodesTo (c : List Byte × Instr) : Bool :=
  match decode c.1 with
  | .ok (i, []) => decide (i = c.2)
  | _ => false

/-- The mapper after writes to the cartridge window, from the reset state. -/
def writes (ws : List (Addr × Byte)) : Bus :=
  ws.foldl (fun b w => b.write w.1 w.2) (mapped 0x20000 0x0C 0).bus

/-- Mapper registers: shift, count, control, chr0, chr1, prg. -/
def registers (b : Bus) : List Nat :=
  match b with
  | .mmc1 m _ => [m.shift.toNat, m.count.val, m.control.toNat, m.chr0.toNat, m.chr1.toNat, m.prg.toNat]
  | .flat _ => []

/-! ### Ill-formed terms are refused -/

theorem test_wf_cart_size_zero : ¬ Cart.WellFormed ⟨[], 0, true⟩ := by decide

theorem test_wf_cart_size_odd : ¬ Cart.WellFormed ⟨[], 0x5000, true⟩ := by decide

theorem test_wf_cart_construct_refuses :
    (match construct ⟨[], 0x5000, true⟩ Params.default with
      | .error (.romSizeIllegal n) => n
      | _ => 0) = 0x5000 := by decide

theorem test_wf_cart_image_outside : Cart.wf ⟨[(0x8000, 1)], 0x8000, true⟩ = false := by decide

theorem test_wf_cart_image_order : Cart.wf ⟨[(2, 1), (1, 1)], 0x8000, true⟩ = false := by decide

theorem test_wf_memory_lists_zero : Memory.wf 8 [(1, 0)] = false := by decide

theorem test_wf_mask_empty : ¬ EventMask.WellFormed ⟨false, false, false⟩ := by decide

theorem test_wf_params_int_mask : ¬ Params.WellFormed { Params.default with intCtxMask := 0x91 } := by decide

theorem test_wf_params_php_mask : ¬ Params.WellFormed { Params.default with phpMask := 0x01 } := by decide

theorem test_wf_params_default : Params.WellFormed Params.default := by decide

theorem test_wf_mapper_shift : MapperState.wf { MapperState.powerOn Params.default with shift := 4, count := 2 } = false := by
  decide

/-! ### Decoding -/

/-- R121, R125: the words of the load/store family. -/
theorem test_decode_load_store_1 : allOk decodesTo
  [([0xA9, 0x9C], .ldaImm 0x9C), ([0xA5, 0x9C], .ldaZp 0x9C), ([0xB5, 0x9C], .ldaZpx 0x9C),
   ([0xAD, 0x34, 0x12], .ldaAbs 0x1234), ([0xBD, 0x34, 0x12], .ldaAbsx 0x1234), ([0xB9, 0x34, 0x12], .ldaAbsy 0x1234),
   ([0xA1, 0x9C], .ldaIzx 0x9C), ([0xB1, 0x9C], .ldaIzy 0x9C), ([0xA2, 0x9C], .ldxImm 0x9C),
   ([0xA6, 0x9C], .ldxZp 0x9C), ([0xB6, 0x9C], .ldxZpy 0x9C), ([0xAE, 0x34, 0x12], .ldxAbs 0x1234),
   ([0xBE, 0x34, 0x12], .ldxAbsy 0x1234), ([0xA0, 0x9C], .ldyImm 0x9C), ([0xA4, 0x9C], .ldyZp 0x9C),
   ([0xB4, 0x9C], .ldyZpx 0x9C), ([0xAC, 0x34, 0x12], .ldyAbs 0x1234), ([0xBC, 0x34, 0x12], .ldyAbsx 0x1234),
   ([0x85, 0x9C], .staZp 0x9C), ([0x95, 0x9C], .staZpx 0x9C), ([0x8D, 0x34, 0x12], .staAbs 0x1234),
   ([0x9D, 0x34, 0x12], .staAbsx 0x1234), ([0x99, 0x34, 0x12], .staAbsy 0x1234), ([0x81, 0x9C], .staIzx 0x9C),
   ([0x91, 0x9C], .staIzy 0x9C), ([0x86, 0x9C], .stxZp 0x9C), ([0x96, 0x9C], .stxZpy 0x9C)] = true := by decide

/-- R121, R125: the words of the load/store family. -/
theorem test_decode_load_store_2 : allOk decodesTo
  [([0x8E, 0x34, 0x12], .stxAbs 0x1234), ([0x84, 0x9C], .styZp 0x9C), ([0x94, 0x9C], .styZpx 0x9C),
   ([0x8C, 0x34, 0x12], .styAbs 0x1234), ([0xAA], .tax), ([0xA8], .tay),
   ([0x8A], .txa), ([0x98], .tya), ([0xBA], .tsx),
   ([0x9A], .txs)] = true := by decide

/-- R121, R125: the words of the arith/logic family. -/
theorem test_decode_arith_logic_1 : allOk decodesTo
  [([0x69, 0x9C], .adcImm 0x9C), ([0x65, 0x9C], .adcZp 0x9C), ([0x75, 0x9C], .adcZpx 0x9C),
   ([0x6D, 0x34, 0x12], .adcAbs 0x1234), ([0x7D, 0x34, 0x12], .adcAbsx 0x1234), ([0x79, 0x34, 0x12], .adcAbsy 0x1234),
   ([0x61, 0x9C], .adcIzx 0x9C), ([0x71, 0x9C], .adcIzy 0x9C), ([0xE9, 0x9C], .sbcImm 0x9C),
   ([0xE5, 0x9C], .sbcZp 0x9C), ([0xF5, 0x9C], .sbcZpx 0x9C), ([0xED, 0x34, 0x12], .sbcAbs 0x1234),
   ([0xFD, 0x34, 0x12], .sbcAbsx 0x1234), ([0xF9, 0x34, 0x12], .sbcAbsy 0x1234), ([0xE1, 0x9C], .sbcIzx 0x9C),
   ([0xF1, 0x9C], .sbcIzy 0x9C), ([0x29, 0x9C], .andImm 0x9C), ([0x25, 0x9C], .andZp 0x9C),
   ([0x35, 0x9C], .andZpx 0x9C), ([0x2D, 0x34, 0x12], .andAbs 0x1234), ([0x3D, 0x34, 0x12], .andAbsx 0x1234),
   ([0x39, 0x34, 0x12], .andAbsy 0x1234), ([0x21, 0x9C], .andIzx 0x9C), ([0x31, 0x9C], .andIzy 0x9C),
   ([0x09, 0x9C], .oraImm 0x9C), ([0x05, 0x9C], .oraZp 0x9C), ([0x15, 0x9C], .oraZpx 0x9C)] = true := by decide

/-- R121, R125: the words of the arith/logic family. -/
theorem test_decode_arith_logic_2 : allOk decodesTo
  [([0x0D, 0x34, 0x12], .oraAbs 0x1234), ([0x1D, 0x34, 0x12], .oraAbsx 0x1234), ([0x19, 0x34, 0x12], .oraAbsy 0x1234),
   ([0x01, 0x9C], .oraIzx 0x9C), ([0x11, 0x9C], .oraIzy 0x9C), ([0x49, 0x9C], .eorImm 0x9C),
   ([0x45, 0x9C], .eorZp 0x9C), ([0x55, 0x9C], .eorZpx 0x9C), ([0x4D, 0x34, 0x12], .eorAbs 0x1234),
   ([0x5D, 0x34, 0x12], .eorAbsx 0x1234), ([0x59, 0x34, 0x12], .eorAbsy 0x1234), ([0x41, 0x9C], .eorIzx 0x9C),
   ([0x51, 0x9C], .eorIzy 0x9C), ([0xC9, 0x9C], .cmpImm 0x9C), ([0xC5, 0x9C], .cmpZp 0x9C),
   ([0xD5, 0x9C], .cmpZpx 0x9C), ([0xCD, 0x34, 0x12], .cmpAbs 0x1234), ([0xDD, 0x34, 0x12], .cmpAbsx 0x1234),
   ([0xD9, 0x34, 0x12], .cmpAbsy 0x1234), ([0xC1, 0x9C], .cmpIzx 0x9C), ([0xD1, 0x9C], .cmpIzy 0x9C),
   ([0xE0, 0x9C], .cpxImm 0x9C), ([0xE4, 0x9C], .cpxZp 0x9C), ([0xEC, 0x34, 0x12], .cpxAbs 0x1234),
   ([0xC0, 0x9C], .cpyImm 0x9C), ([0xC4, 0x9C], .cpyZp 0x9C), ([0xCC, 0x34, 0x12], .cpyAbs 0x1234)] = true := by decide

/-- R121, R125: the words of the arith/logic family. -/
theorem test_decode_arith_logic_3 : allOk decodesTo
  [([0x24, 0x9C], .bitZp 0x9C), ([0x2C, 0x34, 0x12], .bitAbs 0x1234)] = true := by decide

/-- R121, R125: the words of the inc/dec/shift family. -/
theorem test_decode_inc_dec_shift_1 : allOk decodesTo
  [([0xE6, 0x9C], .incZp 0x9C), ([0xF6, 0x9C], .incZpx 0x9C), ([0xEE, 0x34, 0x12], .incAbs 0x1234),
   ([0xFE, 0x34, 0x12], .incAbsx 0x1234), ([0xC6, 0x9C], .decZp 0x9C), ([0xD6, 0x9C], .decZpx 0x9C),
   ([0xCE, 0x34, 0x12], .decAbs 0x1234), ([0xDE, 0x34, 0x12], .decAbsx 0x1234), ([0xE8], .inx),
   ([0xC8], .iny), ([0xCA], .dex), ([0x88], .dey),
   ([0x0A], .aslAcc), ([0x06, 0x9C], .aslZp 0x9C), ([0x16, 0x9C], .aslZpx 0x9C),
   ([0x0E, 0x34, 0x12], .aslAbs 0x1234), ([0x1E, 0x34, 0x12], .aslAbsx 0x1234), ([0x4A], .lsrAcc),
   ([0x46, 0x9C], .lsrZp 0x9C), ([0x56, 0x9C], .lsrZpx 0x9C), ([0x4E, 0x34, 0x12], .lsrAbs 0x1234),
   ([0x5E, 0x34, 0x12], .lsrAbsx 0x1234), ([0x2A], .rolAcc), ([0x26, 0x9C], .rolZp 0x9C),
   ([0x36, 0x9C], .rolZpx 0x9C), ([0x2E, 0x34, 0x12], .rolAbs 0x1234), ([0x3E, 0x34, 0x12], .rolAbsx 0x1234)] = true := by decide

/-- R121, R125: the words of the inc/dec/shift family. -/
theorem test_decode_inc_dec_shift_2 : allOk decodesTo
  [([0x6A], .rorAcc), ([0x66, 0x9C], .rorZp 0x9C), ([0x76, 0x9C], .rorZpx 0x9C),
   ([0x6E, 0x34, 0x12], .rorAbs 0x1234), ([0x7E, 0x34, 0x12], .rorAbsx 0x1234)] = true := by decide

/-- R121, R125: the words of the branch family. -/
theorem test_decode_branch : allOk decodesTo
  [([0x10, 0x9C], .bpl 0x9C), ([0x30, 0x9C], .bmi 0x9C), ([0x50, 0x9C], .bvc 0x9C),
   ([0x70, 0x9C], .bvs 0x9C), ([0x90, 0x9C], .bcc 0x9C), ([0xB0, 0x9C], .bcs 0x9C),
   ([0xD0, 0x9C], .bne 0x9C), ([0xF0, 0x9C], .beq 0x9C)] = true := by decide

/-- R121, R125: the words of the control family. -/
theorem test_decode_control : allOk decodesTo
  [([0x4C, 0x34, 0x12], .jmpAbs 0x1234), ([0x6C, 0x34, 0x12], .jmpInd 0x1234), ([0x20, 0x34, 0x12], .jsr 0x1234),
   ([0x60], .rts), ([0x40], .rti), ([0x00, 0xEA], .brk)] = true := by decide

/-- R121, R125: the words of the flags/stack family. -/
theorem test_decode_flags_stack : allOk decodesTo
  [([0x18], .clc), ([0x38], .sec), ([0x58], .cli),
   ([0x78], .sei), ([0xB8], .clv), ([0xD8], .cld),
   ([0xF8], .sed), ([0x48], .pha), ([0x68], .pla),
   ([0x08], .php), ([0x28], .plp), ([0xEA], .nop)] = true := by decide

/-- R127: the 105 bytes are those with no descriptor. -/
theorem test_unimplemented_bytes :
    unimplementedBytes.length = 105 ∧ (unimplementedBytes.all fun b => (descriptorOf b).isNone) = true := by
  decide

/-- R122: an operand word is little-endian. -/
theorem test_table_word : decodeTableWord 24 0x1234AD = some (.ldaAbs 0x1234) := by decide

/-- R120: a truncated instruction is refused by name. -/
theorem test_truncated : (match decode [0xAD, 0x34] with | .error (.truncated op) => op | _ => 0) = 0xAD := by
  decide

/-! ### The ALU primitives -/

/-- A, m, carry in; result, C, Z, V, N. -/
def addRow (r : Byte × Byte × Bool × Byte × Bool × Bool × Bool × Bool) : Bool :=
  let p := (twosCompAdd r.1 r.2.1 ⟨r.2.2.1, false, false, true, false, false⟩)
  decide ((p.1, p.2.c, p.2.z, p.2.v, p.2.n) = r.2.2.2)

/-- The same for the subtraction. -/
def subRow (r : Byte × Byte × Bool × Byte × Bool × Bool × Bool × Bool) : Bool :=
  let p := (twosCompSubtract r.1 r.2.1 ⟨r.2.2.1, false, false, false, false, false⟩)
  decide ((p.1, p.2.c, p.2.z, p.2.v, p.2.n) = r.2.2.2)

/-- reg, m; C, Z, N, with V = 1 before and after. -/
def cmpRow (r : Byte × Byte × Bool × Bool × Bool) : Bool :=
  let p := compareFlags r.1 r.2.1 ⟨false, false, false, false, true, false⟩
  decide ((p.c, p.z, p.n) = r.2.2 ∧ p.v = true)

/-- Vectors L1 to L12, with D = 1. -/
theorem test_add_vectors : allOk addRow
  [(0x50, 0x10, false, 0x60, false, false, false, false), (0x50, 0x50, false, 0xA0, false, false, true, true),
   (0x50, 0x90, false, 0xE0, false, false, false, true), (0x50, 0xD0, false, 0x20, true, false, false, false),
   (0xD0, 0x10, false, 0xE0, false, false, false, true), (0xD0, 0x50, false, 0x20, true, false, false, false),
   (0xD0, 0x90, false, 0x60, true, false, true, false), (0xD0, 0xD0, false, 0xA0, true, false, false, true),
   (0xFF, 0x01, false, 0x00, true, true, false, false), (0xFF, 0x00, true, 0x00, true, true, false, false),
   (0x7F, 0x00, true, 0x80, false, false, true, true), (0x00, 0x00, false, 0x00, false, true, false, false)] = true := by decide

/-- Vectors L13 to L24. -/
theorem test_sub_vectors : allOk subRow
  [(0x50, 0xF0, true, 0x60, false, false, false, false), (0x50, 0xB0, true, 0xA0, false, false, true, true),
   (0x50, 0x70, true, 0xE0, false, false, false, true), (0x50, 0x30, true, 0x20, true, false, false, false),
   (0xD0, 0xF0, true, 0xE0, false, false, false, true), (0xD0, 0xB0, true, 0x20, true, false, false, false),
   (0xD0, 0x70, true, 0x60, true, false, true, false), (0xD0, 0x30, true, 0xA0, true, false, false, true),
   (0x05, 0x03, true, 0x02, true, false, false, false), (0x05, 0x03, false, 0x01, true, false, false, false),
   (0x00, 0x01, true, 0xFF, false, false, false, true), (0x80, 0x01, true, 0x7F, true, false, true, false)] = true := by decide

/-- Vectors L25 to L31. -/
theorem test_compare_vectors : allOk cmpRow
  [(0x10, 0x10, true, true, false), (0x10, 0x20, false, false, true), (0x20, 0x10, true, false, false),
   (0x00, 0x00, true, true, false), (0x00, 0xFF, false, false, false), (0xFF, 0x00, true, false, true),
   (0x80, 0x7F, true, false, false)] = true := by decide

/-! ### Loads, stores and transfers -/

/-- E1. -/
theorem test_e1_lda_imm : (after { State.reset with pc := 0x8000 } [0xA9, 0x01]).map
    (fun t => (t.a, t.p.z, t.p.n, t.pc, t.steps)) = some (0x01, false, false, 0x8002, 1) := by decide

/-- T2. -/
theorem test_t2_lda_imm : (after { flat [] with p := ⟨false, true, false, false, false, false⟩ }
    [0xA9, 0x80]).map (fun t => (t.a, t.p.z, t.p.n)) = some (0x80, false, true) := by decide

/-- A4. -/
theorem test_a4_lda_zp : (after (flat [(0x80, 0x33)]) [0xA5, 0x80]).map (·.a) = some 0x33 := by decide

/-- A5. -/
theorem test_a5_lda_zpx : (after { flat [(0, 0x44), (0x100, 0x99)] with x := 0x01 } [0xB5, 0xFF]).map (·.a) =
    some 0x44 := by decide

/-- A6. -/
theorem test_a6_lda_zpx : (after { flat [(0x7F, 0x45)] with x := 0xFF } [0xB5, 0x80]).map (·.a) =
    some 0x45 := by decide

/-- A8. -/
theorem test_a8_lda_abs : (after (flat [(0x1234, 0x77)]) [0xAD, 0x34, 0x12]).map (fun t => (t.a, t.pc)) =
    some (0x77, 0x0603) := by decide

/-- A18. -/
theorem test_a18_lda_abs : (after (flat [(0xFFFF, 0x11)]) [0xAD, 0xFF, 0xFF]).map (·.a) = some 0x11 := by
  decide

/-- A9. -/
theorem test_a9_lda_absx : (after { flat [(0x1300, 0x5A), (0x1200, 0x99)] with x := 0x01 }
    [0xBD, 0xFF, 0x12]).map (·.a) = some 0x5A := by decide

/-- A10. -/
theorem test_a10_lda_absx : (after { flat [(0x0001, 0x5B)] with x := 0x02 } [0xBD, 0xFF, 0xFF]).map (·.a) =
    some 0x5B := by decide

/-- A11. -/
theorem test_a11_lda_absy : (after { flat [(0x0010, 0x5C)] with y := 0x20 } [0xB9, 0xF0, 0xFF]).map (·.a) =
    some 0x5C := by decide

/-- A13: the pointer's high byte comes from 0x0100. -/
theorem test_a13_lda_izx : (after { flat [(0, 0x99), (0x100, 0x20), (0x2000, 0x5D)] with x := 0x01 }
    [0xA1, 0xFE]).map (·.a) = some 0x5D := by decide

/-- A14. -/
theorem test_a14_lda_izy : (after { flat [(0x100, 0x20), (0x2010, 0x5E)] with y := 0x10 } [0xB1, 0xFF]).map
    (·.a) = some 0x5E := by decide

/-- A15. -/
theorem test_a15_lda_izy : (after { flat [(0x20, 0xFF), (0x21, 0xFF), (0, 0x5F)] with y := 0x01 }
    [0xB1, 0x20]).map (·.a) = some 0x5F := by decide

/-- T3. -/
theorem test_t3_ldx_imm : (after (flat []) [0xA2, 0xFF]).map (fun t => (t.x, t.p.n, t.p.z)) =
    some (0xFF, true, false) := by decide

/-- A7. -/
theorem test_a7_ldx_zpy : (after { flat [(0x7F, 0x21)] with y := 0xFF } [0xB6, 0x80]).map (·.x) =
    some 0x21 := by decide

/-- T5. -/
theorem test_t5_ldx_abs : (after (flat [(0x200, 0x7F)]) [0xAE, 0x00, 0x02]).map
    (fun t => (t.x, t.p.z, t.p.n)) = some (0x7F, false, false) := by decide

/-- T4. -/
theorem test_t4_ldy_imm : (after (flat []) [0xA0, 0x00]).map (fun t => (t.y, t.p.z, t.p.n)) =
    some (0x00, true, false) := by decide

/-- E2, T6. -/
theorem test_e2_sta_zpx : (after { flat [] with a := 0x10, x := 0x03 } [0x95, 0x03]).map
    (fun t => (t.bus.peek 0x0006, t.pc, t.p)) =
    some (some 0x10, 0x0602, ⟨false, false, false, false, false, false⟩) := by decide

/-- T9: a store writes no flag. -/
theorem test_t9_sta_zp : (after (flat [(0x10, 0x55)]) [0x85, 0x10]).map (fun t => (t.bus.peek 0x10, t.p.z)) =
    some (some 0x00, false) := by decide

/-- P2: STA ($00),Y with the pointer 0x1234. -/
theorem test_p2_sta_izy : (after { flat [(0, 0x34), (1, 0x12)] with a := 0xAB, y := 0x02 } [0x91, 0x00]).map
    (fun t => t.bus.peek 0x1236) = some (some 0xAB) := by decide

/-- T7. -/
theorem test_t7_stx_zpy : (after { flat [] with x := 0x42, y := 0x01 } [0x96, 0xFF]).map
    (fun t => t.bus.peek 0x0000) = some (some 0x42) := by decide

/-- T8. -/
theorem test_t8_sty_abs : (after { flat [] with y := 0x07 } [0x8C, 0x00, 0x02]).map
    (fun t => t.bus.peek 0x0200) = some (some 0x07) := by decide

/-- T10. -/
theorem test_t10_tax : (after { flat [] with a := 0x80 } [0xAA]).map (fun t => (t.x, t.p.n, t.p.z)) =
    some (0x80, true, false) := by decide

/-- T11. -/
theorem test_t11_tay : (after { flat [] with y := 0x01 } [0xA8]).map (fun t => (t.y, t.p.z)) =
    some (0x00, true) := by decide

/-- T12. -/
theorem test_t12_txa : (after { flat [] with x := 0x7F } [0x8A]).map (fun t => (t.a, t.p.n, t.p.z)) =
    some (0x7F, false, false) := by decide

/-- T13. -/
theorem test_t13_tya : (after { flat [] with y := 0xFF } [0x98]).map (fun t => (t.a, t.p.n)) =
    some (0xFF, true) := by decide

/-- T14. -/
theorem test_t14_tsx : (after { flat [] with sp := 0xFD } [0xBA]).map (fun t => (t.x, t.p.n, t.p.z)) =
    some (0xFD, true, false) := by decide

/-- T15. -/
theorem test_t15_txs : (after { flat [] with p := ⟨false, false, false, false, false, true⟩ } [0x9A]).map
    (fun t => (t.sp, t.p.z, t.p.n)) = some (0x00, false, true) := by decide

/-! ### Arithmetic and logic -/

/-- R1. -/
theorem test_r1_adc_imm : (after { flat [] with a := 0x50 } [0x69, 0x50]).map
    (fun t => (t.a, t.p.c, t.p.v, t.p.n, t.p.z)) = some (0xA0, false, true, true, false) := by decide

/-- R12. -/
theorem test_r12_adc_izy : (after { flat [(0x20, 0xFF), (0x21, 0x1F), (0x2000, 0x02)] with a := 0x01, y := 0x01 }
    [0x71, 0x20]).map (·.a) = some 0x03 := by decide

/-- R2. -/
theorem test_r2_sbc_imm : (after { flat [] with a := 0x50, p := ⟨true, false, false, false, false, false⟩ }
    [0xE9, 0xF0]).map (fun t => (t.a, t.p.c, t.p.v, t.p.n, t.p.z)) =
    some (0x60, false, false, false, false) := by decide

/-- R3. -/
theorem test_r3_and_imm : (after { flat [] with a := 0xF0 } [0x29, 0x3C]).map (fun t => (t.a, t.p.z, t.p.n)) =
    some (0x30, false, false) := by decide

/-- R4. -/
theorem test_r4_and_imm : (after { flat [] with a := 0xFF, p := ⟨true, false, false, false, true, false⟩ }
    [0x29, 0x00]).map (fun t => (t.a, t.p.z, t.p.c, t.p.v)) = some (0x00, true, true, true) := by decide

/-- R5. -/
theorem test_r5_ora_imm : (after { flat [] with a := 0x01 } [0x09, 0x80]).map (fun t => (t.a, t.p.n, t.p.z)) =
    some (0x81, true, false) := by decide

/-- R6. -/
theorem test_r6_eor_imm : (after { flat [] with a := 0xAA } [0x49, 0xFF]).map (fun t => (t.a, t.p.n, t.p.z)) =
    some (0x55, false, false) := by decide

/-- R7. -/
theorem test_r7_cmp_imm : (after { flat [] with a := 0x10, p := ⟨false, false, false, false, true, false⟩ }
    [0xC9, 0x10]).map (fun t => (t.a, t.p.z, t.p.c, t.p.n, t.p.v)) =
    some (0x10, true, true, false, true) := by decide

/-- R8. -/
theorem test_r8_cpx_imm : (after { flat [] with x := 0x05 } [0xE0, 0x06]).map (fun t => (t.p.c, t.p.z, t.p.n)) =
    some (false, false, true) := by decide

/-- R9. -/
theorem test_r9_cpy_imm : (after { flat [] with y := 0xFF } [0xC0, 0x00]).map (fun t => (t.p.c, t.p.z, t.p.n)) =
    some (true, false, true) := by decide

/-- R10. -/
theorem test_r10_bit_zp : (after { flat [(0x10, 0xC0)] with a := 0x01 } [0x24, 0x10]).map
    (fun t => (t.a, t.p.z, t.p.n, t.p.v)) = some (0x01, true, true, true) := by decide

/-- R11. -/
theorem test_r11_bit_abs : (after { flat [(0x200, 0x3F)] with a := 0xFF, p := ⟨false, false, false, false, true, true⟩ }
    [0x2C, 0x00, 0x02]).map (fun t => (t.p.z, t.p.n, t.p.v)) = some (false, false, false) := by decide

/-! ### Increments, decrements, shifts and rotates -/

/-- S1. -/
theorem test_s1_inc_zp : (after { flat [(0x10, 0xFF)] with p := ⟨true, false, false, false, false, false⟩ }
    [0xE6, 0x10]).map (fun t => (t.bus.peek 0x10, t.p.z, t.p.n, t.p.c)) =
    some (some 0x00, true, false, true) := by decide

/-- S2. -/
theorem test_s2_inc_zp : (after (flat [(0x10, 0x7F)]) [0xE6, 0x10]).map (fun t => (t.bus.peek 0x10, t.p.n)) =
    some (some 0x80, true) := by decide

/-- S18. -/
theorem test_s18_inc_absx : (after { flat [(0x1300, 0x41)] with x := 0x01 } [0xFE, 0xFF, 0x12]).map
    (fun t => t.bus.peek 0x1300) = some (some 0x42) := by decide

/-- S3. -/
theorem test_s3_dec_abs : (after (flat [(0x200, 0x01)]) [0xCE, 0x00, 0x02]).map
    (fun t => (t.bus.peek 0x200, t.p.z)) = some (some 0x00, true) := by decide

/-- S4. -/
theorem test_s4_dec_zp : (after (flat []) [0xC6, 0x10]).map (fun t => (t.bus.peek 0x10, t.p.n, t.p.z)) =
    some (some 0xFF, true, false) := by decide

/-- S5. -/
theorem test_s5_inx : (after { flat [] with x := 0x7F } [0xE8]).map (fun t => (t.x, t.p.n)) =
    some (0x80, true) := by decide

/-- S6. -/
theorem test_s6_iny : (after { flat [] with y := 0xFF } [0xC8]).map (fun t => (t.y, t.p.z, t.p.n)) =
    some (0x00, true, false) := by decide

/-- S7. -/
theorem test_s7_dex : (after { flat [] with x := 0x01 } [0xCA]).map (fun t => (t.x, t.p.z)) =
    some (0x00, true) := by decide

/-- S8. -/
theorem test_s8_dey : (after (flat []) [0x88]).map (fun t => (t.y, t.p.n, t.p.z)) =
    some (0xFF, true, false) := by decide

/-- S9. -/
theorem test_s9_asl_acc : (after { flat [] with a := 0x41 } [0x0A]).map (fun t => (t.a, t.p.c, t.p.n)) =
    some (0x82, false, true) := by decide

/-- S10. -/
theorem test_s10_asl_zp : (after (flat [(0x10, 0xC0)]) [0x06, 0x10]).map
    (fun t => (t.bus.peek 0x10, t.p.c, t.p.n)) = some (some 0x80, true, true) := by decide

/-- S11. -/
theorem test_s11_lsr_acc : (after { flat [] with a := 0x02 } [0x4A]).map
    (fun t => (t.a, t.p.c, t.p.z, t.p.n)) = some (0x01, false, false, false) := by decide

/-- S12. -/
theorem test_s12_lsr_acc : (after { flat [] with a := 0x01, p := ⟨false, false, false, false, false, true⟩ }
    [0x4A]).map (fun t => (t.a, t.p.c, t.p.z, t.p.n)) = some (0x00, true, true, false) := by decide

/-- S13. -/
theorem test_s13_lsr_zp : (after (flat [(0x10, 0x81)]) [0x46, 0x10]).map
    (fun t => (t.bus.peek 0x10, t.p.c, t.p.n)) = some (some 0x40, true, false) := by decide

/-- S14. -/
theorem test_s14_rol_acc : (after { flat [] with a := 0x80, p := ⟨true, false, false, false, false, false⟩ }
    [0x2A]).map (fun t => (t.a, t.p.c, t.p.n, t.p.z)) = some (0x01, true, false, false) := by decide

/-- S15. -/
theorem test_s15_rol_zp : (after (flat [(0x10, 0x40)]) [0x26, 0x10]).map
    (fun t => (t.bus.peek 0x10, t.p.c, t.p.n)) = some (some 0x80, false, true) := by decide

/-- S16. -/
theorem test_s16_ror_acc : (after { flat [] with a := 0x02, p := ⟨true, false, false, false, false, false⟩ }
    [0x6A]).map (fun t => (t.a, t.p.c, t.p.n)) = some (0x81, false, true) := by decide

/-- S17. -/
theorem test_s17_ror_zp : (after (flat [(0x10, 0x01)]) [0x66, 0x10]).map
    (fun t => (t.bus.peek 0x10, t.p.c, t.p.z)) = some (some 0x00, true, true) := by decide

/-! ### Branches -/

/-- B1. -/
theorem test_b1_bpl : (after { flat [] with pc := 0x8000 } [0x10, 0x05]).map (·.pc) = some 0x8007 := by decide

/-- B2. -/
theorem test_b2_bmi : (after { flat [] with pc := 0x8000 } [0x30, 0x05]).map (·.pc) = some 0x8002 := by decide

/-- B3. -/
theorem test_b3_bvc : (after { flat [] with pc := 0x8000 } [0x50, 0xFC]).map (·.pc) = some 0x7FFE := by decide

/-- B4. -/
theorem test_b4_bvs : (after { flat [] with pc := 0x8000, p := ⟨false, false, false, false, true, false⟩ }
    [0x70, 0x00]).map (·.pc) = some 0x8002 := by decide

/-- B5. -/
theorem test_b5_bcc : (after { flat [] with pc := 0x8000 } [0x90, 0x80]).map (·.pc) = some 0x7F82 := by decide

/-- B6. -/
theorem test_b6_bcs : (after { flat [] with pc := 0x8000, p := ⟨true, false, false, false, false, false⟩ }
    [0xB0, 0x7F]).map (·.pc) = some 0x8081 := by decide

/-- B7. -/
theorem test_b7_bne : (after { flat [] with pc := 0x060A } [0xD0, 0xF8]).map (·.pc) = some 0x0604 := by decide

/-- B10. -/
theorem test_b10_bne : (after { flat [] with pc := 0xFFF0 } [0xD0, 0x7F]).map (·.pc) = some 0x0071 := by decide

/-- B8. -/
theorem test_b8_beq : (after { flat [] with pc := 0x8000, p := ⟨false, true, false, false, false, false⟩ }
    [0xF0, 0x10]).map (·.pc) = some 0x8012 := by decide

/-- B11: with STUCK_PC_CHECK. -/
theorem test_b11_beq : faultOf { flat [] with p := ⟨false, true, false, false, false, false⟩, params := { Params.default with stuckPcCheck := true } }
    [0xF0, 0xFE] = some (.stuckPc 0x0600) := by decide

/-! ### Control transfer -/

/-- J1. -/
theorem test_j1_jmp_abs : (after (flat []) [0x4C, 0x34, 0x12]).map (·.pc) = some 0x1234 := by decide

/-- X8. -/
theorem test_x8_jmp_abs : faultOf { flat [] with params := { Params.default with stuckPcCheck := true } }
    [0x4C, 0x00, 0x06] = some (.stuckPc 0x0600) := by decide

/-- A12: the pointer's high byte comes from 0x1100. -/
theorem test_a12_jmp_ind : (after (flat [(0x10FF, 0x34), (0x1100, 0x12), (0x1000, 0x99)])
    [0x6C, 0xFF, 0x10]).map (·.pc) = some 0x1234 := by decide

/-- J2. -/
theorem test_j2_jmp_ind : (after (flat [(0x301, 0x80)]) [0x6C, 0x00, 0x03]).map (·.pc) = some 0x8000 := by
  decide

/-- J3, E3. -/
theorem test_j3_jsr : (after { flat [] with pc := 0x8000 } [0x20, 0x00, 0x90]).map
    (fun t => (t.bus.peek 0x1FF, t.bus.peek 0x1FE, t.sp, t.pc)) =
    some (some 0x80, some 0x02, 0xFD, 0x9000) := by decide

/-- J5: the stack wraps. -/
theorem test_j5_jsr : (after { flat [] with pc := 0x8000, sp := 0x00 } [0x20, 0x00, 0x90]).map
    (fun t => (t.bus.peek 0x100, t.bus.peek 0x1FF, t.sp)) = some (some 0x80, some 0x02, 0xFE) := by decide

/-- J4. -/
theorem test_j4_rts : (after { flat [(0x1FE, 0x02), (0x1FF, 0x80)] with sp := 0xFD } [0x60]).map
    (fun t => (t.pc, t.sp)) = some (0x8003, 0xFF) := by decide

/-- J6. -/
theorem test_j6_rti : (after { flat [(0x1FD, 0x31), (0x1FE, 0x04), (0x1FF, 0x06)] with sp := 0xFC } [0x40]).map
    (fun t => (t.p, t.pc, t.sp)) = some (⟨true, false, false, false, false, false⟩, 0x0604, 0xFF) := by decide

/-- J7. -/
theorem test_j7_rti : (after { flat [(0x1FD, 0xFF), (0x1FF, 0x80)] with sp := 0xFC } [0x40]).map
    (fun t => (t.p, t.pc)) = some (⟨true, true, true, true, true, true⟩, 0x8000) := by decide

/-- J8. -/
theorem test_j8_brk : (after { flat [(0xFFFF, 0x07)] with pc := 0x0602 } [0x00, 0xEA]).map
    (fun t => (t.bus.peek 0x1FF, t.bus.peek 0x1FE, t.bus.peek 0x1FD, t.sp, t.p.i, t.pc)) =
    some (some 0x06, some 0x04, some 0x30, 0xFC, true, 0x0700) := by decide

/-- J9. -/
theorem test_j9_brk : (after { flat [(0xFFFF, 0x07)] with pc := 0x0602, p := ⟨true, false, false, true, false, true⟩ }
    [0x00, 0xEA]).map (fun t => (t.bus.peek 0x1FD, t.p.i)) = some (some 0xB9, true) := by decide

/-! ### Flags, stack and NOP -/

/-- F1. -/
theorem test_f1_clc : (after { flat [] with p := ⟨true, false, false, false, false, false⟩ } [0x18]).map
    (fun t => (t.p.c, t.pc)) = some (false, 0x0601) := by decide

/-- F2. -/
theorem test_f2_sec : (after (flat []) [0x38]).map (·.p.c) = some true := by decide

/-- F3. -/
theorem test_f3_cli : (after { flat [] with p := ⟨false, false, true, false, false, false⟩ } [0x58]).map (·.p.i) =
    some false := by decide

/-- F4. -/
theorem test_f4_sei : (after (flat []) [0x78]).map (·.p.i) = some true := by decide

/-- F5. -/
theorem test_f5_clv : (after { flat [] with p := ⟨false, false, false, false, true, false⟩ } [0xB8]).map (·.p.v) =
    some false := by decide

/-- F6. -/
theorem test_f6_cld : (after { flat [] with p := ⟨false, false, false, true, false, false⟩ } [0xD8]).map (·.p.d) =
    some false := by decide

/-- F7. -/
theorem test_f7_sed : (after (flat []) [0xF8]).map (·.p.d) = some true := by decide

/-- F8. -/
theorem test_f8_pha : (after { flat [] with a := 0xAB, sp := 0xFD } [0x48]).map
    (fun t => (t.bus.peek 0x1FD, t.sp)) = some (some 0xAB, 0xFC) := by decide

/-- M6: a push at SP = 0 wraps. -/
theorem test_m6_pha : (after { flat [] with a := 0xAB, sp := 0x00 } [0x48]).map
    (fun t => (t.bus.peek 0x100, t.sp)) = some (some 0xAB, 0xFF) := by decide

/-- F9. -/
theorem test_f9_pla : (after { flat [(0x1FD, 0xAB)] with sp := 0xFC } [0x68]).map
    (fun t => (t.a, t.sp, t.p.n, t.p.z)) = some (0xAB, 0xFD, true, false) := by decide

/-- F10, M7. -/
theorem test_f10_pla : (after { flat [] with a := 0x01 } [0x68]).map (fun t => (t.a, t.sp, t.p.z)) =
    some (0x00, 0x00, true) := by decide

/-- F11. -/
theorem test_f11_php : (after { flat [] with p := ⟨true, false, false, false, false, true⟩ } [0x08]).map
    (fun t => (t.bus.peek 0x1FF, t.sp)) = some (some 0xB1, 0xFE) := by decide

/-- F12. -/
theorem test_f12_php : (after (flat []) [0x08]).map (fun t => t.bus.peek 0x1FF) = some (some 0x30) := by decide

/-- F13. -/
theorem test_f13_plp : (after { flat [(0x1FF, 0xFF)] with sp := 0xFE } [0x28]).map (fun t => (t.p, t.sp)) =
    some (⟨true, true, true, true, true, true⟩, 0xFF) := by decide

/-- F14. -/
theorem test_f14_plp : (after { flat [(0x1FF, 0x30)] with sp := 0xFE, p := ⟨true, true, true, true, true, true⟩ }
    [0x28]).map (·.p) = some ⟨false, false, false, false, false, false⟩ := by decide

/-- F15. -/
theorem test_f15_nop : (after (flat []) [0xEA]).map (fun t => (t.pc, t.p, t.a, t.sp)) =
    some (0x0601, ⟨false, false, false, false, false, false⟩, 0x00, 0xFF) := by decide

/-- A17. -/
theorem test_a17_nop : (after { flat [] with pc := 0xFFFF } [0xEA]).map (·.pc) = some 0x0000 := by decide

/-! ### Memory, bus and mapper -/

/-- M1. -/
theorem test_m1_mirror : ((writes [(0x0801, 0x55)]).peek 0x0001, (writes [(0x0801, 0x55)]).peek 0x1801) =
    (some 0x55, some 0x55) := by decide

/-- M2. -/
theorem test_m2_open_bus : ((writes [(0x2000, 0x12)]).peek 0x2000, (writes [(0x2000, 0x12)]).peek 0x5FFF) =
    (some 0x00, some 0x00) := by decide

/-- M3, M4. -/
theorem test_m3_cartridge_ram : ((writes [(0x6000, 0x77)]).peek 0x6000,
    ((Bus.mmc1 (MapperState.powerOn Params.default) ⟨[], 0x8000, false⟩).write 0x6000 0x77).peek 0x6000) =
    (some 0x77, some 0x00) := by decide

/-- M5, K8. -/
theorem test_m5_k8_shift : registers (writes [(0x8000, 0x01)]) = [1, 1, 0x0C, 0, 0, 0] ∧
    registers (writes [(0xE000, 0xFE), (0xE000, 0x7F)]) = [1, 1, 0x0C, 0, 0, 0] := by decide

/-- M8. -/
theorem test_m8_read_word_wraps :
    (match memReadWord 0xFFFF (flat [(0xFFFF, 0x34), (0, 0x12)]) with | .ok w _ => w | .raise _ => 0) =
      0x1234 := by decide

/-- M9. -/
theorem test_m9_clear_ram :
    let b := (clearRam { flat [] with bus := writes [(0x0801, 0x55), (0x6000, 0x77), (0x8000, 0x01)] }).bus
    (b.peek 0x0001, b.peek 0x6000, registers b) = (some 0, some 0, [1, 1, 0x0C, 0, 0, 0]) := by decide

/-- K1, K5. -/
theorem test_k1_k5_commit :
    registers (writes [(0xE000, 1), (0xE000, 0), (0xE000, 1), (0xE000, 0), (0xE000, 1)]) =
      [0, 0, 0x0C, 0, 0, 0x15] ∧
    registers (writes [(0xC000, 0), (0xC000, 0), (0xC000, 0), (0xC000, 0), (0xC000, 1)]) =
      [0, 0, 0x0C, 0, 0x10, 0] := by decide

/-- K3, K4. -/
theorem test_k3_k4_commit :
    registers (writes [(0x8000, 0), (0x8000, 1), (0x8000, 1), (0x8000, 1), (0x8000, 0)]) =
      [0, 0, 0x0E, 0, 0, 0] ∧
    registers (writes [(0x8000, 1), (0x8000, 1), (0x8000, 1), (0x8000, 1), (0xA000, 1)]) =
      [0, 0, 0x0C, 0x1F, 0, 0] := by decide

/-- E4 as written, and corrected (K2). -/
theorem test_e4_commit :
    registers (writes [(0x8000, 0), (0x8000, 0), (0x8000, 0), (0x8000, 0), (0x8000, 0x10)]) =
      [0, 0, 0x00, 0, 0, 0] ∧
    registers (writes [(0x8000, 0), (0x8000, 0), (0x8000, 1), (0x8000, 1), (0x8000, 0)]) =
      [0, 0, 0x0C, 0, 0, 0] := by decide

/-- K6, K7. -/
theorem test_k6_k7_protocol_reset :
    registers (writes [(0xE000, 1), (0xE000, 1), (0x8000, 0x80)]) = [0, 0, 0x0C, 0, 0, 0] ∧
    registers (writes [(0xE000, 1), (0xE000, 1), (0xE000, 0x80), (0xE000, 0), (0xE000, 0), (0xE000, 0),
      (0xE000, 0), (0xE000, 1)]) = [0, 0, 0x0C, 0, 0, 0x10] := by decide

/-- control, prg, address, offset in an image of 0x20000 bytes. -/
def offsetRow (r : BitVec 5 × BitVec 5 × Addr × Nat) : Bool :=
  prgOffset { MapperState.powerOn Params.default with control := r.1, prg := r.2.1 } 0x20000 r.2.2.1 == r.2.2.2

/-- K11 to K20. -/
theorem test_offset_vectors : allOk offsetRow
  [(0x0C, 0x02, 0x8000, 0x08000), (0x0C, 0x02, 0xC000, 0x1C000), (0x0C, 0x02, 0xFFFC, 0x1FFFC),
   (0x08, 0x05, 0x8123, 0x00123), (0x08, 0x05, 0xC000, 0x14000), (0x00, 0x05, 0x8000, 0x10000),
   (0x04, 0x07, 0xFFFF, 0x1FFFF), (0x0C, 0x12, 0x8000, 0x08000), (0x0C, 0x08, 0x8000, 0x20000),
   (0x0C, 0x0F, 0xBFFF, 0x3FFFF)] = true := by decide

/-! ### Interrupts, faults and the run loop -/

/-- X2. -/
theorem test_x2_irq :
    let t := (triggerIrq { flat [(0xFFFF, 0x07)] with p := ⟨true, false, false, false, false, false⟩ }).1
    (t.bus.peek 0x1FF, t.bus.peek 0x1FE, t.bus.peek 0x1FD, t.sp, t.pc, t.p.i) =
      (some 0x06, some 0x00, some 0x31, 0xFC, 0x0700, false) := by decide

/-- X3. -/
theorem test_x3_nmi :
    let t := (triggerNmi { flat [(0xFFFB, 0x05)] with p := ⟨false, false, true, false, false, false⟩ }).1
    (t.bus.peek 0x1FD, t.sp, t.pc) = (some 0x34, 0xFC, 0x0500) := by decide

/-- X4. -/
theorem test_x4_reset :
    let t := (triggerReset { flat [(0xFFFD, 0x06)] with pc := 0x1234 }).1
    (t.bus.peek 0x1FF, t.bus.peek 0x1FE, t.bus.peek 0x1FD, t.sp, t.pc, t.p.i) =
      (some 0x12, some 0x34, some 0x30, 0xFC, 0x0600, false) := by decide

/-- X6. -/
theorem test_x6_unimplemented : faultOf (flat []) [0x02] = some (.unimplementedOpcode 0x0600 0x02) := by decide

/-- X6, as the host sees it: the faulting step is not counted. -/
theorem test_x6_steps : (match hostStep { flat [(0x600, 0x02)] with steps := 5 } with
    | (t, f) => (t.steps, t.run, f)) =
      (5, .faulted (.unimplementedOpcode 0x0600 0x02), some (.unimplementedOpcode 0x0600 0x02)) := by rfl

/-- X8, as the host sees it: the step is counted before the fault. -/
theorem test_x8_steps : (match hostStep { flat [(0x600, 0x4C), (0x602, 0x06)] with
      params := { Params.default with stuckPcCheck := true } } with
    | (t, f) => (t.steps, t.run, f)) =
      (1, .faulted (.stuckPc 0x0600), some (.stuckPc 0x0600)) := by rfl

/-- X9. -/
theorem test_x9_overflow : faultOf { mapped 0x8000 0x0C 0x02 with pc := 0xC000 } [0xAD, 0x00, 0x80] =
    some (.mapperOffsetOverflow 0x8000 0x8000 0xC000) := by decide

/-- X12. -/
theorem test_x12_halt_before_run :
    (match hostRun 5 (hostHalt (flat [])) with
      | .halted t => (t.haltReq, decide (t.run = .halted), t.pc)
      | _ => (true, false, 0)) = (false, true, 0x0600) := by decide

/-- X13. -/
theorem test_x13_step_while_halted : (match step ((flat [(0x600, 0xE8)]).setRun .halted) with
    | .next t => some (t.x, t.pc, t.run)
    | _ => none) = some (0x01, 0x0601, .running) := by decide

/-! ### Witnesses: for each statement with hypotheses, a state and operands that meet them -/

/-- A FlatBus machine about to run a program that stops nowhere: LDA #$01 at 0x0600. -/
def ready : State := flat [(0x600, 0xA9), (0x601, 0x01)]

/-- A breakpoint entry on every event at an address. -/
def watch (a : Addr) : Breakpoint := ⟨a, "watch", ⟨true, true, true⟩, 7⟩

theorem witness_DecodeOfEncodeIsTheInstruction : (Instr.staAbs 0xFFFF).WellFormed := trivial

theorem witness_DecodedBytesAreTheEncoding :
    decode [0xA9, 0xFF, 0xEA] = .ok (.ldaImm 0xFF, [0xEA]) ∧ decode [0x00, 0x55] = .ok (.brk, []) := ⟨rfl, rfl⟩

theorem witness_UnimplementedBytesFault :
    (flat [(0x600, 0x02)]).run = .running ∧
    (∃ t, fetchByte (flat [(0x600, 0x02)]).pc (flat [(0x600, 0x02)]) = .ok 0x02 t) ∧
    (0x02 : Byte) ∈ unimplementedBytes ∧ (∃ t, fetchByte ready.pc ready = .ok 0xA9 t) :=
  ⟨rfl, ⟨_, rfl⟩, by decide, ⟨_, rfl⟩⟩

theorem witness_StepRunsTheDecodedInstruction :
    ready.run = .running ∧ decode [0xA9, 0x01] = .ok (.ldaImm 0x01, []) ∧
    ready.bus.Holds ready.pc [0xA9, 0x01] := ⟨rfl, rfl, rfl, rfl, trivial⟩

theorem witness_StepRunsTheDecodedInstruction_halted :
    (ready.setRun .halted).run = .halted ∧ decode [0xA9, 0x01] = .ok (.ldaImm 0x01, []) ∧
    (ready.setRun .halted).bus.Holds (ready.setRun .halted).pc [0xA9, 0x01] := ⟨rfl, rfl, rfl, rfl, trivial⟩

theorem witness_StepRunsTheDecodedInstruction_brk :
    (flat []).run = .running ∧ (flat []).bus.peek (flat []).pc = some 0x00 := ⟨rfl, rfl⟩

theorem witness_StandardShapesAdvancePc :
    (∃ d t, (Instr.ldaImm 1).descriptor = some d ∧ d.shape = .standard ∧
      exec (.ldaImm 1) { flat [] with pc := 0xFFFF } = .next t) ∧
    (∃ d t, (Instr.incZp 1).descriptor = some d ∧ d.shape = .readModifyWrite ∧
      exec (.incZp 1) { flat [] with pc := 0xFFFE } = .next t) :=
  ⟨⟨_, _, rfl, rfl, rfl⟩, ⟨_, _, rfl, rfl, rfl⟩⟩

/-- JMP $0600 at 0x0600 with the stuck-PC check. -/
def spinning : State :=
  { flat [(0x600, 0x4C), (0x602, 0x06)] with params := { Params.default with stuckPcCheck := true } }

theorem witness_StuckPcIsRaisedExactlyWhenPcStays :
    spinning.run = .running ∧
    (∃ t u, fetchInstr spinning = .ok (.jmpAbs 0x0600) t ∧ exec (.jmpAbs 0x0600) t = .next u) ∧
    step spinning = .fault (.stuckPc 0x0600) := ⟨rfl, ⟨_, _, rfl, rfl⟩, rfl⟩

theorem witness_EffectiveAddresses :
    Bus.WordAt (flat [(0x100, 0x20)]).bus
      (BitVec.ofNat 16 (((0xFE : Byte).toNat + (0x01 : Byte).toNat) % 256)) 0x2000 ∧
    Bus.WordAt (flat [(0xFF, 0xFF), (0x100, 0xFF)]).bus (BitVec.ofNat 16 (0xFF : Byte).toNat) 0xFFFF :=
  ⟨⟨0, 0x20, rfl, rfl, rfl⟩, ⟨0xFF, 0xFF, rfl, rfl, rfl⟩⟩

theorem witness_OperandReadsAreTheBusBytes :
    (∃ u, effectiveAddress (.abs 0x8000) (mapped 0x8000 0x0C 1) = .ok 0x8000 u) ∧
    (mapped 0x8000 0x0C 1).bus.peek 0x8000 = some 0 ∧
    (∃ u, effectiveAddress (.abs 0x8000) (mapped 0x8000 0x0C 2) = .ok 0x8000 u) ∧
    (mapped 0x8000 0x0C 2).bus.peek 0x8000 = none := ⟨⟨_, rfl⟩, rfl, ⟨_, rfl⟩, rfl⟩

theorem witness_BreakpointAnswersItsEvent : (ready.setBp [watch 0x600]).bp = [watch 0x600] := rfl

theorem witness_EventsBracketTheirAccess :
    (ready.setBp [watch 0x600, watch 0x600]).bus.peek 0x600 = some 0xA9 ∧
    (∃ m cart, (mapped 0x8000 0x0C 2).bus = .mmc1 m cart) ∧ (mapped 0x8000 0x0C 2).bus.peek 0x8000 = none :=
  ⟨rfl, ⟨_, _, rfl⟩, rfl⟩

theorem witness_FlatBusStepsAreSafe :
    (∃ m, ready.bus = .flat m ∧ Memory.read m ready.pc.toNat ∉ unimplementedBytes) ∧
    ready.run = .running ∧ ready.params.stuckPcCheck = false :=
  ⟨⟨_, rfl, by decide⟩, rfl, rfl⟩

theorem witness_InstructionsFaultOnlyByOverflow :
    exec (.ldaAbs 0x8000) (mapped 0x8000 0x0C 2) = .fault (.mapperOffsetOverflow 0x8000 0x8000 0x600) := rfl

theorem witness_RegistersChangeOnlyByTheirWriters : ∃ t, exec .nop (flat []) = .next t := ⟨_, rfl⟩

/-- Whether an instruction completes. -/
def completes (i : Instr) (s : State) : Bool :=
  match exec i s with
  | .next _ => true
  | _ => false

theorem witness_MemoryChangesOnlyAtStoreTargets :
    completes (.ldaZp 0x10) (flat []) = true ∧ storeTargets (.ldaZp 0x10) (flat []) = [] ∧
    completes (.staZp 0x10) (flat []) = true ∧ storeTargets (.staZp 0x10) (flat []) = [0x10] ∧
    (flat []).bus.sameByte 0x10 0x11 = false ∧ (flat []).bus.isPort 0x10 = false := by decide

theorem witness_MemoryChangesOnlyAtStoreTargets_port :
    completes (.staAbs 0x8000) (mapped 0x8000 0x0C 0) = true ∧
    storeTargets (.staAbs 0x8000) (mapped 0x8000 0x0C 0) = [0x8000] ∧
    (mapped 0x8000 0x0C 0).bus.sameByte 0x8000 0x7FFF = false ∧ (0x7FFF : Addr).toNat < 0x8000 := by decide

theorem witness_MapperRegistersChangeOnlyByWindowStores :
    (∃ m cart, (mapped 0x8000 0x0C 0).bus = .mmc1 m cart) ∧
    completes (.staAbs 0x7FFF) (mapped 0x8000 0x0C 0) = true ∧
    storeTargets (.staAbs 0x7FFF) (mapped 0x8000 0x0C 0) = [0x7FFF] ∧ (0x7FFF : Addr).toNat < 0x8000 :=
  ⟨⟨_, _, rfl⟩, by decide, by decide, by decide⟩

theorem witness_LoadsPutTheOperandInTheRegister :
    (∃ v t, (Instr.ldaAbsx 0xFFFF).operand = some (.mem (.absx 0xFFFF)) ∧
      readOperand (.mem (.absx 0xFFFF)) { flat [] with x := 0xFF } = .ok v t) ∧
    (∃ v t, (Instr.ldxImm 0x80).operand = some (.imm 0x80) ∧ readOperand (.imm 0x80) (flat []) = .ok v t) ∧
    (∃ v t, (Instr.ldyZpx 0xFF).operand = some (.mem (.zpx 0xFF)) ∧
      readOperand (.mem (.zpx 0xFF)) { flat [] with x := 0xFF } = .ok v t) :=
  ⟨⟨_, _, rfl, rfl⟩, ⟨_, _, rfl, rfl⟩, ⟨_, _, rfl, rfl⟩⟩

theorem witness_LoadsPutTheOperandInTheRegister_fault :
    (∃ f, (Instr.ldaAbs 0xBFFF).operand = some (.mem (.abs 0xBFFF)) ∧
      readOperand (.mem (.abs 0xBFFF)) (mapped 0x8000 0x0C 0x0F) = .raise f) ∧
    (∃ f, (Instr.ldxAbs 0x8000).operand = some (.mem (.abs 0x8000)) ∧
      readOperand (.mem (.abs 0x8000)) (mapped 0x8000 0x0C 2) = .raise f) ∧
    (∃ f, (Instr.ldyAbs 0x8000).operand = some (.mem (.abs 0x8000)) ∧
      readOperand (.mem (.abs 0x8000)) (mapped 0x8000 0x0C 2) = .raise f) :=
  ⟨⟨_, rfl, rfl⟩, ⟨_, rfl, rfl⟩, ⟨_, rfl, rfl⟩⟩

theorem witness_StoresWriteTheRegister :
    ((Instr.staIzy 0xFF).operand = some (.mem (.izy 0xFF)) ∧ (Instr.staIzy 0xFF).mnemonic = .sta) ∧
    ((Instr.stxZpy 0xFF).operand = some (.mem (.zpy 0xFF)) ∧ (Instr.stxZpy 0xFF).mnemonic = .stx) ∧
    ((Instr.styAbs 0xFFFF).operand = some (.mem (.abs 0xFFFF)) ∧ (Instr.styAbs 0xFFFF).mnemonic = .sty) :=
  ⟨⟨rfl, rfl⟩, ⟨rfl, rfl⟩, ⟨rfl, rfl⟩⟩

theorem witness_AdcAddsWithCarry :
    (∃ v t, (Instr.adcImm 0xFF).operand = some (.imm 0xFF) ∧
      readOperand (.imm 0xFF) { flat [] with a := 0xFF } = .ok v t) ∧
    (∃ f, (Instr.adcAbs 0x8000).operand = some (.mem (.abs 0x8000)) ∧
      readOperand (.mem (.abs 0x8000)) (mapped 0x8000 0x0C 2) = .raise f) :=
  ⟨⟨_, _, rfl, rfl⟩, ⟨_, rfl, rfl⟩⟩

theorem witness_SbcSubtractsWithBorrow :
    (∃ v t, (Instr.sbcImm 0xFF).operand = some (.imm 0xFF) ∧
      readOperand (.imm 0xFF) { flat [] with a := 0x00 } = .ok v t) ∧
    (∃ f, (Instr.sbcAbs 0x8000).operand = some (.mem (.abs 0x8000)) ∧
      readOperand (.mem (.abs 0x8000)) (mapped 0x8000 0x0C 2) = .raise f) :=
  ⟨⟨_, _, rfl, rfl⟩, ⟨_, rfl, rfl⟩⟩

theorem witness_SbcUndoesAdc : ∃ t u, exec (.adcImm 0xFF) (flat []) = .next t ∧
    exec (.sbcImm 0xFF) (t.setP { t.p with c := !(flat []).p.c }) = .next u := ⟨_, _, rfl, rfl⟩

theorem witness_LogicCombinesBits :
    (∃ v t, (Instr.andImm 0xFF).operand = some (.imm 0xFF) ∧ readOperand (.imm 0xFF) (flat []) = .ok v t) ∧
    (∃ v t, (Instr.oraZp 0xFF).operand = some (.mem (.zp 0xFF)) ∧
      readOperand (.mem (.zp 0xFF)) (flat []) = .ok v t) ∧
    (∃ v t, (Instr.eorImm 0).operand = some (.imm 0) ∧ readOperand (.imm 0) (flat []) = .ok v t) ∧
    (∃ f, (Instr.andAbs 0x8000).operand = some (.mem (.abs 0x8000)) ∧
      readOperand (.mem (.abs 0x8000)) (mapped 0x8000 0x0C 2) = .raise f) :=
  ⟨⟨_, _, rfl, rfl⟩, ⟨_, _, rfl, rfl⟩, ⟨_, _, rfl, rfl⟩, ⟨_, rfl, rfl⟩⟩

theorem witness_ComparesSetFlagsOnly :
    (∃ v t, (Instr.cmpImm 0).operand = some (.imm 0) ∧ readOperand (.imm 0) (flat []) = .ok v t) ∧
    (∃ v t, (Instr.cpxImm 0xFF).operand = some (.imm 0xFF) ∧ readOperand (.imm 0xFF) (flat []) = .ok v t) ∧
    (∃ v t, (Instr.cpyZp 0xFF).operand = some (.mem (.zp 0xFF)) ∧
      readOperand (.mem (.zp 0xFF)) (flat []) = .ok v t) ∧
    (∃ f, (Instr.cmpAbs 0x8000).operand = some (.mem (.abs 0x8000)) ∧
      readOperand (.mem (.abs 0x8000)) (mapped 0x8000 0x0C 2) = .raise f) :=
  ⟨⟨_, _, rfl, rfl⟩, ⟨_, _, rfl, rfl⟩, ⟨_, _, rfl, rfl⟩, ⟨_, rfl, rfl⟩⟩

theorem witness_BitTestsTheOperand :
    (∃ v t, (Instr.bitAbs 0xFFFF).operand = some (.mem (.abs 0xFFFF)) ∧
      readOperand (.mem (.abs 0xFFFF)) (flat []) = .ok v t) ∧
    (∃ f, (Instr.bitAbs 0x8000).operand = some (.mem (.abs 0x8000)) ∧
      readOperand (.mem (.abs 0x8000)) (mapped 0x8000 0x0C 2) = .raise f) :=
  ⟨⟨_, _, rfl, rfl⟩, ⟨_, rfl, rfl⟩⟩

theorem witness_IncDecModifyMemory :
    (∃ ea v t u, (Instr.incAbs 0xFFFF).operand = some (.mem (.abs 0xFFFF)) ∧
      effectiveAddress (.abs 0xFFFF) (flat []) = .ok ea t ∧
      readOperand (.mem (.abs 0xFFFF)) (flat []) = .ok v u) ∧
    (∃ ea v t u, (Instr.decZpx 0xFF).operand = some (.mem (.zpx 0xFF)) ∧
      effectiveAddress (.zpx 0xFF) (flat []) = .ok ea t ∧
      readOperand (.mem (.zpx 0xFF)) (flat []) = .ok v u) ∧
    (∃ f, (Instr.decAbs 0x8000).operand = some (.mem (.abs 0x8000)) ∧
      readOperand (.mem (.abs 0x8000)) (mapped 0x8000 0x0C 2) = .raise f) :=
  ⟨⟨_, _, _, _, rfl, rfl, rfl⟩, ⟨_, _, _, _, rfl, rfl, rfl⟩, ⟨_, rfl, rfl⟩⟩

theorem witness_AccumulatorShifts : Instr.aslAcc.mode = .acc ∧ Instr.lsrAcc.mode = .acc ∧
    Instr.rolAcc.mode = .acc ∧ Instr.rorAcc.mode = .acc := ⟨rfl, rfl, rfl, rfl⟩

theorem witness_MemoryShifts :
    (∃ ea v t u, (Instr.aslZp 0xFF).operand = some (.mem (.zp 0xFF)) ∧
      effectiveAddress (.zp 0xFF) (flat [(0xFF, 0x80)]) = .ok ea t ∧
      readOperand (.mem (.zp 0xFF)) (flat [(0xFF, 0x80)]) = .ok v u) ∧
    (∃ ea v t u, (Instr.rorAbsx 0xFFFF).operand = some (.mem (.absx 0xFFFF)) ∧
      effectiveAddress (.absx 0xFFFF) { flat [] with x := 0x01 } = .ok ea t ∧
      readOperand (.mem (.absx 0xFFFF)) { flat [] with x := 0x01 } = .ok v u) ∧
    (∃ f, (Instr.lsrAbs 0x8000).operand = some (.mem (.abs 0x8000)) ∧
      readOperand (.mem (.abs 0x8000)) (mapped 0x8000 0x0C 2) = .raise f) :=
  ⟨⟨_, _, _, _, rfl, rfl, rfl⟩, ⟨_, _, _, _, rfl, rfl, rfl⟩, ⟨_, rfl, rfl⟩⟩

theorem witness_JmpLoadsPc : Bus.WordAt (flat [(0xFFFF, 0x34), (0, 0x12)]).bus 0xFFFF 0x1234 ∧
    (∃ m cart, (mapped 0x8000 0x08 2).bus = .mmc1 m cart) ∧
    (mapped 0x8000 0x08 2).bus.WordFails 0xC000 0xC000 ∧
    (mapped 0x8000 0x08 2).bus.WordFails 0xBFFF 0xC000 :=
  ⟨⟨0x34, 0x12, rfl, rfl, rfl⟩, ⟨_, _, rfl⟩, .inl ⟨rfl, rfl⟩, .inr ⟨by decide, rfl, rfl⟩⟩

theorem witness_RtsUndoesJsr : ∃ t, { flat [] with sp := 0x00 }.Inv ∧
    exec (.jsr 0x9000) { flat [] with sp := 0x00 } = .next t := ⟨_, rfl, rfl⟩

theorem witness_BrkEntersTheIrqHandler :
    ((flat [(0xFFFF, 0x07)]).bus.pushed (flat []).sp (entryBytes ((flat []).pc + 2) (flat []))).WordAt
      (flat []).params.vecIrq 0x0700 ∧
    (∃ m cart, (mapped 0x8000 0x08 2).bus = .mmc1 m cart) ∧
    ((mapped 0x8000 0x08 2).bus.pushed 0xFF (entryBytes 0x0602 (mapped 0x8000 0x08 2))).WordFails
      (mapped 0x8000 0x08 2).params.vecIrq 0xFFFE :=
  ⟨⟨0x00, 0x07, rfl, rfl, rfl⟩, ⟨_, _, rfl⟩, .inl ⟨rfl, rfl⟩⟩

theorem witness_RtiUndoesBrk : ∃ t, { flat [] with sp := 0x01 }.Inv ∧
    { flat [] with sp := 0x01 }.params.WellFormed ∧ exec .brk { flat [] with sp := 0x01 } = .next t :=
  ⟨_, rfl, by decide, rfl⟩

theorem witness_PullsUndoPushes : ∃ t u, { flat [] with sp := 0x00 }.Inv ∧
    { flat [] with sp := 0x00 }.params.WellFormed ∧ exec .php { flat [] with sp := 0x00 } = .next t ∧
    exec .pha { flat [] with sp := 0x00 } = .next u := ⟨_, _, rfl, by decide, rfl, rfl⟩

theorem witness_UnpackInvertsPack : (0x30 : Byte) &&& 0xCF = 0 := by decide

theorem witness_FlatBusIsRam : (Bus.flat [(0xFFFF, 0x01)]).wf = true := rfl

theorem witness_Mmc1AddressMap :
    (∃ m cart, (mapped 0x8000 0x0C 0).bus = .mmc1 m cart ∧ (Bus.mmc1 m cart).wf = true ∧
      cart.prgRamPresent = true) ∧
    (Bus.mmc1 (MapperState.powerOn Params.default) ⟨[], 0x4000, false⟩).wf = true ∧
    (0x1FFF : Addr).toNat < 0x2000 ∧ (0x07FF : Addr).toNat < 0x2000 ∧
    (0x1FFF : Addr).toNat % 2048 = (0x07FF : Addr).toNat % 2048 ∧
    0x2000 ≤ (0x2000 : Addr).toNat ∧ (0x5FFF : Addr).toNat < 0x6000 ∧
    0x6000 ≤ (0x6000 : Addr).toNat ∧ (0x7FFF : Addr).toNat < 0x8000 :=
  ⟨⟨_, _, rfl, rfl, rfl⟩, rfl, by decide, by decide, by decide, by decide, by decide, by decide, by decide⟩

theorem witness_ProtocolReset : 0x8000 ≤ (0x8000 : Addr).toNat ∧ 128 ≤ (0x80 : Byte).toNat := by decide

theorem witness_FiveWritesCommit :
    (MapperState.powerOn Params.default).shift = 0 ∧ (MapperState.powerOn Params.default).count = 0 ∧
    (∀ a ∈ [(0x8000 : Addr), 0x9FFF, 0xA000, 0xBFFF, 0xFFFF], 0x8000 ≤ a.toNat) ∧
    (∀ v ∈ [(0x00 : Byte), 0x01, 0x7F, 0x7E, 0x10], v.toNat < 128) :=
  ⟨rfl, rfl, by simp, by simp⟩

theorem witness_PrgOffsetByMode : 0x8000 ≤ (0xBFFF : Addr).toNat ∧ 0x8000 ≤ (0xC000 : Addr).toNat ∧
    (0x4000 : Nat) ≤ 0x4000 := by decide

/-- A machine whose image ends its lower window with an LDA and has no upper window (mode 2, bank 2). -/
def edge (off : Nat) (op : Byte) (pc : Addr) : State :=
  { mapped 0x8000 0x08 2 with
    pc := pc, bus := .mmc1 { MapperState.powerOn Params.default with control := 0x08, prg := 2 }
      ⟨[(off, op)], 0x8000, true⟩ }

theorem witness_CartridgeReads :
    (∃ m cart, (mapped 0x8000 0x0C 1).bus = .mmc1 m cart ∧ prgOffset m cart.romSize 0xBFFF < cart.romSize) ∧
    (∃ m cart, (mapped 0x8000 0x0C 2).bus = .mmc1 m cart ∧ cart.romSize ≤ prgOffset m cart.romSize 0x8000) ∧
    (edge 0x3FFF 0xA9 0xC000).bus.peek 0xC000 = none ∧
    ((edge 0x3FFF 0xA9 0xBFFF).bus.peek 0xBFFF = some 0xA9 ∧ (edge 0x3FFF 0xA9 0xBFFF).run = .running ∧
      (edge 0x3FFF 0xA9 0xBFFF).bus.peek 0xC000 = none ∧
      (descriptorOf 0xA9).map (fun d => d.mode.operandReads) = some 1) ∧
    ((edge 0x3FFE 0xAD 0xBFFE).bus.peek 0xBFFE = some 0xAD ∧
      (edge 0x3FFE 0xAD 0xBFFE).bus.peek 0xBFFF ≠ none ∧ (edge 0x3FFE 0xAD 0xBFFE).bus.peek 0xC000 = none ∧
      (descriptorOf 0xAD).map (fun d => d.mode.operandReads) = some 2) :=
  ⟨⟨_, _, rfl, by decide⟩, ⟨_, _, rfl, by decide⟩, by decide, ⟨by decide, rfl, by decide, by decide⟩,
    ⟨by decide, by decide, by decide, by decide⟩⟩

theorem witness_ResetAndNmiDeliver : (∀ f, (flat []).run ≠ .faulted f) ∧
    ((flat [(0xFFFD, 0x06)]).bus.pushed (flat []).sp (entryBytes (flat []).pc (flat []))).WordAt
      (flat []).params.vecReset 0x0600 ∧
    ((flat [(0xFFFB, 0x05)]).bus.pushed (flat []).sp (entryBytes (flat []).pc (flat []))).WordAt
      (flat []).params.vecNmi 0x0500 ∧
    (∀ f, (mapped 0x8000 0x08 2).run ≠ .faulted f) ∧
    (∃ m cart, (mapped 0x8000 0x08 2).bus = .mmc1 m cart) ∧
    ((mapped 0x8000 0x08 2).bus.pushed 0xFF (entryBytes 0x0600 (mapped 0x8000 0x08 2))).WordFails
      (mapped 0x8000 0x08 2).params.vecReset 0xFFFC ∧
    ((mapped 0x8000 0x08 2).bus.pushed 0xFF (entryBytes 0x0600 (mapped 0x8000 0x08 2))).WordFails
      (mapped 0x8000 0x08 2).params.vecNmi 0xFFFA :=
  ⟨fun _ h => (nomatch h), ⟨0x00, 0x06, rfl, rfl, rfl⟩, ⟨0x00, 0x05, rfl, rfl, rfl⟩,
    fun _ h => (nomatch h), ⟨_, _, rfl⟩, .inl ⟨rfl, rfl⟩, .inl ⟨rfl, rfl⟩⟩

theorem witness_IrqIsMaskedByI : (∀ f, (flat []).run ≠ .faulted f) ∧
    (flat []).params.irqMaskedByI = true ∧ (flat []).p.i = false ∧
    ((flat [(0xFFFF, 0x07)]).bus.pushed (flat []).sp (entryBytes (flat []).pc (flat []))).WordAt
      (flat []).params.vecIrq 0x0700 ∧
    ((flat []).setP ⟨false, false, true, false, false, false⟩).p.i = true ∧
    (∀ f, (mapped 0x8000 0x08 2).run ≠ .faulted f) ∧ (mapped 0x8000 0x08 2).p.i = false ∧
    (∃ m cart, (mapped 0x8000 0x08 2).bus = .mmc1 m cart) ∧
    ((mapped 0x8000 0x08 2).bus.pushed 0xFF (entryBytes 0x0600 (mapped 0x8000 0x08 2))).WordFails
      (mapped 0x8000 0x08 2).params.vecIrq 0xFFFE :=
  ⟨fun _ h => (nomatch h), rfl, rfl, ⟨0x00, 0x07, rfl, rfl, rfl⟩, rfl, fun _ h => (nomatch h), rfl,
    ⟨_, _, rfl⟩, .inl ⟨rfl, rfl⟩⟩

theorem witness_FaultedIsFinal :
    ((flat []).setRun (.faulted (.stuckPc 0x0600))).run = .faulted (.stuckPc 0x0600) ∧
    (∀ f, (flat [(0x600, 0x02)]).run ≠ .faulted f) ∧
    step (flat [(0x600, 0x02)]) = .fault (.unimplementedOpcode 0x0600 0x02) :=
  ⟨rfl, fun _ h => (nomatch h), rfl⟩

theorem witness_RunStopsAtBoundaries :
    (∀ f, (hostHalt ready).run ≠ .faulted f) ∧ (hostHalt ready).haltReq = true ∧
    (let budgeted := { ready with params := { Params.default with instrBudget := some 1 } }
     (∀ f, budgeted.run ≠ .faulted f) ∧ budgeted.params.instrBudget = some 1 ∧ budgeted.bp = [] ∧
     budgeted.haltReq = false ∧ (∃ t, hostRun 2 budgeted = .halted t) ∧
     ∃ t, hostRun 1 budgeted = .unfinished t) ∧
    ∃ f t, hostRun 1 (flat [(0x600, 0x02)]) = .faulted f t :=
  ⟨fun _ h => (nomatch h), rfl, ⟨fun _ h => (nomatch h), rfl, rfl, rfl, ⟨_, rfl⟩, ⟨_, rfl⟩⟩, ⟨_, _, rfl⟩⟩

theorem witness_ConstructionAndOffset :
    (∃ t, construct ⟨[], 0x4000, false⟩ Params.default = .ok t) ∧
    (∃ m cart, (mapped 0x8000 0x0C 0).bus = .mmc1 m cart) ∧ 0x8000 ≤ (0x8000 : Addr).toNat ∧
    (0x7FFF : Addr).toNat < 0x8000 := ⟨⟨_, rfl⟩, ⟨_, _, rfl⟩, by decide, by decide⟩

theorem witness_RegisterBreakpoint :
    (⟨true, false, false⟩ : EventMask) ≠ ⟨false, false, false⟩ ∧ (0x601 : Addr) ≠ 0x600 ∧
    (∀ e ∈ ready.bp, ¬(e.addr = 0x600 ∧ e.name = "watch")) ∧
    (ready.setBp [watch 0x5FF, watch 0x600]).bp = [watch 0x5FF] ++ watch 0x600 :: [] ∧
    (∀ e ∈ [watch 0x5FF], ¬(e.addr = 0x600 ∧ e.name = "watch")) := by decide

theorem witness_SnapshotsAndClearRam :
    (∃ m cart, (mapped 0x8000 0x0C 0).bus = .mmc1 m cart) ∧ (0x7FFF : Addr).toNat < 0x8000 ∧
    (∃ m, ready.bus = .flat m) := ⟨⟨_, _, rfl⟩, by decide, ⟨_, rfl⟩⟩

theorem witness_StepKeepsTheInvariant : ∃ t, ready.Inv ∧ step ready = .next t := ⟨_, rfl, rfl⟩

theorem witness_StepChangesNoParameter : ∃ t, step (mapped 0x8000 0x0C 0) = .next t := ⟨_, rfl⟩

end Sys2Proof.Tests
end

section
/-! SUPPORT. Construction by ROM size and the `offset` query (R8, R89, R380, R384). -/

namespace Sys2Proof.Machine

/-! ### Construction -/

/-- Construction answers the power-on machine for a legal ROM size, and nothing else (R384). -/
theorem construct_eq_ok_iff {cart : Cart} {params : Params} {t : State} :
    construct cart params = .ok t ↔ Cart.WellFormed cart ∧
      t = State.powerOnWith (.mmc1 (MapperState.powerOn params) cart) params := by
  unfold construct
  split
  · next h => rw [Except.ok.injEq, and_iff_right h, eq_comm]
  · next h => exact ⟨nofun, fun ⟨hwf, _⟩ => absurd hwf h⟩

theorem exists_construct_eq_ok_iff {cart : Cart} {params : Params} :
    (∃ t, construct cart params = .ok t) ↔ Cart.WellFormed cart := by
  simp only [construct_eq_ok_iff, exists_and_left, exists_eq, and_true]

/-- The PRG mode stands in control[3:2] at power-on, so as a number it counts fourfold (R41, R380). -/
theorem MapperState.powerOn_control (params : Params) :
    (MapperState.powerOn params).control = BitVec.ofNat 5 (4 * params.defaultPrgMode.toNat) := by
  have hmode : params.defaultPrgMode.toNat < 4 := params.defaultPrgMode.isLt
  apply BitVec.eq_of_toNat_eq
  simp only [MapperState.powerOn, BitVec.toNat_shiftLeft, BitVec.toNat_setWidth, BitVec.toNat_ofNat,
    Nat.shiftLeft_eq]
  omega

/-- The banking fields of the power-on mapper, its control register as a number. -/
theorem MapperState.powerOn_eq (params : Params) : MapperState.powerOn params =
    { shift := 0, count := 0, control := BitVec.ofNat 5 (4 * params.defaultPrgMode.toNat), chr0 := 0
      chr1 := 0, prg := 0, wram := [], prgRam := [] } := by
  rw [← MapperState.powerOn_control]
  rfl

/-! ### The offset query -/

variable {s : State} {m : MapperState} {cart : Cart} {a : Addr}

theorem hostOffset_of_cartStart_le (hbus : s.bus = .mmc1 m cart) (ha : Config.cartStart ≤ a.toNat) :
    hostOffset a s = if prgOffset m cart.romSize a < cart.romSize
      then .rom (prgOffset m cart.romSize a) else .overflow (prgOffset m cart.romSize a) := by
  simp only [hostOffset, hbus, if_neg (Nat.not_lt.mpr ha)]

theorem hostOffset_of_lt_cartStart (hbus : s.bus = .mmc1 m cart) (ha : a.toNat < Config.cartStart) :
    hostOffset a s = .notRom (Config.openFileOffset a) := by
  simp only [hostOffset, hbus, if_pos ha]

end Sys2Proof.Machine

namespace Sys2Proof.Certificates

open Sys2Proof.Machine

/-- Settles O54: construction answers exactly the power-on machine of a legal cartridge, and `offset`
splits at the start of the cartridge window. -/
theorem constructionAndOffset : Obligations.ConstructionAndOffset := by
  unfold Obligations.ConstructionAndOffset
  intro cart params m s a
  refine ⟨exists_construct_eq_ok_iff, fun t ht => ?_, hostOffset_of_cartStart_le,
    fun hbus ha => ⟨_, hostOffset_of_lt_cartStart hbus ha⟩⟩
  obtain ⟨-, rfl⟩ := construct_eq_ok_iff.mp ht
  rw [MapperState.powerOn_eq]
  exact ⟨rfl, rfl, rfl, rfl, rfl, [], [], rfl⟩

end Sys2Proof.Certificates
end

section
/-! SUPPORT. The status byte packed and unpacked, and the step of the stack pointer (R33, R68, R69). -/

namespace Sys2Proof.Machine

/-- Unpacking said of the number the byte is: bit `k` is its quotient by `2 ^ k`, modulo 2 (R33). -/
theorem unpack_eq (b : Byte) : unpack b =
    { n := decide (b.toNat / 128 % 2 = 1), v := decide (b.toNat / 64 % 2 = 1)
      d := decide (b.toNat / 8 % 2 = 1), i := decide (b.toNat / 4 % 2 = 1)
      z := decide (b.toNat / 2 % 2 = 1), c := decide (b.toNat % 2 = 1) } := by
  have bit_eq (k : Nat) : b.getLsbD k = decide (b.toNat / 2 ^ k % 2 = 1) :=
    Nat.testBit_eq_decide_div_mod_eq
  simp only [unpack, bit_eq, Nat.reducePow, Nat.div_one]

/-- The packed status byte as a number: its eight digits never carry (R32). -/
theorem pack_toNat (p : Flags) : (pack p).toNat = 128 * p.n.toNat + 64 * p.v.toNat + 32 +
    8 * p.d.toNat + 4 * p.i.toNat + 2 * p.z.toNat + p.c.toNat := by
  have hn := p.n.toNat_le
  have hv := p.v.toNat_le
  have hd := p.d.toNat_le
  have hi := p.i.toNat_le
  have hz := p.z.toNat_le
  have hc := p.c.toNat_le
  rw [pack_eq, BitVec.toNat_ofNat]
  omega

theorem unpack_pack (p : Flags) : unpack (pack p) = p := by
  obtain ⟨c, z, i, d, v, n⟩ := p
  revert c z i d v n
  decide

/-- A mask that touches only bits 5 and 4 has none of the bits that unpacking takes. -/
theorem unpack_or_of_frame {m : Byte} (hm : m &&& 0xCF = 0) (b : Byte) :
    unpack (b ||| m) = unpack b := by
  have hbits : ∀ m : Byte, m &&& 0xCF = 0 → m.getLsbD 7 = false ∧ m.getLsbD 6 = false ∧
      m.getLsbD 3 = false ∧ m.getLsbD 2 = false ∧ m.getLsbD 1 = false ∧ m.getLsbD 0 = false := by
    decide
  obtain ⟨h7, h6, h3, h2, h1, h0⟩ := hbits m hm
  simp only [unpack, BitVec.getLsbD_or, h7, h6, h3, h2, h1, h0, Bool.or_false]

/-- Unpacking undoes packing under a framing mask (R33). -/
theorem unpack_pack_or {m : Byte} (hm : m &&& 0xCF = 0) (p : Flags) : unpack (pack p ||| m) = p := by
  rw [unpack_or_of_frame hm, unpack_pack]

end Sys2Proof.Machine
end

section
/-! SUPPORT. What the instructions that pull from the stack leave: each completes in every state. -/

namespace Sys2Proof.Machine

/-- RTI in every state (R283). -/
theorem rti_gives (s : State) : ∃ st lo hi, s.bus.read (stackAddr (s.sp + 1)) = .ok st ∧
    s.bus.read (stackAddr (s.sp + 2)) = .ok lo ∧ s.bus.read (stackAddr (s.sp + 3)) = .ok hi ∧
    ExecGives .rti s (((s.setSp (s.sp + 3)).setP (unpack st)).setPc (wordOf lo hi)) := by
  obtain ⟨st, lo, hi, u, hst, hlo, hhi, hret, ha⟩ := leaveInterrupt_eq s
  have two : s.sp + 1 + 1 = s.sp + 2 := BitVec.add_assoc ..
  have three : s.sp + 2 + 1 = s.sp + 3 := BitVec.add_assoc ..
  rw [two] at hlo hhi ha
  rw [three] at hhi ha
  exact ⟨st, lo, hi, hst, hlo, hhi, _, jump_eq_next.mpr ⟨_, u, hret, rfl⟩, ha.setPc _⟩

/-- RTS in every state (R282). -/
theorem rts_gives (s : State) : ∃ lo hi, s.bus.read (stackAddr (s.sp + 1)) = .ok lo ∧
    s.bus.read (stackAddr (s.sp + 2)) = .ok hi ∧
    ExecGives .rts s ((s.setSp (s.sp + 2)).setPc (wordOf lo hi + 1)) := by
  obtain ⟨lo, hi, u, hlo, hhi, hpull, ha⟩ := pullAddr_eq s
  have two : s.sp + 1 + 1 = s.sp + 2 := BitVec.add_assoc ..
  rw [two] at hhi ha
  exact ⟨lo, hi, hlo, hhi, _, jump_eq_next.mpr ⟨_, u, by rw [hpull, Res.bind_ok], rfl⟩, ha.setPc _⟩

/-- PLP in every state (R310). -/
theorem plp_gives (s : State) : ∃ st, s.bus.read (stackAddr (s.sp + 1)) = .ok st ∧
    ExecGives .plp s (((s.setSp (s.sp + 1)).setP (unpack st)).setPc (s.pc + 1)) := by
  obtain ⟨st, u, hst, hpull, ha⟩ := pull_eq s
  exact ⟨st, hst, _, advance_eq_next.mpr ⟨_, by rw [hpull, Res.bind_ok], rfl⟩, (ha.setP _).setPc _⟩

/-- PLA in every state (R308). -/
theorem pla_gives (s : State) : ∃ v, s.bus.read (stackAddr (s.sp + 1)) = .ok v ∧
    ExecGives .pla s ((((s.setSp (s.sp + 1)).setA v).setP (setZeroNegative v s.p)).setPc (s.pc + 1)) := by
  obtain ⟨v, u, hv, hpull, ha⟩ := pull_eq s
  refine ⟨v, hv, _, advance_eq_next.mpr ⟨_, by rw [hpull, Res.bind_ok], rfl⟩, ?_⟩
  rw [ha.p_eq]
  exact ((ha.setA v).setP _).setPc _

/-- The byte a pull reads after a push, in a canonical memory, is the byte pushed (R68, R69). -/
theorem read_pull_of_push {s t : State} {v : Byte} (hs : s.Inv)
    (hbus : t.bus = (push v s).bus) (hsp : t.sp = (push v s).sp) :
    t.sp + 1 = s.sp ∧ t.bus.read (stackAddr (t.sp + 1)) = .ok v := by
  have hback : t.sp + 1 = s.sp := by rw [hsp, push_sp, BitVec.sub_add_cancel]
  refine ⟨hback, ?_⟩
  rw [hback, hbus, push_bus]
  exact peek_eq_some.mp (peek_pushed_same hs s.sp v)

theorem exec_php (s : State) :
    exec .php s = .next ((push (pack s.p ||| s.params.phpMask) s).setPc (s.pc + 1)) := rfl

theorem exec_pha (s : State) : exec .pha s = .next ((push s.a s).setPc (s.pc + 1)) := rfl

/-- PLP takes its flags from the byte pushed last, and SP is back where it was. -/
theorem plp_of_push {s t : State} {v : Byte} {p : Flags} (hs : s.Inv) (hbus : t.bus = (push v s).bus)
    (hsp : t.sp = (push v s).sp) (hv : unpack v = p) :
    ∃ u, exec .plp t = .next u ∧ u.p = p ∧ u.sp = s.sp := by
  obtain ⟨hback, hread⟩ := read_pull_of_push hs hbus hsp
  obtain ⟨st, hst, u, hu, ha⟩ := plp_gives t
  obtain rfl : st = v := Except.ok.inj (hst.symm.trans hread)
  exact ⟨u, hu, ha.p_eq.trans hv, ha.sp_eq.trans hback⟩

/-- PLA takes the accumulator from the byte pushed last, and SP is back where it was. -/
theorem pla_of_push {s t : State} {v : Byte} (hs : s.Inv) (hbus : t.bus = (push v s).bus)
    (hsp : t.sp = (push v s).sp) : ∃ u, exec .pla t = .next u ∧ u.a = v ∧ u.sp = s.sp := by
  obtain ⟨hback, hv⟩ := read_pull_of_push hs hbus hsp
  obtain ⟨w, hw, u, hu, ha⟩ := pla_gives t
  obtain rfl : w = v := Except.ok.inj (hw.symm.trans hv)
  exact ⟨u, hu, ha.a_eq, ha.sp_eq.trans hback⟩

end Sys2Proof.Machine
end

section
/-! SUPPORT. The frame of the registers and flags: which an instruction may write (R20 to R31). -/

namespace Sys2Proof.Machine

/-- `t` differs from `s` in no register and flag but those that the spec lets `i` write. -/
def RegistersFramed (i : Instr) (s t : State) : Prop :=
  (i.mnemonic ∉ [.lda, .pla, .txa, .tya, .adc, .sbc, .and, .ora, .eor] → i.mode ≠ .acc → t.a = s.a) ∧
  (i.mnemonic ∉ [.ldx, .tax, .tsx, .inx, .dex] → t.x = s.x) ∧
  (i.mnemonic ∉ [.ldy, .tay, .iny, .dey] → t.y = s.y) ∧
  (i.mnemonic ∉ [.txs, .pha, .pla, .php, .plp, .jsr, .rts, .rti, .brk] → t.sp = s.sp) ∧
  (i.mnemonic ∉ [.adc, .sbc, .cmp, .cpx, .cpy, .asl, .lsr, .rol, .ror, .clc, .sec, .plp, .rti] →
    t.p.c = s.p.c) ∧
  (i.mnemonic ∉ [.lda, .ldx, .ldy, .tax, .tay, .txa, .tya, .tsx, .pla, .and, .ora, .eor, .adc, .sbc,
      .cmp, .cpx, .cpy, .inc, .dec, .inx, .iny, .dex, .dey, .asl, .lsr, .rol, .ror, .bit, .plp,
      .rti] → t.p.z = s.p.z ∧ t.p.n = s.p.n) ∧
  (i.mnemonic ∉ [.cli, .sei, .brk, .plp, .rti] → t.p.i = s.p.i) ∧
  (i.mnemonic ∉ [.cld, .sed, .plp, .rti] → t.p.d = s.p.d) ∧
  (i.mnemonic ∉ [.adc, .sbc, .bit, .clv, .plp, .rti] → t.p.v = s.p.v)

variable {i : Instr} {s t u : State}

/-- An event before the writes is outside the frame. -/
theorem RegistersFramed.of_after (ha : s.AfterEvents u) (h : RegistersFramed i u t) :
    RegistersFramed i s t := by
  obtain ⟨_, rfl, _⟩ := ha
  exact h

/-- An event after the writes is outside the frame. -/
theorem RegistersFramed.after (h : RegistersFramed i s u) (ha : u.AfterEvents t) :
    RegistersFramed i s t := by
  obtain ⟨_, rfl, _⟩ := ha
  exact h

/-- Every instruction may write PC (R24). -/
theorem RegistersFramed.setPc (h : RegistersFramed i s t) (a : Addr) :
    RegistersFramed i s (t.setPc a) := h

/-- Storing a byte of memory is outside the frame. -/
theorem RegistersFramed.memWrite (h : RegistersFramed i s t) (a : Addr) (v : Byte) :
    RegistersFramed i s (memWrite a v t) :=
  RegistersFramed.after (u := t.setBus (t.bus.write a v)) h (memWrite_after a v t)

/-- An instruction with one known next state is framed by it. -/
theorem RegistersFramed.of_gives (hg : ExecGives i s u) (h : exec i s = .next t)
    (hf : RegistersFramed i s u) : RegistersFramed i s t := by
  obtain ⟨w, hw, ha⟩ := hg
  obtain rfl : w = t := Host.Outcome.next.inj (hw.symm.trans h)
  exact hf.after ha

theorem RegistersFramed.of_reading {f : Byte → State → State} {o : Operand}
    (h : reading f o s = .next t) (hf : ∀ v u, RegistersFramed i u (f v u)) :
    RegistersFramed i s t := by
  obtain ⟨v, u, hv, rfl⟩ := reading_eq_next h
  exact ((hf v u).of_after (readOperand_after hv)).setPc _

theorem RegistersFramed.of_storing {src : State → Byte} {m : MemOperand}
    (h : storing src m s = .next t) (hf : ∀ u, RegistersFramed i u u) : RegistersFramed i s t := by
  obtain ⟨ea, u, hea, rfl⟩ := storing_eq_next h
  exact (((hf u).memWrite ea _).of_after (effectiveAddress_after hea)).setPc _

theorem RegistersFramed.of_modifying {f : Byte → Flags → Byte × Flags} {m : MemOperand}
    (h : modifying f m s = .next t) (hf : ∀ v u, RegistersFramed i u (u.setP (f v u.p).2)) :
    RegistersFramed i s t := by
  obtain ⟨ea, v, u, _, _, hv, rfl⟩ := modifying_eq_next h
  exact (((hf v u).memWrite ea _).of_after (readOperand_after hv)).setPc _

/-- No write at all is within every frame. -/
theorem RegistersFramed.refl (i : Instr) (s : State) : RegistersFramed i s s :=
  ⟨fun _ _ => rfl, fun _ => rfl, fun _ => rfl, fun _ => rfl, fun _ => rfl, fun _ => ⟨rfl, rfl⟩,
    fun _ => rfl, fun _ => rfl, fun _ => rfl⟩

/-- An instruction with an operand writes, besides memory, what its mnemonic lets it. -/
theorem exec_framed_of_operand {o : Operand} (ho : i.operand = some o) (h : exec i s = .next t) :
    RegistersFramed i s t := by
  have he := exec_of_operand ho
  cases hm : i.mnemonic <;> rw [hm] at he
  case lda | ldx | ldy =>
    injection he with he
    rw [← he] at h
    refine .of_reading h fun v u => ?_
    simp [RegistersFramed, hm, loadA, loadX, loadY, setZeroNegative]
  case adc | sbc | and | ora | eor =>
    injection he with he
    rw [← he] at h
    refine .of_reading h fun v u => ?_
    simp [RegistersFramed, hm, aluA, twosCompAdd, twosCompSubtract, andF, oraF, eorF, setZeroNegative]
  case cmp | cpx | cpy | bit =>
    injection he with he
    rw [← he] at h
    refine .of_reading h fun v u => ?_
    simp [RegistersFramed, hm, compareFlags, bitTest, setZeroNegative]
  case sta | stx | sty =>
    cases o with
    | imm b => simp [operationOf] at he
    | mem m =>
      injection he with he
      rw [← he] at h
      exact .of_storing h (.refl i)
  case inc | dec | asl | lsr | rol | ror =>
    cases o with
    | imm b => simp [operationOf] at he
    | mem m =>
      injection he with he
      rw [← he] at h
      refine .of_modifying h fun v u => ?_
      simp [RegistersFramed, hm, incF, decF, aslF, lsrF, rolF, rorF, setZeroNegative]
  all_goals simp [operationOf] at he

/-- An instruction without an operand writes what its mnemonic, or the accumulator mode, lets it. -/
theorem exec_framed_of_no_operand (ho : i.operand = none) (h : exec i s = .next t) :
    RegistersFramed i s t := by
  cases i <;> cases ho
  case jmpInd.refl w =>
    obtain ⟨a, u, hw, rfl⟩ := jump_eq_next.mp h
    obtain ⟨_, _, _, _, _, ha⟩ := memReadWord_ok hw
    exact ((RegistersFramed.refl _ s).after ha).setPc a
  case brk.refl =>
    obtain ⟨a, w, hw, rfl⟩ := jump_eq_next.mp h
    obtain ⟨_, u, hu, heq⟩ := Res.bind_eq_ok.mp hw
    obtain ⟨rfl, rfl⟩ := Res.ok.inj heq
    have ha := (enterInterrupt_ok hu).1
    rw [ha.p_eq]
    refine RegistersFramed.setPc (.after ?_ (ha.setP _)) _
    simp [RegistersFramed, Instr.mnemonic]
  case rts.refl =>
    obtain ⟨_, _, _, _, hg⟩ := rts_gives s
    exact .of_gives hg h (by simp [RegistersFramed, Instr.mnemonic])
  case rti.refl =>
    obtain ⟨_, _, _, _, _, _, hg⟩ := rti_gives s
    exact .of_gives hg h (by simp [RegistersFramed, Instr.mnemonic])
  case plp.refl =>
    obtain ⟨_, _, hg⟩ := plp_gives s
    exact .of_gives hg h (by simp [RegistersFramed, Instr.mnemonic])
  case pla.refl =>
    obtain ⟨_, _, hg⟩ := pla_gives s
    exact .of_gives hg h (by simp [RegistersFramed, Instr.mnemonic, setZeroNegative])
  all_goals
    injection h with h
    subst h
    refine RegistersFramed.setPc ?_ _
  case jsr.refl | pha.refl | php.refl | clc.refl | sec.refl | cli.refl | sei.refl | clv.refl | cld.refl |
      sed.refl =>
    simp [RegistersFramed, Instr.mnemonic]
  case tax.refl | tay.refl | txa.refl | tya.refl | tsx.refl | txs.refl =>
    simp [RegistersFramed, Instr.mnemonic, loadA, loadX, loadY, setZeroNegative]
  case inx.refl | iny.refl | dex.refl | dey.refl =>
    simp [RegistersFramed, Instr.mnemonic, incF, decF, setZeroNegative]
  case aslAcc.refl | lsrAcc.refl | rolAcc.refl | rorAcc.refl =>
    simp [RegistersFramed, Instr.mnemonic, Instr.mode, aslF, lsrF, rolF, rorF, setZeroNegative]
  -- the branches, JMP to an address and NOP write PC alone
  all_goals exact .refl _ s

/-- The frame of every instruction over registers and flags (R20 to R34). -/
theorem exec_framed (h : exec i s = .next t) : RegistersFramed i s t := by
  cases ho : i.operand with
  | some o => exact exec_framed_of_operand ho h
  | none => exact exec_framed_of_no_operand ho h

end Sys2Proof.Machine
end

section
/-! SUPPORT. What a step keeps, a Faulted machine, and the host's snapshots. -/

namespace Sys2Proof.Machine

/-- A step that completes stores to the bus, is counted and leaves the machine running; its parameters
and breakpoints stay (R51, R175). -/
theorem step_stored {s t : State} (h : step s = .next t) : (∃ ws, t.bus = s.bus.writes ws) ∧
    t.params = s.params ∧ t.bp = s.bp ∧ t.run = .running ∧ t.steps = s.steps + 1 := by
  obtain ⟨i, u, v, ha, he, rfl⟩ := step_next h
  obtain ⟨ws, -, hbus, hrun, hsteps, hbp, hparams, -⟩ := exec_stored he
  refine ⟨⟨ws, ?_⟩, hparams.trans ha.params_eq, hbp.trans ha.bp_eq, hrun.trans ha.run_eq, ?_⟩
  · rw [State.setSteps_bus, hbus, ha.bus_eq, State.setRun_bus]
  · rw [State.setSteps_steps, hsteps, ha.steps_eq, State.setRun_steps]

/-! ### A Faulted machine (R326) -/

section
variable {s : State} {f : Fault} (hf : s.run = .faulted f)
include hf

theorem step_of_faulted : step s = .fault f := by rw [step, hf]

theorem hostStep_of_faulted : hostStep s = (s, some f) := by
  simp only [hostStep, step_of_faulted hf, hf]

theorem hostRun_of_faulted (fuel : Nat) : hostRun fuel s = .faulted f s := by rw [hostRun, hf]

theorem trigger_of_faulted (vector : Addr) : trigger vector s = (s, none) := by rw [trigger, hf]

theorem triggerIrq_of_faulted : triggerIrq s = (s, none) := by
  rw [triggerIrq, trigger_of_faulted hf, ite_self]

end

/-! ### Snapshots and `ClearRam` (R38, R90 to R92) -/

theorem setBusState_getBusState (s : State) : setBusState (getBusState s) s = .ok s := by
  obtain ⟨a, x, y, sp, pc, p, run, haltReq, steps, bus, bp, params⟩ := s
  cases bus <;> rfl

theorem setBusState_of_mmc1 {s : State} {m : MapperState} {cart : Cart} (hb : s.bus = .mmc1 m cart)
    (m' : MapperState) : setBusState (.mmc1 m') s = .ok (s.setBus (.mmc1 m' cart)) := by
  simp only [setBusState, hb]

theorem setBusState_of_flat {s : State} {ram : Memory} (hb : s.bus = .flat ram) (ram' : Memory) :
    setBusState (.flat ram') s = .ok (s.setBus (.flat ram')) := by
  simp only [setBusState, hb]

theorem clearRam_of_mmc1 {s : State} {m : MapperState} {cart : Cart} (hb : s.bus = .mmc1 m cart) :
    clearRam s = s.setBus (.mmc1 { m with wram := [], prgRam := [] } cart) := by
  rw [clearRam, hb]

theorem clearRam_of_flat {s : State} {ram : Memory} (hb : s.bus = .flat ram) :
    clearRam s = s.setBus (.flat []) := by
  rw [clearRam, hb]

theorem clearRam_eq (s : State) : clearRam s = s.setBus (clearRam s).bus := by
  cases hb : s.bus with
  | mmc1 m cart => rw [clearRam_of_mmc1 hb, State.setBus_bus]
  | flat ram => rw [clearRam_of_flat hb, State.setBus_bus]

/-- Below the cartridge window a mapper with empty RAMs reads 0 everywhere. -/
theorem Bus.peek_of_empty_rams {a : Addr} (ha : a.toNat < Config.cartStart) (m : MapperState)
    (cart : Cart) : (Bus.mmc1 { m with wram := [], prgRam := [] } cart).peek a = some 0 := by
  rw [peek_eq_some]
  simp only [Bus.read, ha, if_true, Memory.read_nil]
  repeat' split
  all_goals rfl

/-! ### Reset -/

theorem blank_wf : Cart.blank.wf = true := rfl

end Sys2Proof.Machine
end

section
/-! The statements of 10_state.md: the status byte, frames, invariants, faults and snapshots. -/

namespace Sys2Proof.Certificates

open Sys2Proof.Machine

/-- Settles O59: a step changes the bus by stores alone, and each keeps the canonical form. -/
theorem stepKeepsTheInvariant : Obligations.StepKeepsTheInvariant := by
  unfold Obligations.StepKeepsTheInvariant
  intro s t hs h
  obtain ⟨⟨ws, hbus⟩, -⟩ := step_stored h
  rw [State.Inv, hbus]
  exact Bus.writes_wf hs ws

/-- Settles O15: the registers by the frame of each mnemonic, the rest by what no instruction changes. -/
theorem registersChangeOnlyByTheirWriters : Obligations.RegistersChangeOnlyByTheirWriters := by
  unfold Obligations.RegistersChangeOnlyByTheirWriters
  intro i s t h
  obtain ⟨ha, hx, hy, hsp, hc, hzn, hi, hd, hv⟩ := exec_framed h
  obtain ⟨_, -, -, hrun, hsteps, hbp, hparams, -⟩ := exec_stored h
  exact ⟨ha, hx, hy, hsp, hc, hzn, hi, hd, hv, hrun, hsteps, hbp, hparams⟩

/-- Settles O36: the stack page is readable in every state, so the three pulls answer. -/
theorem rtiRestoresFlagsAndPc : Obligations.RtiRestoresFlagsAndPc := by
  unfold Obligations.RtiRestoresFlagsAndPc
  intro s
  obtain ⟨st, lo, hi, hst, hlo, hhi, hg⟩ := rti_gives s
  rw [wordOf_eq] at hg
  exact ⟨rfl, st, lo, hi, peek_eq_some.mpr hst, peek_eq_some.mpr hlo, peek_eq_some.mpr hhi, hg⟩

/-- Settles O42: the pull reads the byte just pushed, and unpacking undoes packing. -/
theorem pullsUndoPushes : Obligations.PullsUndoPushes := by
  unfold Obligations.PullsUndoPushes
  intro s t q v hs ⟨_, hmask⟩
  constructor
  · intro h
    obtain rfl := Host.Outcome.next.inj ((exec_php s).symm.trans h)
    exact plp_of_push hs rfl rfl (unpack_pack_or hmask s.p)
  · intro h
    obtain rfl := Host.Outcome.next.inj ((exec_pha s).symm.trans h)
    exact pla_of_push hs rfl rfl

/-- Settles O52: the first part from what entering Faulted leaves, the second from R326's cases. -/
theorem faultedIsFinal : Obligations.FaultedIsFinal := by
  unfold Obligations.FaultedIsFinal
  intro s f fuel
  constructor
  · intro hrun hfault
    rcases hostStep_cases hrun with ⟨t, hnext, -⟩ | ⟨g, hg, hhost⟩
    · rw [hnext] at hfault
      cases hfault
    · obtain rfl : g = f := Host.Outcome.fault.inj (hg.symm.trans hfault)
      exact ⟨_, hhost, rfl, by cases g <;> rfl, rfl, rfl, enterFaulted_cart? g s⟩
  · intro hf
    exact ⟨step_of_faulted hf, hostStep_of_faulted hf, hostRun_of_faulted hf fuel,
      trigger_of_faulted hf _, trigger_of_faulted hf _, triggerIrq_of_faulted hf⟩

/-- Settles O60: stores change no cartridge and no bus variant. -/
theorem stepChangesNoParameter : Obligations.StepChangesNoParameter := by
  unfold Obligations.StepChangesNoParameter
  intro s t h
  obtain ⟨⟨ws, hbus⟩, hparams, hbp, hrun, hsteps⟩ := step_stored h
  exact ⟨hparams, by rw [hbus, Bus.writes_cart?], hbp, hrun, hsteps⟩

/-- Settles O43: packing and unpacking said of numbers, and one undoing the other under a frame. -/
theorem unpackInvertsPack : Obligations.UnpackInvertsPack := by
  unfold Obligations.UnpackInvertsPack
  intro p m b
  exact ⟨pack_toNat p, unpack_eq b, fun hm => unpack_pack_or hm p⟩

/-- Settles O56, by the bus variant. -/
theorem snapshotsAndClearRam : Obligations.SnapshotsAndClearRam := by
  unfold Obligations.SnapshotsAndClearRam
  intro s c
  refine ⟨rfl, setBusState_getBusState s, rfl, rfl, rfl, rfl, rfl, rfl, rfl,
    fun m m' cart hb => ⟨_, setBusState_of_mmc1 hb m', rfl, rfl⟩,
    fun ram ram' hb => ⟨_, setBusState_of_flat hb ram', rfl, rfl⟩, clearRam_eq s,
    fun m cart a hb ha => ?_, fun ram a hb => ?_⟩
  · rw [clearRam_of_mmc1 hb]
    exact ⟨Bus.peek_of_empty_rams ha m cart, [], [], rfl⟩
  · rw [clearRam_of_flat hb]
    exact ⟨rfl, rfl⟩

/-- Settles O58: the RAM and the cartridge of the reset state are canonical, its accumulator empty. -/
theorem invariantAtReset : Obligations.InvariantAtReset := by
  unfold Obligations.InvariantAtReset
  simp only [State.Inv, State.reset, Bus.wf, MapperState.wf, reset_wram_wf, blank_wf]
  rfl

end Sys2Proof.Certificates
end

section
/-! SUPPORT. Events and the accesses they bracket: what an event is to the registry, and what a read
whose byte is outside the ROM image answers (R61 to R64, R86, R322, R344, R352). -/

namespace Sys2Proof.Machine

variable {s : State} {m : MapperState} {cart : Cart} {a : Addr} {v : Byte}

/-! ### Events (R352) -/

/-- Folding over every entry is folding over those that listen: the others pass the state on. -/
theorem event_eq_answered (s : State) (k : EventKind) (a : Addr) : s.event k a = s.answered k a := by
  have hanswer : State.answer k a = fun (t : State) (e : Breakpoint) =>
      if (decide (e.addr = a) && e.mask.covers k) = true then
        t.setHaltReq (t.haltReq || Config.callbackHalts State e.callback k a t) else t := by
    funext t e
    simp only [State.answer, Bool.and_eq_true, decide_eq_true_eq]
  rw [State.event, State.answered, List.foldl_filter, hanswer]
  cases k <;> rfl

/-! ### Reads outside the image (R86) -/

theorem Bus.read_of_peek_eq_none {b : Bus} (hb : b = .mmc1 m cart) (h : b.peek a = none) :
    b.read a = .error (prgOffset m cart.romSize a) := by
  obtain ⟨m', cart', hb', -, -, hread⟩ := Bus.peek_eq_none h
  obtain ⟨rfl, rfl⟩ := Bus.mmc1.inj (hb.symm.trans hb')
  exact hread

theorem busAccess_of_error {off : Nat} (k : EventKind) (h : s.bus.read a = .error off) :
    busAccess k a s = .raise (.mapperOffsetOverflow a off s.pc) := by
  simp only [busAccess, event_bus, h, event_pc]

/-- An access to a byte outside the image overflows, recording its offset and PC (R322). -/
theorem busAccess_of_peek_eq_none (k : EventKind) (hb : s.bus = .mmc1 m cart)
    (h : s.bus.peek a = none) :
    busAccess k a s = .raise (.mapperOffsetOverflow a (prgOffset m cart.romSize a) s.pc) :=
  busAccess_of_error k (Bus.read_of_peek_eq_none hb h)

/-! ### The host's read (R344) -/

theorem hostReadByte_of_read (h : s.bus.read a = .ok v) :
    hostReadByte a s = (s.event .read a, .ok v) := by
  simp only [hostReadByte, event_bus, h]

theorem hostReadByte_of_error {off : Nat} (h : s.bus.read a = .error off) :
    hostReadByte a s = (s.event .read a, .error (.mapperOffsetOverflow a off s.pc)) := by
  simp only [hostReadByte, event_bus, h, event_pc]

/-! ### Operand reads (R140) -/

/-- An operand in memory is read at its effective address. -/
theorem readOperand_mem {o : MemOperand} {t : State} (h : effectiveAddress o s = .ok a t) :
    readOperand (.mem o) s = memRead a t := by
  rw [readOperand, h, Res.bind_ok]

end Sys2Proof.Machine
end

section
/-! SUPPORT. The cartridge window of the mapper bus: its reads, the shift-register protocol and the ROM
offset, said of numbers (R76 to R86). -/

namespace Sys2Proof.Machine

variable {m : MapperState} {cart : Cart} {a : Addr}

/-! ### Accesses to the window -/

/-- The cartridge window lies above work RAM, open bus and cartridge RAM (R72). -/
theorem cartStart_le_above (ha : Config.cartStart ≤ a.toNat) : ¬ a.toNat < Config.openBusStart ∧
    ¬ a.toNat < Config.prgRamStart ∧ ¬ a.toNat < Config.cartStart := by
  simp only [Config.openBusStart, Config.prgRamStart, Config.cartStart] at *
  omega

/-- In the cartridge window a read is decided by the ROM offset (R76, R86). -/
theorem Bus.read_cart (ha : Config.cartStart ≤ a.toNat) : (Bus.mmc1 m cart).read a =
    if prgOffset m cart.romSize a < cart.romSize
      then .ok (Memory.read cart.rom (prgOffset m cart.romSize a))
      else .error (prgOffset m cart.romSize a) := by
  obtain ⟨hwram, hopen, hram⟩ := cartStart_le_above ha
  simp only [Bus.read, hwram, hopen, hram, if_false]

/-- A write to the cartridge window is an input of the protocol and nothing else (R77, R78). -/
theorem Bus.write_cart (ha : Config.cartStart ≤ a.toNat) (v : Byte) :
    (Bus.mmc1 m cart).write a v = .mmc1 (m.shiftWrite a v) cart := by
  obtain ⟨hwram, hopen, hram⟩ := cartStart_le_above ha
  simp only [Bus.write, hwram, hopen, hram, if_false]

/-- Open bus, and the cartridge-RAM window of a mapper without cartridge RAM: writes change nothing and
reads give 0 (R74, R75). -/
theorem Bus.open_write_peek (hlo : Config.openBusStart ≤ a.toNat) (hhi : a.toNat < Config.cartStart)
    (habsent : a.toNat < Config.prgRamStart ∨ cart.prgRamPresent = false) (v : Byte) :
    (Bus.mmc1 m cart).write a v = .mmc1 m cart ∧ (Bus.mmc1 m cart).peek a = some 0 := by
  rw [peek_eq_some]
  by_cases hram : a.toNat < Config.prgRamStart
  · simp only [Bus.write, Bus.read, Nat.not_lt.mpr hlo, hram, if_true, if_false, and_self]
  · have hnone : cart.prgRamPresent = false := habsent.resolve_left hram
    simp [Bus.write, Bus.read, Nat.not_lt.mpr hlo, hram, hhi, hnone]

/-! ### The shift-register protocol (R79 to R83) -/

/-- Bit 7 of a byte, said of the number. -/
theorem getLsbD_seven (v : Byte) : v.getLsbD 7 = decide (128 ≤ v.toNat) := by
  revert v
  decide

theorem getLsbD_seven_of_lt {v : Byte} (hv : v.toNat < 128) : v.getLsbD 7 = false := by
  rw [getLsbD_seven, decide_eq_false (Nat.not_le.mpr hv)]

/-- The mapper with `k` bits in its accumulator, which make the number `n`. -/
def MapperState.holding (m : MapperState) (n : Nat) (k : Fin 5) : MapperState :=
  { m with shift := BitVec.ofNat 5 n, count := k }

/-- A mapper with an empty accumulator holds no bits. -/
theorem MapperState.eq_holding_zero (hs : m.shift = 0) (hc : m.count = 0) : m = m.holding 0 0 := by
  cases m
  cases hs
  cases hc
  rfl

/-- The bit written enters at the position `k`, above the bits below it (R80). -/
theorem accumulate_holding {n : Nat} {k : Fin 5} (hn : n < 2 ^ k.val) (v : Byte) :
    (m.holding n k).accumulate v = BitVec.ofNat 5 (n + 2 ^ k.val * (v.toNat % 2)) := by
  have hbit : v.getLsbD 0 = decide (v.toNat % 2 = 1) := by revert v; decide
  have hor : ∀ (k : Fin 5) (x : BitVec 5) (b : Bool), x.toNat < 2 ^ k.val →
      x ||| (BitVec.ofBool b).setWidth 5 <<< k.val = BitVec.ofNat 5 (x.toNat + 2 ^ k.val * b.toNat) := by
    decide
  have hk : 2 ^ k.val ≤ 16 := Nat.pow_le_pow_right (by decide) (Nat.le_of_lt_succ k.isLt)
  have hx : (BitVec.ofNat 5 n).toNat = n := by
    rw [BitVec.toNat_ofNat]
    omega
  have hb : (decide (v.toNat % 2 = 1)).toNat = v.toNat % 2 := by
    rcases Nat.mod_two_eq_zero_or_one v.toNat with h | h <;> rw [h] <;> rfl
  simp only [MapperState.accumulate, MapperState.holding, hbit]
  rw [hor k _ _ (by rwa [hx]), hx, hb]

/-- A write with bit 7 set clears the accumulator and does nothing else (R79). -/
theorem shiftWrite_reset (m : MapperState) (a : Addr) {v : Byte} (hv : 128 ≤ v.toNat) :
    m.shiftWrite a v = { m with shift := 0, count := 0 } := by
  rw [MapperState.shiftWrite, getLsbD_seven, decide_eq_true hv, if_pos rfl]

/-- A write before the fifth adds one bit of weight `p` (R80, R81). -/
theorem Bus.write_holding {n p : Nat} {k k' : Fin 5} (hk : k'.val = k.val + 1) (hp : 2 ^ k.val = p)
    (hn : n < p) (ha : Config.cartStart ≤ a.toNat) {v : Byte} (hv : v.toNat < 128) :
    (Bus.mmc1 (m.holding n k) cart).write a v =
      .mmc1 (m.holding (n + p * (v.toNat % 2)) k') cart := by
  subst hp
  have hcount : (m.holding n k).count ≠ 4 := by
    rintro rfl
    omega
  have hnext : k + 1 = k' := by omega
  rw [Bus.write_cart ha, MapperState.shiftWrite, getLsbD_seven_of_lt hv,
    if_neg Bool.false_ne_true, if_neg hcount, accumulate_holding hn, ← hnext]
  rfl

/-- A commit reads neither `shift` nor `count`. -/
theorem commit_holding (n : Nat) (k : Fin 5) (a : Addr) (val : BitVec 5) :
    ((m.holding n k).commit a val).holding 0 0 = (m.holding 0 0).commit a val := by
  unfold MapperState.commit
  split <;> rfl

/-- The fifth write commits the five bits and clears the accumulator (R81, R82). -/
theorem Bus.write_holding_four {n : Nat} (hn : n < 16) (ha : Config.cartStart ≤ a.toNat) {v : Byte}
    (hv : v.toNat < 128) : (Bus.mmc1 (m.holding n 4) cart).write a v =
      .mmc1 ((m.holding 0 0).commit a (BitVec.ofNat 5 (n + 16 * (v.toNat % 2)))) cart := by
  have hcount : (m.holding n 4).count = 4 := rfl
  rw [Bus.write_cart ha, MapperState.shiftWrite, getLsbD_seven_of_lt hv,
    if_neg Bool.false_ne_true, if_pos hcount, accumulate_holding (k := 4) hn, ← commit_holding n 4]
  rfl

/-- The register a commit selects, by the quarter of the cartridge window the address lies in (R83). -/
theorem commit_eq (m : MapperState) (ha : Config.cartStart ≤ a.toNat) (val : BitVec 5) :
    m.commit a val = if a.toNat < 0xA000 then { m with control := val }
      else if a.toNat < 0xC000 then { m with chr0 := val }
      else if a.toNat < 0xE000 then { m with chr1 := val } else { m with prg := val } := by
  have hlt := a.isLt
  have hquarter : (a.extractLsb' 13 2).toNat = a.toNat / 8192 % 4 := by
    rw [BitVec.extractLsb'_toNat, Nat.shiftRight_eq_div_pow]
  rw [Config.cartStart] at ha
  rw [MapperState.commit, hquarter]
  split_ifs with h1 h2 h3
  · simp only [show a.toNat / 8192 % 4 = 0 by omega]
  · simp only [show a.toNat / 8192 % 4 = 1 by omega]
  · simp only [show a.toNat / 8192 % 4 = 2 by omega]
  · simp only [show a.toNat / 8192 % 4 = 3 by omega]

/-! ### The ROM offset (R85) -/

theorem MapperState.prgMode_toNat (m : MapperState) : m.prgMode.toNat = m.control.toNat / 4 % 4 := by
  rw [MapperState.prgMode, BitVec.extractLsb'_toNat, Nat.shiftRight_eq_div_pow]

theorem MapperState.prgBank_toNat (m : MapperState) : m.prgBank.toNat = m.prg.toNat % 16 := by
  rw [MapperState.prgBank, BitVec.extractLsb'_toNat, Nat.shiftRight_zero]

/-- Two windows from an even bank are one double-size window (R85, modes 0 and 1). -/
theorem even_bank_offset (b : BitVec 4) :
    (b &&& 0x0E).toNat * Config.prgWindow = b.toNat / 2 * 0x8000 := by
  revert b
  decide

end Sys2Proof.Machine
end

section
/-! SUPPORT. The frame of memory: what a list of stores leaves alone (R73, R77, R83), and that FlatBus
stays FlatBus and faults nowhere (R93). -/

namespace Sys2Proof.Machine

/-! ### Stores -/

/-- Which addresses name one byte, and which are inputs of the protocol, depends on the bus variant
alone, which no store changes. -/
@[simp] theorem Bus.sameByte_write (b : Bus) (x : Addr) (v : Byte) (a a' : Addr) :
    (b.write x v).sameByte a a' = b.sameByte a a' := by
  cases b with
  | flat ram => rfl
  | mmc1 m cart =>
    simp only [Bus.write]
    split_ifs <;> rfl

@[simp] theorem Bus.isPort_write (b : Bus) (x : Addr) (v : Byte) (a : Addr) :
    (b.write x v).isPort a = b.isPort a := by
  cases b with
  | flat ram => rfl
  | mmc1 m cart =>
    simp only [Bus.write]
    split_ifs <;> rfl

/-- A store leaves alone every byte it does not name, but for the window reads that a protocol input may
bank elsewhere (R60, R77). -/
theorem Bus.peek_write_frame {b : Bus} {d a : Addr} (v : Byte) (hs : b.sameByte d a = false)
    (hp : b.isPort d = false ∨ a.toNat < Config.cartStart) : (b.write d v).peek a = b.peek a := by
  cases hport : b.isPort d with
  | false => exact Bus.peek_write_other v hport hs
  | true => exact Bus.peek_write_port v hport (hp.resolve_left (by simp [hport]))

theorem Bus.peek_writes_frame {b : Bus} {a : Addr} {ws : List (Addr × Byte)}
    (hs : ∀ w ∈ ws, b.sameByte w.1 a = false)
    (hp : (∀ w ∈ ws, b.isPort w.1 = false) ∨ a.toNat < Config.cartStart) :
    (b.writes ws).peek a = b.peek a := by
  induction ws generalizing b with
  | nil => rfl
  | cons w ws ih =>
    obtain ⟨hhead, htail⟩ := List.forall_mem_cons.mp hs
    rw [List.forall_mem_cons] at hp
    rw [Bus.writes_cons, ih (by simpa using htail) (by simpa using hp.imp_left And.right),
      Bus.peek_write_frame w.2 hhead (hp.imp_left And.left)]

/-- Stores below the cartridge window change the mapper's RAMs at most (R83, R84). -/
theorem Bus.writes_below {m : MapperState} {cart : Cart} {ws : List (Addr × Byte)}
    (h : ∀ w ∈ ws, w.1.toNat < Config.cartStart) : ∃ wram prgRam,
      (Bus.mmc1 m cart).writes ws = .mmc1 { m with wram := wram, prgRam := prgRam } cart := by
  induction ws generalizing m with
  | nil => exact ⟨m.wram, m.prgRam, rfl⟩
  | cons w ws ih =>
    obtain ⟨hhead, htail⟩ := List.forall_mem_cons.mp h
    obtain ⟨wram, prgRam, hw⟩ := Bus.write_below (m := m) (cart := cart) w.2 hhead
    rw [Bus.writes_cons, hw]
    exact ih htail

/-! ### FlatBus (R93) -/

theorem Bus.writes_flat (ram : Memory) (ws : List (Addr × Byte)) :
    ∃ ram', (Bus.flat ram).writes ws = .flat ram' := by
  induction ws generalizing ram with
  | nil => exact ⟨ram, rfl⟩
  | cons w ws ih => exact ih _

theorem Bus.read_flat_ne_error {b : Bus} {ram : Memory} (hb : b = .flat ram) (a : Addr) (off : Nat) :
    b.read a ≠ .error off := by
  rw [hb]
  exact nofun

/-- Every instruction completes on FlatBus: its one fault is a byte that cannot be read. -/
theorem exec_flat {s : State} {ram : Memory} (hb : s.bus = .flat ram) (i : Instr) :
    ∃ t, exec i s = .next t := by
  cases he : exec i s with
  | next t => exact ⟨t, rfl⟩
  | fault f =>
    obtain ⟨a, off, hread, -⟩ := exec_fault he
    exact absurd hread (Bus.read_flat_ne_error hb a off)
  | refused r => exact absurd he (exec_not_refused i s r)

end Sys2Proof.Machine
end

section
/-! SUPPORT. How a step ends in its fetch (R175, R321, R322, R127). -/

namespace Sys2Proof.Machine

variable {s : State} {m : MapperState} {cart : Cart} {op : Byte} {d : Descriptor}

/-! ### The implemented bytes (R127) -/

/-- A set of bytes as a number: bit `n` is set where the byte `n` is in the list. -/
def byteMask (bs : List Byte) : Nat := bs.foldr (fun b mask => mask ||| 2 ^ b.toNat) 0

theorem testBit_byteMask (bs : List Byte) (op : Byte) :
    (byteMask bs).testBit op.toNat = decide (op ∈ bs) := by
  induction bs with
  | nil => simp [byteMask]
  | cons b bs ih =>
    have heq : b.toNat = op.toNat ↔ op = b := by rw [eq_comm, BitVec.toNat_inj]
    have hcons : byteMask (b :: bs) = byteMask bs ||| 2 ^ b.toNat := rfl
    rw [hcons, Nat.testBit_or, ih, Nat.testBit_two_pow, Bool.eq_iff_iff]
    simp only [Bool.or_eq_true, decide_eq_true_eq, List.mem_cons, heq, or_comm]

theorem byteMask_append (bs bs' : List Byte) : byteMask (bs ++ bs') = byteMask bs ||| byteMask bs' := by
  induction bs with
  | nil => simp [byteMask]
  | cons b bs ih =>
    simp only [byteMask, List.cons_append, List.foldr_cons] at ih ⊢
    rw [ih, Nat.or_right_comm]

/-- The opcode bytes of the dispatch table and the 105 bytes of R127 are each other's complement,
evaluated list by list. -/
theorem byteMask_opcodes_xor_unimplemented :
    byteMask (descriptors.map Descriptor.opcode) ^^^ byteMask unimplementedBytes = 2 ^ 256 - 1 := by
  simp only [descriptors, descriptorsLoadStore, descriptorsArithLogic, descriptorsIncDecShift,
    descriptorsBranch, descriptorsControl, descriptorsFlagsStack, unimplementedBytes, List.map_append,
    byteMask_append]
  decide

/-- The bytes with no descriptor are the 105 that R127 lists. -/
theorem descriptorOf_eq_none_iff (op : Byte) : descriptorOf op = none ↔ op ∈ unimplementedBytes := by
  have htable : descriptorOf op = none ↔ op ∉ descriptors.map Descriptor.opcode := by
    simp [descriptorOf, List.find?_eq_none]
  have hone := congrArg (·.testBit op.toNat) byteMask_opcodes_xor_unimplemented
  simp only [Nat.testBit_xor, testBit_byteMask, Nat.testBit_two_pow_sub_one,
    decide_eq_true op.isLt] at hone
  rw [htable]
  by_cases hmem : op ∈ unimplementedBytes <;> simpa [hmem] using hone

/-! ### Operand bytes -/

theorem fetchOperands_of_first_fails {mode : Mode} (hreads : 1 ≤ mode.operandReads)
    (hb : s.bus = .mmc1 m cart) (h : s.bus.peek (s.pc + 1) = none) :
    fetchOperands mode s =
      .raise (.mapperOffsetOverflow (s.pc + 1) (prgOffset m cart.romSize (s.pc + 1)) s.pc) := by
  have hread := busAccess_of_peek_eq_none .read hb h
  unfold fetchOperands
  split
  · omega
  · rw [memRead, hread, Res.bind_raise]
  · rw [memRead, hread, Res.bind_raise]

theorem fetchOperands_of_second_fails {mode : Mode} (hreads : 2 ≤ mode.operandReads)
    (hb : s.bus = .mmc1 m cart) (h1 : s.bus.peek (s.pc + 1) ≠ none)
    (h2 : s.bus.peek (s.pc + 2) = none) :
    fetchOperands mode s =
      .raise (.mapperOffsetOverflow (s.pc + 2) (prgOffset m cart.romSize (s.pc + 2)) s.pc) := by
  obtain ⟨lo, hlo⟩ := Option.ne_none_iff_exists'.mp h1
  have hfirst := busAccess_of_read .read (peek_eq_some.mp hlo)
  have hsecond : busAccess .read (s.pc + 2) (s.event .read (s.pc + 1)) =
      .raise (.mapperOffsetOverflow (s.pc + 2) (prgOffset m cart.romSize (s.pc + 2)) s.pc) := by
    simpa using busAccess_of_peek_eq_none (s := s.event .read (s.pc + 1)) .read
      (by simpa using hb) (by simpa using h2)
  unfold fetchOperands
  split
  · omega
  · omega
  · rw [memRead, hfirst, Res.bind_ok, memRead, hsecond, Res.bind_raise]

/-! ### The fetch -/

/-- With an implemented opcode byte the fetch goes on to the operand bytes, its Execute event done. -/
theorem fetchInstr_of_descriptor (hop : s.bus.read s.pc = .ok op) (hd : descriptorOf op = some d) :
    fetchInstr s = (fetchOperands d.mode (s.event .execute s.pc)).bind
      fun ops t => .ok (d.build ops.1 ops.2) t := by
  rw [fetchInstr, fetchByte, busAccess_of_read _ hop, Res.bind_ok, hd]

theorem fetchInstr_of_operands_raise {f : Fault} (hop : s.bus.read s.pc = .ok op)
    (hd : descriptorOf op = some d)
    (hf : fetchOperands d.mode (s.event .execute s.pc) = .raise f) : fetchInstr s = .raise f := by
  rw [fetchInstr_of_descriptor hop hd, hf, Res.bind_raise]

theorem fetchInstr_of_no_descriptor (hop : s.bus.read s.pc = .ok op) (hd : descriptorOf op = none) :
    fetchInstr s = .raise (.unimplementedOpcode s.pc op) := by
  rw [fetchInstr, fetchByte, busAccess_of_read _ hop, Res.bind_ok, hd]

/-- On FlatBus an implemented opcode byte is all a fetch needs. -/
theorem fetchInstr_flat {ram : Memory} (hb : s.bus = .flat ram)
    (hd : descriptorOf (Memory.read ram s.pc.toNat) ≠ none) :
    ∃ i t, fetchInstr s = .ok i t := by
  cases hf : fetchInstr s with
  | ok i t => exact ⟨i, t, rfl⟩
  | raise f =>
    rcases fetchInstr_raise hf with ⟨a, off, hread, -⟩ | ⟨op, hread, hnone, -⟩
    · exact absurd hread (Bus.read_flat_ne_error hb a off)
    · rw [hb] at hread
      cases hread
      exact absurd hnone hd

/-! ### The step -/

theorem step_of_fetch_raise {f : Fault} (hrun : s.run = .running) (hf : fetchInstr s = .raise f) :
    step s = .fault f := by
  simp only [step, hrun, runInstr, hf]

theorem step_of_next {i : Instr} {t u : State} (hrun : s.run = .running)
    (hf : fetchInstr s = .ok i t) (he : exec i t = .next u) (hcheck : s.params.stuckPcCheck = false) :
    step s = .next (u.setSteps (u.steps + 1)) := by
  obtain ⟨_, -, -, -, -, -, hparams, -⟩ := exec_stored he
  have hoff : u.params.stuckPcCheck = false := by rw [hparams, (fetchInstr_after hf).params_eq, hcheck]
  simp [step, hrun, runInstr, hf, he, completeStep, hoff]

end Sys2Proof.Machine
end

section
/-! The statements of 20_memory.md: reads and their events, the frame of memory, the bus and the mapper,
and the stack instructions. -/

namespace Sys2Proof.Certificates

open Sys2Proof.Machine

/-- Settles O10: an operand in memory is one access at its effective address, from a state that differs
at most in the halt request. -/
theorem operandReadsAreTheBusBytes : Obligations.OperandReadsAreTheBusBytes := by
  unfold Obligations.OperandReadsAreTheBusBytes
  intro s
  refine ⟨fun _ => rfl, ?_, ?_, fun _ _ _ => readOperand_after⟩
  · intro o ea u v hea hv
    rw [← (effectiveAddress_after hea).bus_eq] at hv
    exact ⟨_, (readOperand_mem hea).trans (busAccess_of_read .read (peek_eq_some.mp hv))⟩
  · intro o ea u hea hnone
    have ha := effectiveAddress_after hea
    obtain ⟨m, cart, hb, -, hoff, -⟩ := Bus.peek_eq_none hnone
    refine ⟨m, cart, hb, hoff, ?_⟩
    rw [← ha.bus_eq] at hb hnone
    rw [readOperand_mem hea, ← ha.pc_eq]
    exact busAccess_of_peek_eq_none .read hb hnone

/-- Settles O13: the faults of a step, but for the stuck-PC check, are unreadable bytes, of which
FlatBus has none, and opcode bytes without a descriptor. -/
theorem flatBusStepsAreSafe : Obligations.FlatBusStepsAreSafe := by
  unfold Obligations.FlatBusStepsAreSafe
  intro i s ram hb
  refine ⟨?_, fun hrun hcheck => ?_⟩
  · obtain ⟨t, ht⟩ := exec_flat hb i
    obtain ⟨ws, -, hbus, hrun, hsteps, hbp, hparams, -⟩ := exec_stored ht
    obtain ⟨ram', hram⟩ := Bus.writes_flat ram ws
    exact ⟨t, ram', ht, by rw [hbus, hb, hram], hrun, hsteps, hbp, hparams⟩
  · rw [← descriptorOf_eq_none_iff]
    constructor
    · rintro ⟨t, ht⟩ hd
      rw [step_of_fetch_raise hrun (fetchInstr_of_no_descriptor (by rw [hb]; rfl) hd)] at ht
      cases ht
    · intro hd
      obtain ⟨j, t, hf⟩ := fetchInstr_flat hb hd
      obtain ⟨u, hu⟩ := exec_flat ((fetchInstr_after hf).bus_eq.trans hb) j
      exact ⟨_, step_of_next hrun hf hu hcheck⟩

/-- Settles O16: an instruction leaves the bus after the stores to its targets, and each store has its
frame. -/
theorem memoryChangesOnlyAtStoreTargets : Obligations.MemoryChangesOnlyAtStoreTargets := by
  unfold Obligations.MemoryChangesOnlyAtStoreTargets
  intro i s t h
  obtain ⟨ws, hws, hbus, -⟩ := exec_stored h
  rw [hbus, ← hws]
  refine ⟨fun hnil => ?_, fun a hs hp => ?_⟩
  · obtain rfl := List.map_eq_nil_iff.mp hnil
    exact ⟨rfl, fun _ => rfl⟩
  · rw [List.forall_mem_map] at hs hp
    exact Bus.peek_writes_frame hs hp

/-- Settles O17: each of the instruction's stores is below the window and writes RAM at most. -/
theorem mapperRegistersChangeOnlyByWindowStores :
    Obligations.MapperRegistersChangeOnlyByWindowStores := by
  unfold Obligations.MapperRegistersChangeOnlyByWindowStores
  intro i s t m cart hb h hbelow
  obtain ⟨ws, hws, hbus, -⟩ := exec_stored h
  rw [← hws, List.forall_mem_map] at hbelow
  rw [hbus, hb]
  exact Bus.writes_below hbelow

/-- Settles O33: the two pushed bytes, said of the number PC0 + 2. -/
theorem jsrPushesTheReturnAddress : Obligations.JsrPushesTheReturnAddress := by
  unfold Obligations.JsrPushesTheReturnAddress
  intro s w
  refine ⟨rfl, _, rfl, ?_⟩
  have hret : (s.pc + 2).toNat = (s.pc.toNat + 2) % 65536 := BitVec.toNat_add ..
  have hlow : lowByte (s.pc + 2) = BitVec.ofNat 8 (s.pc.toNat + 2) := by
    apply BitVec.eq_of_toNat_eq
    rw [lowByte_eq, hret, BitVec.toNat_ofNat, BitVec.toNat_ofNat, Nat.mod_mod_of_dvd _ (by decide)]
  have ha := (pushAddr_after (s.pc + 2) s).setPc w
  rw [highByte_eq, hlow, hret] at ha
  exact ha

/-- Settles O34: RTS in every state, the pulled word as a number. -/
theorem rtsReturnsPastThePulledAddress : Obligations.RtsReturnsPastThePulledAddress := by
  unfold Obligations.RtsReturnsPastThePulledAddress
  intro s
  obtain ⟨lo, hi, hlo, hhi, hg⟩ := rts_gives s
  rw [wordOf_eq, show (1 : Addr) = BitVec.ofNat 16 1 from rfl, ← BitVec.ofNat_add] at hg
  exact ⟨rfl, lo, hi, peek_eq_some.mpr hlo, peek_eq_some.mpr hhi, hg⟩

/-- Settles O45, range by range: RAM reads back what was written, open bus holds nothing. -/
theorem mmc1AddressMap : Obligations.Mmc1AddressMap := by
  unfold Obligations.Mmc1AddressMap
  intro m cart a a' v hw
  have hport (h : a.toNat < 0x8000) : (Bus.mmc1 m cart).isPort a = false :=
    decide_eq_false (Nat.not_le.mpr h)
  refine ⟨fun ha ha' heq => ?_, fun hlo hhi => ?_, fun hlo hhi hram => ?_, fun hlo hhi hram => ?_⟩
  · have hsame : (Bus.mmc1 m cart).sameByte a a' = true := by
      simp [Bus.sameByte, wramIndex, Config.openBusStart, Config.wramSize, ha, ha', heq]
    refine (Bus.peek_write_same v hw hsame (hport (by omega))).resolve_left ?_
    rintro ⟨_, _, -, hopen, -⟩
    exact absurd hopen (Nat.not_le.mpr ha)
  · exact Bus.open_write_peek hlo (Nat.lt_trans hhi (by decide)) (.inl hhi) v
  · have hsame : (Bus.mmc1 m cart).sameByte a a = true := by simp [Bus.sameByte]
    refine (Bus.peek_write_same v hw hsame (hport hhi)).resolve_left ?_
    rintro ⟨_, _, hb, -, hbelow | habsent⟩
    · exact absurd hbelow (Nat.not_lt.mpr hlo)
    · cases hb
      rw [hram] at habsent
      cases habsent
  · exact Bus.open_write_peek (Nat.le_trans (by decide) hlo) hhi (.inr hram) v

/-- Settles O47: four writes fill the accumulator bit by bit and the fifth commits it. -/
theorem fiveWritesCommit : Obligations.FiveWritesCommit := by
  unfold Obligations.FiveWritesCommit
  intro m cart a0 a1 a2 a3 a4 v0 v1 v2 v3 v4 hs hc ha hv val
  simp only [List.forall_mem_cons, List.not_mem_nil, false_implies, implies_true, and_true] at ha hv
  obtain ⟨ha0, ha1, ha2, ha3, ha4⟩ := ha
  obtain ⟨hv0, hv1, hv2, hv3, hv4⟩ := hv
  rw [MapperState.eq_holding_zero hs hc,
    Bus.write_holding (k' := 1) (p := 1) rfl rfl (by decide) ha0 hv0,
    Bus.write_holding (k' := 2) (p := 2) rfl rfl (by omega) ha1 hv1,
    Bus.write_holding (k' := 3) (p := 4) rfl rfl (by omega) ha2 hv2,
    Bus.write_holding (k' := 4) (p := 8) rfl rfl (by omega) ha3 hv3,
    Bus.write_holding_four (by omega) ha4 hv4, commit_eq _ ha4, Nat.zero_add, Nat.one_mul]

/-- Settles O48, mode by mode. -/
theorem prgOffsetByMode : Obligations.PrgOffsetByMode := by
  unfold Obligations.PrgOffsetByMode
  intro m size a _ _ mode bank
  have hmode : m.prgMode.toNat = mode := m.prgMode_toNat
  have hbank : m.prgBank.toNat = bank := m.prgBank_toNat
  have hlt : mode < 4 := Nat.mod_lt _ (by decide)
  simp only [prgOffset, hmode, even_bank_offset, hbank]
  clear_value mode
  match mode, hlt with
  | 0, _ => rfl
  | 1, _ => rfl
  | 2, _ => rfl
  | 3, _ => rfl

/-- Settles O49: the read of a window byte is decided by its ROM offset, and a step ends at the first
byte of its instruction that cannot be read. -/
theorem cartridgeReads : Obligations.CartridgeReads := by
  unfold Obligations.CartridgeReads
  intro s m cart a hb overflow
  refine ⟨fun ha => ⟨fun hlt => ?_, fun hle => ?_⟩,
    fun hrun => ⟨fun hnone => ?_, fun op d hop hd => ?_⟩⟩
  · have hread := Bus.read_cart (m := m) (cart := cart) ha
    rw [if_pos hlt, ← hb] at hread
    exact ⟨_, event_after s .read a, busAccess_of_read .read hread⟩
  · have hread := Bus.read_cart (m := m) (cart := cart) ha
    rw [if_neg (Nat.not_lt.mpr hle), ← hb] at hread
    exact busAccess_of_error .read hread
  · refine step_of_fetch_raise hrun ?_
    rw [fetchInstr, fetchByte, busAccess_of_peek_eq_none .execute hb hnone, Res.bind_raise]
  · have hop := peek_eq_some.mp hop
    refine ⟨fun hreads h1 => ?_, fun hreads h1 h2 => ?_⟩
    · refine step_of_fetch_raise hrun (fetchInstr_of_operands_raise hop hd ?_)
      simpa using fetchOperands_of_first_fails (s := s.event .execute s.pc) hreads
        (by simpa using hb) (by simpa using h1)
    · refine step_of_fetch_raise hrun (fetchInstr_of_operands_raise hop hd ?_)
      simpa using fetchOperands_of_second_fails (s := s.event .execute s.pc) hreads
        (by simpa using hb) (by simpa using h1) (by simpa using h2)

/-- Settles O12: every access is its event and the bus's byte, in the order R353 and R354 give. -/
theorem eventsBracketTheirAccess : Obligations.EventsBracketTheirAccess := by
  unfold Obligations.EventsBracketTheirAccess
  intro s a v
  simp only [← event_eq_answered]
  refine ⟨fun hv => ?_, fun m cart hb hnone => ?_, rfl, rfl⟩
  · have hread := peek_eq_some.mp hv
    exact ⟨busAccess_of_read .read hread, busAccess_of_read .execute hread, hostReadByte_of_read hread⟩
  · exact ⟨s.pc, hostReadByte_of_error (Bus.read_of_peek_eq_none hb hnone)⟩

/-- Settles O44, by whether the two addresses are one. -/
theorem flatBusIsRam : Obligations.FlatBusIsRam := by
  unfold Obligations.FlatBusIsRam
  intro ram a a' v hw
  split_ifs with h
  · subst h
    refine (Bus.peek_write_same v hw (by simp [Bus.sameByte]) rfl).resolve_left ?_
    rintro ⟨_, _, hb, -⟩
    cases hb
  · exact Bus.peek_write_other v rfl (by simpa [Bus.sameByte] using Ne.symm h)

/-- Settles O46: the write is an input of the protocol, and its bit 7 is set. -/
theorem protocolReset : Obligations.ProtocolReset := by
  unfold Obligations.ProtocolReset
  intro m cart a v ha hv
  rw [Bus.write_cart ha, shiftWrite_reset m a hv]

end Sys2Proof.Certificates
end

section
/-! SUPPORT. Encoding and decoding: the dispatch table has one entry for every instruction, found by its
opcode byte, and what the decoder takes from a byte string (R120 to R127). -/

namespace Sys2Proof

variable {i : Instr} {d : Descriptor} {lo hi : Byte} {bs rest : List Byte}

/-! ### The entry of an instruction (R123) -/

/-- The operand byte at position `n` of an instruction's encoding, 0 where it has none. -/
def Instr.operandByte (i : Instr) (n : Nat) : Byte := (encode i).tail.getD n 0

theorem encode_eq_cons (i : Instr) : encode i = i.opcode :: (encode i).tail := by
  cases i <;> rfl

/-- The table lists the instructions in the order of their constructors, so the entry of one stands at
its constructor's index. -/
theorem descriptors_at_ctorIdx (i : Instr) : ∃ d, descriptors[i.ctorIdx]? = some d ∧
    d.opcode = i.opcode ∧ d.mnemonic = i.mnemonic ∧ d.mode = i.mode ∧
    d.build (i.operandByte 0) (i.operandByte 1) = i := by
  cases i <;> exact ⟨_, rfl, rfl, rfl, rfl, by simp [Instr.operandByte, encode]⟩

theorem descriptors_length : descriptors.length = 151 := by
  simp only [descriptors, List.length_append]
  rfl

theorem unimplementedBytes_length : unimplementedBytes.length = 105 := rfl

/-- Every one of the 256 bytes is among the opcodes of the 151 entries and the 105 bytes of R127, so
none of them is there twice. -/
theorem opcodes_nodup : (descriptors.map Descriptor.opcode).Nodup := by
  have hall : (descriptors.map Descriptor.opcode ++ unimplementedBytes).toFinset = Finset.univ := by
    refine Finset.eq_univ_iff_forall.mpr fun op => ?_
    rw [List.mem_toFinset, List.mem_append, ← Machine.descriptorOf_eq_none_iff]
    cases hd : descriptorOf op with
    | none => exact .inr rfl
    | some d =>
      obtain ⟨hmem, hop⟩ := descriptorOf_some hd
      exact .inl (List.mem_map.mpr ⟨d, hmem, hop⟩)
  have hcard : (descriptors.map Descriptor.opcode ++ unimplementedBytes).toFinset.card =
      (descriptors.map Descriptor.opcode ++ unimplementedBytes).length := by
    rw [hall, Finset.card_univ, ← FinEnum.card_eq_fintypeCard, FinEnum.card_bitVec,
      List.length_append, List.length_map, descriptors_length, unimplementedBytes_length]
    rfl
  exact (Multiset.coe_nodup.mp (Multiset.toFinset_card_eq_card_iff_nodup.mp hcard)).of_append_left

/-- An entry of the table is what a lookup of its opcode byte finds. -/
theorem descriptorOf_of_mem (hmem : d ∈ descriptors) : descriptorOf d.opcode = some d := by
  cases hfind : descriptorOf d.opcode with
  | none =>
    simp only [descriptorOf, List.find?_eq_none] at hfind
    exact absurd BEq.rfl (hfind d hmem)
  | some d' =>
    obtain ⟨hmem', hop⟩ := descriptorOf_some hfind
    rw [List.inj_on_of_nodup_map opcodes_nodup hmem' hmem hop]

/-- The entry found by the opcode byte of an instruction describes it and makes it again from its
operand bytes (R123, R170). -/
theorem descriptorOf_opcode (i : Instr) : ∃ d, descriptorOf i.opcode = some d ∧
    d.mnemonic = i.mnemonic ∧ d.mode = i.mode ∧
    d.build (i.operandByte 0) (i.operandByte 1) = i := by
  obtain ⟨d, hat, hop, hrest⟩ := descriptors_at_ctorIdx i
  exact ⟨d, hop ▸ descriptorOf_of_mem (List.mem_of_getElem? hat), hrest⟩

/-- What an entry makes has the entry's opcode byte. -/
theorem opcode_build (hmem : d ∈ descriptors) (lo hi : Byte) : (d.build lo hi).opcode = d.opcode := by
  rw [Instr.opcode, descriptors_agree d hmem lo hi, List.headD_cons]

/-! ### Lengths and operand bytes (R122, R126) -/

theorem Mode.length_bounds (m : Mode) : 1 ≤ m.length ∧ m.length ≤ 3 := by
  cases m <;> decide

/-- But for BRK, every byte after the opcode is read (R122). -/
theorem Mode.operandReads_eq {m : Mode} (hm : m ≠ .brk) : m.operandReads = m.length - 1 := by
  cases m with
  | brk => exact absurd rfl hm
  | _ => rfl

/-- The operand bytes at the front of a byte string are taken off it. -/
theorem takeOperands_append (ops rest : List Byte) (hlen : ops.length ≤ 2) :
    takeOperands (ops.length + 1) (ops ++ rest) = some (ops.getD 0 0, ops.getD 1 0, rest) :=
  match ops, hlen with
  | [], _ => rfl
  | [_], _ => rfl
  | [_, _], _ => rfl

/-- What taking the operand bytes answers, by the instruction's length. -/
theorem takeOperands_eq_some {n : Nat} (h : takeOperands n bs = some (lo, hi, rest)) :
    (n = 1 ∧ lo = 0 ∧ hi = 0 ∧ bs = rest) ∨ (n = 2 ∧ hi = 0 ∧ bs = lo :: rest) ∨
      (n = 3 ∧ bs = lo :: hi :: rest) := by
  unfold takeOperands at h
  split at h <;> cases h <;> simp

/-- But for BRK, the bytes taken are those the encoder writes after the opcode. -/
theorem eq_operandBytes_append {m : Mode} (hm : m ≠ .brk)
    (h : takeOperands m.length bs = some (lo, hi, rest)) : bs = operandBytes m lo hi ++ rest := by
  rcases takeOperands_eq_some h with ⟨hlen, -, -, rfl⟩ | ⟨hlen, -, rfl⟩ | ⟨hlen, rfl⟩ <;>
    simp [operandBytes, hlen, hm]

/-! ### The decoder (R120) -/

/-- A byte string decodes exactly where its first byte has an entry and as many bytes follow as the
entry's mode says. -/
theorem decode_eq_ok_iff : decode bs = .ok (i, rest) ↔ ∃ op tail d lo hi, bs = op :: tail ∧
    descriptorOf op = some d ∧ takeOperands d.mode.length tail = some (lo, hi, rest) ∧
    d.build lo hi = i := by
  constructor
  · intro h
    cases bs with
    | nil => cases h
    | cons op tail =>
      cases hd : descriptorOf op with
      | none => simp [decode, hd] at h
      | some d =>
        cases htake : takeOperands d.mode.length tail with
        | none => simp [decode, hd, htake] at h
        | some taken =>
          obtain ⟨lo, hi, rest'⟩ := taken
          simp only [decode, hd, htake, Except.ok.injEq, Prod.mk.injEq] at h
          obtain ⟨hbuild, rfl⟩ := h
          exact ⟨op, tail, d, lo, hi, rfl, hd, htake, hbuild⟩
  · rintro ⟨op, tail, d, lo, hi, rfl, hd, htake, rfl⟩
    simp only [decode, hd, htake]

theorem decode_encode (i : Instr) (rest : List Byte) : decode (encode i ++ rest) = .ok (i, rest) := by
  obtain ⟨d, hd, -, hmode, hbuild⟩ := descriptorOf_opcode i
  have hlen : (encode i).tail.length + 1 = d.mode.length := by
    rw [hmode, ← Machine.length_eq, Instr.length, encode_eq_cons i, List.length_cons, List.tail_cons]
  have hbound := d.mode.length_bounds
  rw [decode_eq_ok_iff]
  refine ⟨i.opcode, (encode i).tail ++ rest, d, _, _, ?_, hd, ?_, hbuild⟩
  · rw [← List.cons_append, ← encode_eq_cons]
  · rw [← hlen]
    exact takeOperands_append _ rest (by omega)

/-- Bytes that decode to BRK are its opcode byte and a signature byte of any value (R122). -/
theorem eq_of_decode_brk (h : decode bs = .ok (.brk, rest)) : ∃ sig, bs = 0x00 :: sig :: rest := by
  obtain ⟨op, tail, d, lo, hi, rfl, hd, htake, hbuild⟩ := decode_eq_ok_iff.mp h
  obtain ⟨hmem, rfl⟩ := descriptorOf_some hd
  have hop : d.opcode = Instr.opcode .brk := by rw [← opcode_build hmem lo hi, hbuild]
  obtain ⟨d', hd', -, hmode, -⟩ := descriptorOf_opcode .brk
  obtain rfl : d = d' := by simpa [hop, hd'] using hd.symm
  rw [hmode] at htake
  rcases takeOperands_eq_some htake with ⟨hlen, -⟩ | ⟨-, -, rfl⟩ | ⟨hlen, -⟩
  · cases hlen
  · exact ⟨lo, by rw [hop]; rfl⟩
  · cases hlen

/-- Bytes that decode to another instruction begin with its encoding. -/
theorem eq_encode_append_of_decode (hi : i ≠ .brk) (h : decode bs = .ok (i, rest)) :
    bs = encode i ++ rest := by
  obtain ⟨op, tail, d, b0, b1, rfl, hd, htake, rfl⟩ := decode_eq_ok_iff.mp h
  obtain ⟨hmem, rfl⟩ := descriptorOf_some hd
  have hm : d.mode ≠ .brk := fun hm => hi (descriptors_brk d hmem hm b0 b1)
  rw [descriptors_agree d hmem, eq_operandBytes_append hm htake, List.cons_append]

end Sys2Proof
end

section
/-! SUPPORT. The fetch of an instruction whose bytes stand at PC, and how a step goes on from it (R175,
R342, R323). -/

namespace Sys2Proof.Machine

variable {s : State} {i : Instr} {m : Mode} {lo hi op : Byte} {bs tail rest : List Byte}

/-! ### Fetching what decodes -/

theorem fetchOperands_zero (h : m.operandReads = 0) : fetchOperands m s = .ok (0, 0) s := by
  simp only [fetchOperands, h]

theorem fetchOperands_one (h : m.operandReads = 1) :
    fetchOperands m s = (memRead (s.pc + 1) s).bind fun lo t => .ok (lo, 0) t := by
  simp only [fetchOperands, h]

theorem fetchOperands_two (h : m.operandReads = 2) :
    fetchOperands m s = (memRead (s.pc + 1) s).bind fun lo t =>
      (memRead (s.pc + 2) t).bind fun hi u => .ok (lo, hi) u := by
  simp only [fetchOperands, h]

/-- Operand bytes that stand after the opcode are the ones read. -/
theorem fetchOperands_of_holds (hm : m ≠ .brk)
    (htake : takeOperands m.length tail = some (lo, hi, rest)) (hb : s.bus.Holds (s.pc + 1) tail) :
    ∃ t, fetchOperands m s = .ok (lo, hi) t := by
  have hreads := Mode.operandReads_eq hm
  rcases takeOperands_eq_some htake with ⟨hlen, rfl, rfl, -⟩ | ⟨hlen, rfl, rfl⟩ | ⟨hlen, rfl⟩ <;>
    rw [hlen] at hreads
  · exact ⟨s, fetchOperands_zero hreads⟩
  · obtain ⟨hlo, -⟩ := hb
    exact ⟨_, by rw [fetchOperands_one hreads, memRead, busAccess_of_read .read (peek_eq_some.mp hlo),
      Res.bind_ok]⟩
  · obtain ⟨hlo, hhi, -⟩ := hb
    have hsecond : (s.event .read (s.pc + 1)).bus.read (s.pc + 2) = .ok hi := by
      rw [event_bus, ← peek_eq_some, ← hhi, BitVec.add_assoc]
      rfl
    exact ⟨_, by rw [fetchOperands_two hreads, memRead, busAccess_of_read .read (peek_eq_some.mp hlo),
      Res.bind_ok, memRead, busAccess_of_read .read hsecond, Res.bind_ok]⟩

/-- The fetch answers the instruction that the bytes at PC decode to. -/
theorem fetchInstr_of_decode (hi : i ≠ .brk) (hdec : decode bs = .ok (i, rest))
    (hb : s.bus.Holds s.pc bs) : ∃ t, fetchInstr s = .ok i t := by
  obtain ⟨op, tail, d, b0, b1, rfl, hd, htake, rfl⟩ := decode_eq_ok_iff.mp hdec
  obtain ⟨hop, htail⟩ := hb
  have hm : d.mode ≠ .brk := fun hm => hi (descriptors_brk d (descriptorOf_some hd).1 hm b0 b1)
  obtain ⟨t, ht⟩ := fetchOperands_of_holds (s := s.event .execute s.pc) hm htake (by simpa using htail)
  exact ⟨t, by rw [fetchInstr_of_descriptor (peek_eq_some.mp hop) hd, ht, Res.bind_ok]⟩

/-- For BRK the opcode byte alone is read (R122). -/
theorem fetchInstr_brk (hop : s.bus.peek s.pc = some 0x00) : ∃ t, fetchInstr s = .ok .brk t := by
  obtain ⟨d, hd, -, hmode, -⟩ := descriptorOf_opcode .brk
  refine ⟨s.event .execute s.pc, ?_⟩
  rw [fetchInstr_of_descriptor (peek_eq_some.mp hop) hd, hmode]
  exact congrArg (Res.ok · _) (descriptors_brk d (descriptorOf_some hd).1 hmode 0 0)

/-! ### The step from the fetch on -/

/-- A Running machine, or a Halted one resumed for the step, runs one instruction (R342). -/
theorem step_eq_runInstr (hrun : s.run = .running ∨ s.run = .halted) :
    step s = runInstr (s.setRun .running) := by
  rcases hrun with hrun | hrun
  · have hsame : s.setRun .running = s := by rw [← hrun]; rfl
    rw [step, hrun, hsame]
  · rw [step, hrun]

theorem runInstr_of_fetch {t : State} (hf : fetchInstr s = .ok i t) :
    runInstr s = completeStep s.pc (exec i t) := by
  rw [runInstr, hf]

/-- The faults of a step: those of the fetch and of the instruction's meaning, and the stuck-PC check's
(R321 to R323). -/
theorem runInstr_eq_fault {f : Fault} (h : runInstr s = .fault f) :
    fetchInstr s = .raise f ∨ (∃ i t, fetchInstr s = .ok i t ∧ exec i t = .fault f) ∨
      f = .stuckPc s.pc := by
  unfold runInstr at h
  split at h
  next i t hf =>
    cases he : exec i t with
    | next u =>
      simp only [he, completeStep] at h
      split at h
      · cases h
        exact .inr (.inr rfl)
      · cases h
    | fault f' =>
      rw [he] at h
      cases h
      exact .inr (.inl ⟨i, t, hf, he⟩)
    | refused r =>
      rw [he] at h
      cases h
  next f' hf =>
    cases h
    exact .inl hf

/-- Only the fetch of a byte without a descriptor raises UnimplementedOpcode (R321). -/
theorem descriptorOf_of_step_unimplemented {a : Addr} (hrun : s.run = .running)
    (h : step s = .fault (.unimplementedOpcode a op)) : descriptorOf op = none := by
  have hr : runInstr s = .fault (.unimplementedOpcode a op) := by rw [← h, step, hrun]
  rcases runInstr_eq_fault hr with hf | ⟨i, t, -, he⟩ | hf
  · rcases fetchInstr_raise hf with ⟨_, _, -, hf⟩ | ⟨_, -, hnone, hf⟩
    · cases hf
    · cases hf
      exact hnone
  · obtain ⟨_, _, -, hf⟩ := exec_fault he
    cases hf
  · cases hf

end Sys2Proof.Machine
end

section
/-! The statements of 30_encoding.md: the encoder and the decoder agree, the dispatch table describes
each instruction, and a step runs the instruction its bytes decode to. -/

namespace Sys2Proof.Certificates

open Sys2Proof.Machine

/-- Settles O1: the table's entry for the opcode byte makes the instruction from its operand bytes. -/
theorem decodeOfEncodeIsTheInstruction : Obligations.DecodeOfEncodeIsTheInstruction := by
  unfold Obligations.DecodeOfEncodeIsTheInstruction
  intro i rest _
  exact decode_encode i rest

/-- Settles O2: the entry of the first byte agrees with the encoder, but for BRK's signature byte. -/
theorem decodedBytesAreTheEncoding : Obligations.DecodedBytesAreTheEncoding := by
  unfold Obligations.DecodedBytesAreTheEncoding
  intro bs i rest h
  refine ⟨fun hi => eq_encode_append_of_decode hi h, ?_⟩
  rintro rfl
  exact eq_of_decode_brk h

/-- Settles O3: the listed bytes are those without a descriptor, and only such a byte raises the
fault. -/
theorem unimplementedBytesFault : Obligations.UnimplementedBytesFault := by
  unfold Obligations.UnimplementedBytesFault
  intro s t op hrun hfetch
  obtain ⟨-, hread⟩ := busAccess_ok hfetch
  rw [← descriptorOf_eq_none_iff]
  constructor
  · exact fun hnone => step_of_fetch_raise hrun (fetchInstr_of_no_descriptor hread hnone)
  · exact descriptorOf_of_step_unimplemented hrun

/-- Settles O4: the entry found by the opcode byte is the instruction's own. -/
theorem descriptorMatchesInstruction : Obligations.DescriptorMatchesInstruction := by
  unfold Obligations.DescriptorMatchesInstruction
  intro i
  obtain ⟨d, hd, hmnemonic, hmode, -⟩ := descriptorOf_opcode i
  have hlen : i.length = d.mode.length := by rw [length_eq, hmode]
  exact ⟨d, hd, hmnemonic, hmode, hlen, hlen ▸ d.mode.length_bounds⟩

/-- Settles O5: the words are encodings, but for BRK with a signature byte and the table word. -/
theorem writtenWordsDecode : Obligations.WrittenWordsDecode := by
  unfold Obligations.WrittenWordsDecode
  exact ⟨decode_encode (.ldaImm 0x01) [], decode_encode (.staAbsx 0x12FF) [],
    decode_encode (.adcIzy 0x20) [], decode_encode (.bitAbs 0x0200) [], decode_encode (.incZpx 0x10) [],
    decode_encode .rorAcc [], decode_encode (.bne 0xF8) [], decode_encode (.jmpInd 0x10FF) [], rfl,
    decode_encode .plp [], rfl⟩

/-- Settles O6: the fetch answers the instruction, and the rest of the step is `completeStep`. -/
theorem stepRunsTheDecodedInstruction : Obligations.StepRunsTheDecodedInstruction := by
  unfold Obligations.StepRunsTheDecodedInstruction
  intro s bs i hrun _ hbytes
  have hfetch : ∃ t, fetchInstr (s.setRun .running) = .ok i t := by
    by_cases hi : i = .brk
    · subst hi
      refine fetchInstr_brk ?_
      rcases hbytes with ⟨hdec, hb⟩ | ⟨-, hop⟩
      · obtain ⟨sig, rfl⟩ := eq_of_decode_brk hdec
        exact hb.1
      · exact hop
    · obtain ⟨hdec, hb⟩ := hbytes.resolve_right fun h => hi h.1
      exact fetchInstr_of_decode hi hdec hb
  obtain ⟨t, hf⟩ := hfetch
  refine ⟨t, fetchInstr_after hf, ?_⟩
  rw [step_eq_runInstr hrun, runInstr_of_fetch hf]
  cases exec i t <;> rfl

end Sys2Proof.Certificates
end

section
/-! SUPPORT. From the dispatch table: the modes and opcode bytes of a mnemonic, and which instructions
advance PC by their length (R125, R171 to R174). -/

namespace Sys2Proof

variable {i : Instr}

/-- The mnemonics, modes and opcode bytes of a part of the dispatch table, in its order (R125). -/
def tableEntries (part : Mnemonic → Mode → Bool) : List (Mnemonic × Mode × Byte) :=
  (descriptors.filter fun d => part d.mnemonic d.mode).map fun d => (d.mnemonic, d.mode, d.opcode)

theorem mem_tableEntries {part : Mnemonic → Mode → Bool} (h : part i.mnemonic i.mode = true) :
    (i.mnemonic, i.mode, i.opcode) ∈ tableEntries part := by
  obtain ⟨d, hd, hmnemonic, hmode, -⟩ := descriptorOf_opcode i
  obtain ⟨hmem, hop⟩ := descriptorOf_some hd
  rw [← hmnemonic, ← hmode] at h ⊢
  rw [← hop]
  exact List.mem_map_of_mem (List.mem_filter.mpr ⟨hmem, h⟩)

/-- The modes a mnemonic has, each with its opcode byte. -/
def Mnemonic.forms (mn : Mnemonic) : List (Mode × Byte) :=
  (tableEntries fun mn' _ => mn' == mn).map Prod.snd

/-- An instruction is one of the forms of its mnemonic. -/
theorem mem_forms {mn : Mnemonic} (h : i.mnemonic = mn) : (i.mode, i.opcode) ∈ mn.forms :=
  List.mem_map_of_mem (f := Prod.snd) (mem_tableEntries (beq_iff_eq.mpr h))

/-- The mnemonics whose instructions set PC themselves (R173, R174). -/
def controlTransfers : List Mnemonic :=
  [.bpl, .bmi, .bvc, .bvs, .bcc, .bcs, .bne, .beq, .jmp, .jsr, .rts, .rti, .brk]

/-- An instruction that sets PC itself is of the Branch or the Jump shape. -/
theorem shape_of_control_transfer {d : Descriptor} (hd : d ∈ descriptors)
    (h : d.mnemonic ∈ controlTransfers) : d.shape = .branch ∨ d.shape = .jump := by
  have hall : (descriptors.filter fun d => d.mnemonic ∈ controlTransfers).all
      (fun d => d.shape == .branch || d.shape == .jump) = true := rfl
  simpa using List.all_eq_true.mp hall d (List.mem_filter.mpr ⟨hd, by simpa using h⟩)

namespace Machine

/-- Every instruction but those that set PC themselves advances PC by its mode's length (R171, R172). -/
theorem exec_advances_of_not_control_transfer (h : i.mnemonic ∉ controlTransfers) (s : State) :
    ∃ r, exec i s = advance i.mode s r := by
  cases ho : i.operand with
  | some o => exact exec_advances ho s
  | none =>
    cases i <;> cases ho
    case none.bpl.refl | none.bmi.refl | none.bvc.refl | none.bvs.refl | none.bcc.refl |
        none.bcs.refl | none.bne.refl | none.beq.refl | none.jmpAbs.refl | none.jmpInd.refl |
        none.jsr.refl | none.rts.refl | none.rti.refl | none.brk.refl =>
      exact absurd (by simp [Instr.mnemonic, controlTransfers]) h
    case none.pla.refl | none.plp.refl => exact ⟨_, rfl⟩
    -- the implied and accumulator instructions that pull nothing cannot fault
    all_goals exact ⟨.ok () _, rfl⟩

end Machine

end Sys2Proof
end

section
/-! SUPPORT. What an instruction with an operand gives, by its mnemonic's operation: the reading and the
modifying instructions, where their operand can be read and where it cannot (R171, R172, R328). -/

namespace Sys2Proof.Machine

variable {i : Instr} {mn : Mnemonic} {o : Operand} {m : MemOperand} {s t u : State} {v : Byte}
  {ea : Addr} {e : Fault}

/-- An update of registers and flags that the halt request has no part in. -/
structure WritesRegisters (f : State → State) : Prop where
  setHaltReq : ∀ s b, f (s.setHaltReq b) = (f s).setHaltReq b
  haltReq_eq : ∀ s, (f s).haltReq = s.haltReq
  bp_eq : ∀ s, (f s).bp = s.bp

/-- Events before such an update might as well come after it. -/
theorem WritesRegisters.after {f : State → State} (hf : WritesRegisters f) (ha : s.AfterEvents t) :
    (f s).AfterEvents (f t) := by
  obtain ⟨b, rfl, hkeep, hset⟩ := ha
  exact ⟨b, hf.setHaltReq s b, by rwa [hf.bp_eq, hf.haltReq_eq], by rwa [hf.haltReq_eq]⟩

theorem exec_eq_of_operation {op : State → Out} (ho : i.operand = some o) (hm : i.mnemonic = mn)
    (hop : operationOf mn o = some op) : exec i = op :=
  Option.some.inj ((exec_of_operand ho).symm.trans (hm ▸ hop))

theorem operand_length (ho : i.operand = some o) : o.mode.length = i.length := by
  rw [length_eq, operand_mode ho]

theorem MemOperand.mode_ne_acc (m : MemOperand) : m.mode ≠ .acc := by
  cases m <;> exact nofun

/-! ### The two shapes -/

section
variable {f : Byte → State → State} (ho : i.operand = some o) (hm : i.mnemonic = mn)
  (hop : operationOf mn o = some (reading f o))
include ho hm hop

/-- A reading instruction makes of the state it began in what its operand's byte says. -/
theorem execGives_of_reading (hf : WritesRegisters (f v)) (hv : readOperand o s = .ok v t) :
    ExecGives i s ((f v s).setPc (s.pc + BitVec.ofNat 16 i.length)) := by
  refine ⟨_, ?_, (hf.after (readOperand_after hv)).setPc _⟩
  rw [exec_eq_of_operation ho hm hop, reading_of_ok hv, operand_length ho]

theorem exec_fault_of_reading (hv : readOperand o s = .raise e) : exec i s = .fault e := by
  rw [exec_eq_of_operation ho hm hop, reading_of_raise hv]

end

section
variable {f : Byte → Flags → Byte × Flags} (ho : i.operand = some (.mem m)) (hm : i.mnemonic = mn)
  (hop : operationOf mn (.mem m) = some (modifying f m))
include ho hm hop

/-- A modifying instruction writes one byte back to its effective address, and the flags. -/
theorem execGives_of_modifying (hea : effectiveAddress m s = .ok ea t)
    (hv : readOperand (.mem m) s = .ok v u) :
    ExecGives i s (((s.setP (f v s.p).2).setBus (s.bus.write ea (f v s.p).1)).setPc
      (s.pc + BitVec.ofNat 16 i.length)) := by
  have ha := readOperand_after hv
  have hw := memWrite_after ea (f v s.p).1 (u.setP (f v s.p).2)
  rw [State.setP_bus, ha.bus_eq] at hw
  refine ⟨_, ?_, (((ha.setP _).setBus _).trans hw).setPc _⟩
  rw [exec_eq_of_operation ho hm hop, modifying_of_ok hea hv, ha.p_eq, ← operand_length ho]
  rfl

theorem exec_fault_of_modifying (hv : readOperand (.mem m) s = .raise e) : exec i s = .fault e := by
  rw [exec_eq_of_operation ho hm hop, modifying_of_raise hv]

end

/-! ### The updates of the reading instructions -/

theorem writesRegisters_loadA (v : Byte) : WritesRegisters (loadA v) :=
  ⟨fun _ _ => rfl, fun _ => rfl, fun _ => rfl⟩

theorem writesRegisters_loadX (v : Byte) : WritesRegisters (loadX v) :=
  ⟨fun _ _ => rfl, fun _ => rfl, fun _ => rfl⟩

theorem writesRegisters_loadY (v : Byte) : WritesRegisters (loadY v) :=
  ⟨fun _ _ => rfl, fun _ => rfl, fun _ => rfl⟩

theorem writesRegisters_aluA (f : Byte → Byte → Flags → Byte × Flags) (v : Byte) :
    WritesRegisters (aluA f v) := ⟨fun _ _ => rfl, fun _ => rfl, fun _ => rfl⟩

/-- The update of the compares and BIT: flags alone. -/
theorem writesRegisters_setP {p : State → Flags} (hp : ∀ s b, p (s.setHaltReq b) = p s) :
    WritesRegisters fun s => s.setP (p s) :=
  ⟨fun s b => by rw [hp]; rfl, fun _ => rfl, fun _ => rfl⟩

end Sys2Proof.Machine
end

section
/-! SUPPORT. The flag computations of SBC, of the logic operations and the compares, and of the modifying
instructions, said once for each family (R162 to R166). -/

namespace Sys2Proof.Machine

variable {mn : Mnemonic}

/-! ### Subtraction -/

/-- The difference of two bytes and a borrow (R162). -/
def borrowDiff (a b : Byte) (carry : Bool) : Int := a.toNat - b.toNat - (1 - carry.toNat)

/-- Adding the complement is subtracting, but for one turn of the byte. -/
theorem sum9_complement (a b : Byte) (c : Bool) :
    (sum9 a (b ^^^ 0xFF) c : Int) = borrowDiff a b c + 256 := by
  have hb := b.isLt
  rw [sum9, complement_toNat, borrowDiff]
  omega

/-- `twosCompSubtract` said of numbers (R162). -/
theorem twosCompSubtract_eq (a b : Byte) (p : Flags) :
    twosCompSubtract a b p = (BitVec.ofInt 8 (borrowDiff a b p.c),
      Flags.ofResult (borrowDiff a b p.c % 256).toNat { p with
        c := decide (0 ≤ borrowDiff a b p.c)
        v := decide (OutsideSigned8 (a.toInt - b.toInt - (1 - p.c.toNat))) }) := by
  have hsum := sum9_complement a b p.c
  have hres : BitVec.ofNat 8 (sum9 a (b ^^^ 0xFF) p.c) = BitVec.ofInt 8 (borrowDiff a b p.c) := by
    apply BitVec.eq_of_toNat_eq
    rw [BitVec.toNat_ofNat, BitVec.toNat_ofInt]
    omega
  have hcarry : 255 < sum9 a (b ^^^ 0xFF) p.c ↔ 0 ≤ borrowDiff a b p.c := by omega
  have hsigned : a.toInt + (-b.toInt - 1) + p.c.toNat = a.toInt - b.toInt - (1 - p.c.toNat) := by omega
  rw [twosCompSubtract, twosCompAdd_eq, hres, complement_toInt, hsigned, decide_eq_decide.mpr hcarry,
    Flags.ofResult_congr (m := (borrowDiff a b p.c % 256).toNat) (by omega)]

/-! ### Logic -/

/-- What AND, ORA and EOR make of A and the operand (R166). -/
def logicByte (mn : Mnemonic) (a v : Byte) : Byte :=
  if mn = .and then a &&& v else if mn = .ora then a ||| v else a ^^^ v

theorem logicByte_getLsbD (mn : Mnemonic) (a v : Byte) (k : Nat) : (logicByte mn a v).getLsbD k =
    (if mn = .and then a.getLsbD k && v.getLsbD k
     else if mn = .ora then a.getLsbD k || v.getLsbD k
     else a.getLsbD k != v.getLsbD k) := by
  unfold logicByte
  split_ifs
  · exact BitVec.getLsbD_and
  · exact BitVec.getLsbD_or
  · exact BitVec.getLsbD_xor

theorem operationOf_logic (o : Operand) (hm : mn ∈ [.and, .ora, .eor]) : operationOf mn o =
    some (reading (aluA fun a v p => (logicByte mn a v, setZeroNegative (logicByte mn a v) p)) o) := by
  simp only [List.mem_cons, List.not_mem_nil, or_false] at hm
  rcases hm with rfl | rfl | rfl <;> rfl

/-! ### Compares -/

/-- The register that CMP, CPX and CPY compare (R225 to R227). -/
def comparedRegister (mn : Mnemonic) (s : State) : Byte :=
  if mn = .cmp then s.a else if mn = .cpx then s.x else s.y

theorem operationOf_compare (o : Operand) (hm : mn ∈ [.cmp, .cpx, .cpy]) : operationOf mn o =
    some (reading (fun v s => s.setP (compareFlags (comparedRegister mn s) v s.p)) o) := by
  simp only [List.mem_cons, List.not_mem_nil, or_false] at hm
  rcases hm with rfl | rfl | rfl <;> rfl

/-! ### Steps by one, and shifts -/

/-- The byte, as a number, that INC and DEC write back (R165). -/
def steppedByte (mn : Mnemonic) (v : Byte) : Nat :=
  if mn = .inc then (v.toNat + 1) % 256 else (v.toNat + 255) % 256

theorem incF_eq (v : Byte) (p : Flags) : incF v p =
    (BitVec.ofNat 8 (steppedByte .inc v), Flags.ofResult (steppedByte .inc v) p) := by
  have hnum : (v + 1).toNat = steppedByte .inc v := BitVec.toNat_add ..
  rw [incF, setZeroNegative_eq, ← hnum, BitVec.ofNat_toNat, BitVec.setWidth_eq]

theorem decF_eq (v : Byte) (p : Flags) : decF v p =
    (BitVec.ofNat 8 (steppedByte .dec v), Flags.ofResult (steppedByte .dec v) p) := by
  have hnum : (v - 1).toNat = steppedByte .dec v := by
    rw [BitVec.toNat_sub, Nat.add_comm]
    rfl
  rw [decF, setZeroNegative_eq, ← hnum, BitVec.ofNat_toNat, BitVec.setWidth_eq]

theorem operationOf_incDec (m : MemOperand) (hm : mn ∈ [.inc, .dec]) : operationOf mn (.mem m) =
    some (modifying (fun v p =>
      (BitVec.ofNat 8 (steppedByte mn v), Flags.ofResult (steppedByte mn v) p)) m) := by
  simp only [List.mem_cons, List.not_mem_nil, or_false] at hm
  rcases hm with rfl | rfl
  · simp only [← incF_eq]
    rfl
  · simp only [← decF_eq]
    rfl

/-- The transform of a shift or rotate, by its mnemonic, said of numbers (R164). -/
def shiftF (mn : Mnemonic) (v : Byte) (p : Flags) : Byte × Flags :=
  let r := shiftResult mn v p.c
  (BitVec.ofNat 8 r.1, Flags.ofResult r.1 { p with c := r.2 })

theorem operationOf_shift (m : MemOperand) (hm : mn ∈ [.asl, .lsr, .rol, .ror]) :
    operationOf mn (.mem m) = some (modifying (shiftF mn) m) := by
  have hasl : aslF = shiftF .asl := funext₂ fun v p => (shift_eq v p).1
  have hlsr : lsrF = shiftF .lsr := funext₂ fun v p => (shift_eq v p).2.1
  have hrol : rolF = shiftF .rol := funext₂ fun v p => (shift_eq v p).2.2.1
  have hror : rorF = shiftF .ror := funext₂ fun v p => (shift_eq v p).2.2.2
  simp only [List.mem_cons, List.not_mem_nil, or_false] at hm
  rcases hm with rfl | rfl | rfl | rfl
  · rw [← hasl]; rfl
  · rw [← hlsr]; rfl
  · rw [← hrol]; rfl
  · rw [← hror]; rfl

end Sys2Proof.Machine
end

section
/-! SUPPORT. Addresses said of numbers: zero-page addresses, words read from the bus, and branch targets
(R62, R65, R122, R144). -/

namespace Sys2Proof.Machine

variable {s : State} {a : Addr} {n : Nat}

theorem zeroPage_toNat (b : Byte) : (zeroPage b).toNat = b.toNat :=
  BitVec.toNat_setWidth_of_le (by decide)

theorem zeroPage_eq (b : Byte) : zeroPage b = BitVec.ofNat 16 b.toNat := by
  rw [← zeroPage_toNat, BitVec.ofNat_toNat, BitVec.setWidth_eq]

/-- A word that stands on the bus is what reading it answers. -/
theorem memReadWord_of_wordAt (h : s.bus.WordAt a n) :
    ∃ w t, memReadWord a s = .ok w t ∧ s.AfterEvents t ∧ w.toNat = n := by
  obtain ⟨lo, hi, hlo, hhi, rfl⟩ := h
  obtain ⟨t, ht⟩ := memReadWord_of_read (peek_eq_some.mp hlo) (peek_eq_some.mp hhi)
  obtain ⟨_, _, -, -, -, ha⟩ := memReadWord_ok ht
  exact ⟨_, t, ht, ha, wordOf_toNat lo hi⟩

/-- The target of a branch is PC0 + 2 plus the signed offset (R144). -/
theorem branchTarget_eq (pc : Addr) (b : Byte) :
    branchTarget pc b = BitVec.ofInt 16 (pc.toNat + 2 + b.toInt) := by
  rw [BitVec.ofInt_add, BitVec.ofInt_add, BitVec.ofInt_natCast, BitVec.ofNat_toNat, BitVec.setWidth_eq]
  rfl

end Sys2Proof.Machine
end

section
/-! The statements of 40_addressing_alu.md: effective addresses and the shapes, and the instructions that
are an ALU primitive on an operand. -/

namespace Sys2Proof.Certificates

open Sys2Proof.Machine

/-- Settles O7: such an instruction is none of those that set PC themselves. -/
theorem standardShapesAdvancePc : Obligations.StandardShapesAdvancePc := by
  unfold Obligations.StandardShapesAdvancePc
  intro i d s t hd hshape h
  have hctl : i.mnemonic ∉ controlTransfers := by
    intro hmem
    obtain ⟨d', hd', hmnemonic, -⟩ := descriptorOf_opcode i
    obtain rfl : d' = d := Option.some.inj (hd'.symm.trans hd)
    rw [← hmnemonic] at hmem
    rcases shape_of_control_transfer (descriptorOf_some hd).1 hmem with hs | hs <;>
      simp [hs] at hshape
  obtain ⟨r, hr⟩ := exec_advances_of_not_control_transfer hctl s
  obtain ⟨u, -, rfl⟩ := advance_eq_next.mp (hr.symm.trans h)
  rw [State.setPc_pc, length_eq, BitVec.toNat_add, BitVec.toNat_ofNat, Nat.add_mod_mod]

/-- Settles O9: the sums by their widths, the pointers by the word the bus holds. -/
theorem effectiveAddresses : Obligations.EffectiveAddresses := by
  unfold Obligations.EffectiveAddresses
  intro s
  have hindex (b r : Byte) : (b + r).toNat = (b.toNat + r.toNat) % 256 := BitVec.toNat_add ..
  have hzp (b r : Byte) := (zeroPage_toNat (b + r)).trans (hindex b r)
  have habs (w : Addr) (r : Byte) : (w + r.setWidth 16).toNat = (w.toNat + r.toNat) % 65536 := by
    rw [BitVec.toNat_add, BitVec.toNat_setWidth_of_le (by decide)]
  refine ⟨fun b => ⟨_, rfl, zeroPage_toNat b⟩, fun b => ⟨_, rfl, hzp b s.x⟩,
    fun b => ⟨_, rfl, hzp b s.y⟩, fun w => ⟨_, rfl, rfl⟩, fun w => ⟨_, rfl, habs w s.x⟩,
    fun w => ⟨_, rfl, habs w s.y⟩, fun b n hword => ?_, fun b n hword => ?_⟩
  · rw [← hindex, ← zeroPage_eq] at hword
    exact memReadWord_of_wordAt hword
  · rw [← zeroPage_eq] at hword
    obtain ⟨w, t, hw, ha, rfl⟩ := memReadWord_of_wordAt hword
    refine ⟨_, t, by rw [effectiveAddress, hw, Res.bind_ok], ha, ?_⟩
    rw [habs, ha.y_eq]

/-- Settles O18: each load is a reading instruction that writes its one register and Z and N. -/
theorem loadsPutTheOperandInTheRegister : Obligations.LoadsPutTheOperandInTheRegister := by
  unfold Obligations.LoadsPutTheOperandInTheRegister
  intro i o s t v f ho
  rw [← setZeroNegative_eq]
  exact ⟨fun hm => ⟨mem_forms hm, execGives_of_reading ho hm rfl (writesRegisters_loadA v),
      exec_fault_of_reading ho hm rfl⟩,
    fun hm => ⟨mem_forms hm, execGives_of_reading ho hm rfl (writesRegisters_loadX v),
      exec_fault_of_reading ho hm rfl⟩,
    fun hm => ⟨mem_forms hm, execGives_of_reading ho hm rfl (writesRegisters_loadY v),
      exec_fault_of_reading ho hm rfl⟩⟩

/-- Settles O21: the adder said of numbers, which does not read D. -/
theorem adcAddsWithCarry : Obligations.AdcAddsWithCarry := by
  unfold Obligations.AdcAddsWithCarry
  intro i o s t v f hm ho
  refine ⟨mem_forms hm, exec_fault_of_reading ho hm rfl, fun hv => ?_⟩
  have hg := execGives_of_reading ho hm rfl (writesRegisters_aluA twosCompAdd v) hv
  rw [aluA, twosCompAdd_eq] at hg
  exact hg

/-- Settles O22: subtracting is adding the complement, said of numbers. -/
theorem sbcSubtractsWithBorrow : Obligations.SbcSubtractsWithBorrow := by
  unfold Obligations.SbcSubtractsWithBorrow
  intro i o s t v f hm ho
  refine ⟨mem_forms hm, exec_fault_of_reading ho hm rfl, fun hv => ?_⟩
  have hg := execGives_of_reading ho hm rfl (writesRegisters_aluA twosCompSubtract v) hv
  rw [aluA, twosCompSubtract_eq] at hg
  exact hg

/-- Settles O24: the three operations differ in the byte they make of A and the operand. -/
theorem logicCombinesBits : Obligations.LogicCombinesBits := by
  unfold Obligations.LogicCombinesBits
  intro i o s t v f ho
  refine ⟨fun hm => exec_fault_of_reading ho rfl (operationOf_logic o hm), fun hm hv => ?_,
    mem_forms, mem_forms, mem_forms⟩
  have hg := execGives_of_reading ho rfl (operationOf_logic o hm) (writesRegisters_aluA _ v) hv
  rw [aluA, setZeroNegative_eq] at hg
  exact ⟨_, hg, fun k _ => logicByte_getLsbD _ _ _ k⟩

/-- Settles O25: the three compares differ in the register they compare. -/
theorem comparesSetFlagsOnly : Obligations.ComparesSetFlagsOnly := by
  unfold Obligations.ComparesSetFlagsOnly
  intro i o s t v f ho
  refine ⟨fun hm => exec_fault_of_reading ho rfl (operationOf_compare o hm), fun hm hv => ?_,
    mem_forms, mem_forms, mem_forms⟩
  have hg := execGives_of_reading ho rfl (operationOf_compare o hm)
    (writesRegisters_setP fun _ _ => rfl) hv
  rw [compareFlags_eq] at hg
  exact hg

/-- Settles O27: both are modifying instructions, their step said of numbers. -/
theorem incDecModifyMemory : Obligations.IncDecModifyMemory := by
  unfold Obligations.IncDecModifyMemory
  intro i m s t u ea v f ho hm
  refine ⟨?_, exec_fault_of_modifying ho rfl (operationOf_incDec m hm),
    execGives_of_modifying ho rfl (operationOf_incDec m hm)⟩
  split_ifs with hinc
  · exact mem_forms hinc
  · exact mem_forms (List.mem_singleton.mp ((List.mem_cons.mp hm).resolve_left hinc))

/-- Settles O30: the shifts of memory are modifying instructions, told from those of A by their mode. -/
theorem memoryShifts : Obligations.MemoryShifts := by
  unfold Obligations.MemoryShifts
  intro i m s t u ea v f ho hm
  refine ⟨?_, exec_fault_of_modifying ho rfl (operationOf_shift m hm),
    execGives_of_modifying ho rfl (operationOf_shift m hm)⟩
  have hacc : i.mode ≠ .acc := operand_mode ho ▸ m.mode_ne_acc
  exact mem_tableEntries (part := fun mn mode => decide (mn ∈ [.asl, .lsr, .rol, .ror]) && mode != .acc)
    (by rw [Bool.and_eq_true, decide_eq_true_eq, bne_iff_ne]; exact ⟨hm, hacc⟩)

/-- Settles O31: the landing by the flag each branch tests. -/
theorem branchesTestTheirFlag : Obligations.BranchesTestTheirFlag := by
  unfold Obligations.BranchesTestTheirFlag
  intro s b landing
  have hset (flag : Bool) : branch flag true b s = .next (landing flag) := by
    rw [branch, branchTarget_eq]
    rfl
  have hclear (flag : Bool) : branch flag false b s = .next (landing !flag) := by
    rw [branch, branchTarget_eq]
    cases flag <;> rfl
  exact ⟨rfl, hclear _, hset _, hclear _, hset _, hclear _, hset _, hclear _, hset _⟩

/-- Settles O32: the word at the operand address is read, or its first unreadable byte faults. -/
theorem jmpLoadsPc : Obligations.JmpLoadsPc := by
  unfold Obligations.JmpLoadsPc
  intro s w n
  refine ⟨rfl, rfl, rfl, fun hword => ?_, fun m cart a hb hfails => ?_⟩
  · obtain ⟨target, t, ht, ha, rfl⟩ := memReadWord_of_wordAt hword
    rw [BitVec.ofNat_toNat, BitVec.setWidth_eq]
    exact ⟨_, jump_eq_next.mpr ⟨target, t, ht, rfl⟩, ha.setPc target⟩
  · exact jump_eq_fault.mpr (memReadWord_of_fails hb hfails)

end Sys2Proof.Certificates
end

section
/-! SUPPORT. The Standard shape without a read: what a store gives, whose address computation always
answers, and what an implied instruction gives (R171, R203). -/

namespace Sys2Proof.Machine

variable {i : Instr} {m : MemOperand} {s t : State} {ea : Addr}

/-- A store changes the bus alone: its register's byte is written to the effective address. -/
theorem execGives_of_storing {src : State → Byte} (ho : i.operand = some (.mem m))
    (hop : operationOf i.mnemonic (.mem m) = some (storing src m))
    (hsrc : ∀ {t}, s.AfterEvents t → src t = src s) (hea : effectiveAddress m s = .ok ea t) :
    ExecGives i s ((s.setBus (s.bus.write ea (src s))).setPc (s.pc + BitVec.ofNat 16 i.length)) := by
  have ha := effectiveAddress_after hea
  have hw := memWrite_after ea (src t) t
  rw [ha.bus_eq, hsrc ha] at hw
  refine ⟨_, ?_, ((ha.setBus _).trans hw).setPc _⟩
  rw [exec_eq_of_operation ho rfl hop, storing_of_ok hea, hsrc ha, ← operand_length ho]
  rfl

/-- An implied instruction gives what its update makes, one byte further on. -/
theorem implied_eq (f : State → State) (s : State) :
    implied f s = .next ((f s).setPc (s.pc + 1)) := rfl

end Sys2Proof.Machine
end

section
/-! The statements of 41_load_store_transfer.md on stores and register transfers. -/

namespace Sys2Proof.Certificates

open Sys2Proof.Machine

/-- Settles O19: each store is a storing instruction, and the events of its pointer's reads leave the
register it stores alone. -/
theorem storesWriteTheRegister : Obligations.StoresWriteTheRegister := by
  unfold Obligations.StoresWriteTheRegister
  intro i m s ho
  obtain ⟨ea, t, hea⟩ := effectiveAddress_answers m s
  exact ⟨ea, t, hea,
    fun hm => ⟨mem_forms hm, execGives_of_storing ho (by rw [hm]; rfl) State.AfterEvents.a_eq hea⟩,
    fun hm => ⟨mem_forms hm, execGives_of_storing ho (by rw [hm]; rfl) State.AfterEvents.x_eq hea⟩,
    fun hm => ⟨mem_forms hm, execGives_of_storing ho (by rw [hm]; rfl) State.AfterEvents.y_eq hea⟩⟩

/-- Settles O20: the transfers are implied instructions that load a register from another, with Z and N;
TXS sets SP alone. -/
theorem transfersMoveRegisters : Obligations.TransfersMoveRegisters := by
  unfold Obligations.TransfersMoveRegisters
  intro s
  simp only [← setZeroNegative_eq]
  exact ⟨⟨rfl, implied_eq (fun t => loadX t.a t) s⟩, ⟨rfl, implied_eq (fun t => loadY t.a t) s⟩,
    ⟨rfl, implied_eq (fun t => loadA t.x t) s⟩, ⟨rfl, implied_eq (fun t => loadA t.y t) s⟩,
    ⟨rfl, implied_eq (fun t => loadX t.sp t) s⟩, rfl, implied_eq (fun t => t.setSp t.x) s⟩

end Sys2Proof.Certificates
end

section
/-! SUPPORT. The adder run back by SBC, and the flags of BIT said of numbers and of single bits (R161,
R162, R228). -/

namespace Sys2Proof.Machine

/-- A reading instruction completes in every state where its operand is immediate (R143). -/
theorem reading_imm (f : Byte → State → State) (b : Byte) (s : State) :
    reading f (.imm b) s = .next ((f b s).setPc (s.pc + 2)) := reading_of_ok rfl

/-- Subtracting with the complemented carry runs the adder back: the borrow taken is the carry added, and
the byte lost and regained is a whole turn of 256. -/
theorem twosCompSubtract_twosCompAdd {p q : Flags} (hc : q.c = !p.c) (a b : Byte) :
    (twosCompSubtract (twosCompAdd a b p).1 b q).1 = a := by
  have hborrow : (1 - (!p.c).toNat : Int) = p.c.toNat := by cases p.c <;> rfl
  apply BitVec.eq_of_toNat_eq
  rw [twosCompSubtract_eq, twosCompAdd_eq, hc, BitVec.toNat_ofInt, borrowDiff, hborrow,
    BitVec.toNat_ofNat, sum9]
  have ha := a.isLt
  omega

theorem and_eq_zero_iff_no_shared_bit (a v : Byte) :
    a &&& v = 0 ↔ ∀ k : Fin 8, ¬ (a.getLsbD k = true ∧ v.getLsbD k = true) := by
  rw [BitVec.eq_of_getLsbD_eq_iff, Fin.forall_iff]
  simp

theorem getLsbD_six (v : Byte) : v.getLsbD 6 = decide (64 ≤ v.toNat % 128) := by
  revert v
  decide

/-- `bitTest` said of shared bits and of the operand's number (R228). -/
theorem bitTest_eq (a v : Byte) (p : Flags) : bitTest a v p = { p with
    z := decide (∀ k : Fin 8, ¬ (a.getLsbD k = true ∧ v.getLsbD k = true))
    n := decide (128 ≤ v.toNat)
    v := decide (64 ≤ v.toNat % 128) } := by
  rw [bitTest, getLsbD_seven, getLsbD_six, beq_eq_decide,
    decide_eq_decide.mpr (and_eq_zero_iff_no_shared_bit a v)]

end Sys2Proof.Machine
end

section
/-! The statements of 42_arith_logic.md on SBC after ADC and on BIT. -/

namespace Sys2Proof.Certificates

open Sys2Proof.Machine

/-- Settles O23: the immediate forms answer in every state, and SBC's subtraction runs ADC's adder back. -/
theorem sbcUndoesAdc : Obligations.SbcUndoesAdc := by
  unfold Obligations.SbcUndoesAdc
  intro s t u b hadc hsbc
  obtain rfl := Host.Outcome.next.inj ((reading_imm (aluA twosCompAdd) b s).symm.trans hadc)
  obtain rfl := Host.Outcome.next.inj ((reading_imm (aluA twosCompSubtract) b _).symm.trans hsbc)
  exact twosCompSubtract_twosCompAdd rfl s.a b

/-- Settles O26: BIT is a reading instruction that writes flags alone. -/
theorem bitTestsTheOperand : Obligations.BitTestsTheOperand := by
  unfold Obligations.BitTestsTheOperand
  intro i o s t v f hm ho
  refine ⟨mem_forms hm, exec_fault_of_reading ho hm rfl, fun hv => ?_⟩
  have hg := execGives_of_reading ho hm rfl (writesRegisters_setP fun _ _ => rfl) hv
  rw [bitTest_eq] at hg
  exact hg

end Sys2Proof.Certificates
end

section
/-! SUPPORT. The steps of an index register by one, and the transforms of the accumulator, said of numbers
(R164, R165). -/

namespace Sys2Proof.Machine

/-! ### Steps of X and Y -/

/-- A byte and its Z and N do not depend on the turns of 256 in the number they come from (R160). -/
theorem ofNat_ofResult_mod (n : Nat) (p : Flags) :
    (BitVec.ofNat 8 (n % 256), Flags.ofResult (n % 256) p) = (BitVec.ofNat 8 n, Flags.ofResult n p) := by
  have hbyte : BitVec.ofNat 8 (n % 256) = BitVec.ofNat 8 n :=
    BitVec.eq_of_toNat_eq (Nat.mod_mod n 256)
  rw [hbyte, Flags.ofResult_congr (Nat.mod_mod n 256)]

theorem incF_eq_ofNat (v : Byte) (p : Flags) :
    incF v p = (BitVec.ofNat 8 (v.toNat + 1), Flags.ofResult (v.toNat + 1) p) :=
  (incF_eq v p).trans (ofNat_ofResult_mod _ p)

/-- One less is 255 more, modulo 256 (R165). -/
theorem decF_eq_ofNat (v : Byte) (p : Flags) :
    decF v p = (BitVec.ofNat 8 (v.toNat + 255), Flags.ofResult (v.toNat + 255) p) :=
  (decF_eq v p).trans (ofNat_ofResult_mod _ p)

/-- An implied transform of X leaves its byte, its flags and the next PC. -/
theorem implied_onX (f : Byte → Flags → Byte × Flags) (s : State) :
    implied (fun t => (t.setX (f t.x t.p).1).setP (f t.x t.p).2) s =
      .next { s with x := (f s.x s.p).1, p := (f s.x s.p).2, pc := s.pc + 1 } := implied_eq _ s

/-- An implied transform of Y leaves its byte, its flags and the next PC. -/
theorem implied_onY (f : Byte → Flags → Byte × Flags) (s : State) :
    implied (fun t => (t.setY (f t.y t.p).1).setP (f t.y t.p).2) s =
      .next { s with y := (f s.y s.p).1, p := (f s.y s.p).2, pc := s.pc + 1 } := implied_eq _ s

/-! ### Transforms of A -/

theorem mode_eq_acc {i : Instr} (h : i.mode = .acc) :
    i = .aslAcc ∨ i = .lsrAcc ∨ i = .rolAcc ∨ i = .rorAcc := by
  cases i <;> cases h <;> decide

/-- An instruction of accumulator mode is the shift or rotate of its mnemonic, applied to A. -/
theorem exec_of_mode_acc {i : Instr} (h : i.mode = .acc) :
    exec i = onAccumulator (shiftF i.mnemonic) := by
  rcases mode_eq_acc h with rfl | rfl | rfl | rfl
  · exact congrArg onAccumulator (funext₂ fun v p => (shift_eq v p).1)
  · exact congrArg onAccumulator (funext₂ fun v p => (shift_eq v p).2.1)
  · exact congrArg onAccumulator (funext₂ fun v p => (shift_eq v p).2.2.1)
  · exact congrArg onAccumulator (funext₂ fun v p => (shift_eq v p).2.2.2)

/-- An accumulator-mode transform leaves its byte, its flags and the next PC. -/
theorem onAccumulator_eq (f : Byte → Flags → Byte × Flags) (s : State) : onAccumulator f s =
    .next { s with a := (f s.a s.p).1, p := (f s.a s.p).2, pc := s.pc + 1 } := rfl

end Sys2Proof.Machine
end

section
/-! The statements of 43_incdec_shift.md on the index registers and the accumulator. -/

namespace Sys2Proof.Certificates

open Sys2Proof.Machine

/-- Settles O28: each is an implied transform of its register, said of the register's number. -/
theorem indexIncDec : Obligations.IndexIncDec := by
  unfold Obligations.IndexIncDec
  intro s
  exact ⟨⟨rfl, (implied_onX incF s).trans (by rw [incF_eq_ofNat])⟩,
    ⟨rfl, (implied_onY incF s).trans (by rw [incF_eq_ofNat])⟩,
    ⟨rfl, (implied_onX decF s).trans (by rw [decF_eq_ofNat])⟩,
    rfl, (implied_onY decF s).trans (by rw [decF_eq_ofNat])⟩

/-- Settles O29: the instructions of accumulator mode apply the transform of their mnemonic to A. -/
theorem accumulatorShifts : Obligations.AccumulatorShifts := by
  unfold Obligations.AccumulatorShifts
  intro i s hacc
  have hentry := mem_tableEntries (part := fun _ mode => mode == .acc) (beq_iff_eq.mpr hacc)
  refine ⟨List.mem_map_of_mem (f := fun e : Mnemonic × Mode × Byte => (e.1, e.2.2)) hentry, ?_⟩
  rw [exec_of_mode_acc hacc, onAccumulator_eq]
  rfl

end Sys2Proof.Certificates
end

section
/-! SUPPORT. Several pushed bytes read back, and what an interrupt entry's caller finds on the bus (R68,
R70, R330). -/

namespace Sys2Proof.Machine

/-! ### Several pushes -/

/-- Pushes from `sp` down leave a stack byte alone that they do not reach. -/
theorem peek_pushed_frame {b : Bus} {sp sp' : Byte} {vs : List Byte}
    (h : vs.length ≤ (sp - sp').toNat) :
    (b.pushed sp vs).peek (stackAddr sp') = b.peek (stackAddr sp') := by
  induction vs generalizing b sp with
  | nil => rfl
  | cons v vs ih =>
    rw [List.length_cons] at h
    have hrest : vs.length ≤ (sp - 1 - sp').toNat := by bv_omega
    have hne : sp ≠ sp' := by
      rintro rfl
      simp at h
    rw [Bus.pushed, ih hrest, peek_pushed_other hne]

/-- The pushed byte number `k` is read back `k` below the first, in a canonical memory, as long as the
pushes do not come round to it again. -/
theorem peek_pushed_getElem {b : Bus} (hw : b.wf = true) (sp : Byte) {vs : List Byte}
    (hlen : vs.length ≤ 256) {k : Nat} (hk : k < vs.length) :
    (b.pushed sp vs).peek (stackAddr (sp - BitVec.ofNat 8 k)) = some vs[k] := by
  induction vs generalizing b sp k with
  | nil => cases hk
  | cons v vs ih =>
    rw [List.length_cons] at hlen hk
    cases k with
    | zero =>
      have hrest : vs.length ≤ (sp - 1 - (sp - BitVec.ofNat 8 0)).toNat := by bv_omega
      rw [Bus.pushed, peek_pushed_frame hrest, BitVec.sub_zero]
      exact peek_pushed_same hw sp v
    | succ k =>
      have hstep : sp - BitVec.ofNat 8 (k + 1) = sp - 1 - BitVec.ofNat 8 k := by
        rw [BitVec.sub_sub, Nat.add_comm, BitVec.ofNat_add]
        rfl
      rw [hstep]
      exact ih (Bus.write_wf _ v hw) (sp - 1) (by omega) (by omega)

/-- What a stack read finds after pushes is the byte pushed there, in a canonical memory. -/
theorem eq_getElem_of_read_pushed {b : Bus} (hw : b.wf = true) {sp sp' v : Byte} {vs : List Byte}
    (hv : (b.pushed sp vs).read (stackAddr sp') = .ok v) (hlen : vs.length ≤ 256) {k : Nat}
    (hk : k < vs.length) (hsp : sp' = sp - BitVec.ofNat 8 k) : v = vs[k] := by
  subst hsp
  exact Option.some.inj ((peek_eq_some.mpr hv).symm.trans (peek_pushed_getElem hw sp hlen hk))

/-! ### Calls and returns -/

theorem exec_jsr (w : Addr) (s : State) :
    exec (.jsr w) s = .next ((pushAddr (s.pc + 2) s).setPc w) := rfl

/-- RTS with a pushed address on top of the stack goes one past it, and SP is back where it was before
the push (R282). -/
theorem rts_of_pushed {s t : State} {w : Addr} (hs : s.Inv)
    (hbus : t.bus = s.bus.pushed s.sp [highByte w, lowByte w]) (hsp : t.sp = s.sp - 2) :
    ∃ u, exec .rts t = .next u ∧ u.pc = w + 1 ∧ u.sp = s.sp := by
  obtain ⟨lo, hi, hlo, hhi, u, hu, ha⟩ := rts_gives t
  rw [hbus, hsp] at hlo hhi
  obtain rfl : lo = lowByte w :=
    eq_getElem_of_read_pushed hs hlo (by simp) (k := 1) (by simp) (by bv_omega)
  obtain rfl : hi = highByte w :=
    eq_getElem_of_read_pushed hs hhi (by simp) (k := 0) (by simp) (by bv_omega)
  refine ⟨u, hu, ha.pc_eq.trans ?_, ha.sp_eq.trans ?_⟩
  · rw [State.setPc_pc, wordOf_lowByte_highByte]
  · rw [State.setPc_sp, State.setSp_sp, hsp, BitVec.sub_add_cancel]

/-- RTI with a pushed address and status byte on top of the stack takes PC and the flags from them and
moves SP back, and leaves the other registers alone (R283, R338). -/
theorem rti_of_pushed {s t : State} {w : Addr} {st : Byte} (hs : s.Inv)
    (hbus : t.bus = s.bus.pushed s.sp [highByte w, lowByte w, st]) (hsp : t.sp = s.sp - 3) :
    ∃ u, exec .rti t = .next u ∧ u.p = unpack st ∧ u.sp = s.sp ∧ u.pc = w ∧
      u.a = t.a ∧ u.x = t.x ∧ u.y = t.y := by
  obtain ⟨st', lo, hi, hst, hlo, hhi, u, hu, ha⟩ := rti_gives t
  rw [hbus, hsp] at hst hlo hhi
  obtain rfl : st' = st :=
    eq_getElem_of_read_pushed hs hst (by simp) (k := 2) (by simp) (by bv_omega)
  obtain rfl : lo = lowByte w :=
    eq_getElem_of_read_pushed hs hlo (by simp) (k := 1) (by simp) (by bv_omega)
  obtain rfl : hi = highByte w :=
    eq_getElem_of_read_pushed hs hhi (by simp) (k := 0) (by simp) (by bv_omega)
  refine ⟨u, hu, ha.p_eq, ha.sp_eq.trans ?_, ha.pc_eq.trans ?_, ha.a_eq, ha.x_eq, ha.y_eq⟩
  · rw [State.setPc_sp, State.setP_sp, State.setSp_sp, hsp, BitVec.sub_add_cancel]
  · rw [State.setPc_pc, wordOf_lowByte_highByte]

/-! ### Interrupt entry -/

/-- The bytes of an interrupt entry, by the halves of its return address (R330). -/
theorem entryBytes_eq (ret : Addr) (s : State) :
    entryBytes ret s = [highByte ret, lowByte ret, pack s.p ||| s.params.intCtxMask] := by
  rw [entryBytes, highByte_eq, lowByte_eq]

/-- An interrupt entry whose vector stands on the bus after the pushes answers the vector's word
(R330). -/
theorem enterInterrupt_of_wordAt {ret vector : Addr} {s : State} {n : Nat}
    (h : (s.bus.pushed s.sp (entryBytes ret s)).WordAt vector n) :
    ∃ u, enterInterrupt ret vector s = .ok (BitVec.ofNat 16 n) u ∧
      ((s.setSp (s.sp - 3)).setBus (s.bus.pushed s.sp (entryBytes ret s))).AfterEvents u := by
  rw [entryBytes_eq] at h ⊢
  obtain ⟨lo, hi, hlo, hhi, rfl⟩ := h
  rw [← wordOf_eq]
  exact enterInterrupt_of_read (peek_eq_some.mp hlo) (peek_eq_some.mp hhi)

/-- BRK that completes leaves what the pushes of its entry leave, with I set and PC at some target
(R284). -/
theorem brk_after {s t : State} (h : exec .brk s = .next t) : ∃ target,
    ((((s.setSp (s.sp - 3)).setBus (s.bus.pushed s.sp (entryBytes (s.pc + 2) s))).setP
      { s.p with i := true }).setPc target).AfterEvents t := by
  obtain ⟨target, u, hbrk, rfl⟩ := jump_eq_next.mp h
  obtain ⟨_, v, hentry, hset⟩ := Res.bind_eq_ok.mp hbrk
  obtain ⟨rfl, rfl⟩ := Res.ok.inj hset
  obtain ⟨ha, -⟩ := enterInterrupt_ok hentry
  have hp : v.p = s.p := ha.p_eq
  rw [← entryBytes_eq] at ha
  rw [hp]
  exact ⟨_, (ha.setP _).setPc _⟩

end Sys2Proof.Machine
end

section
/-! The statements of 45_control.md on the returns from a call and from BRK, and on BRK. -/

namespace Sys2Proof.Certificates

open Sys2Proof.Machine

/-- Settles O35: JSR leaves the address of its last byte on the stack, and RTS goes one past it. -/
theorem rtsUndoesJsr : Obligations.RtsUndoesJsr := by
  unfold Obligations.RtsUndoesJsr
  intro s t w p hs h
  obtain rfl := Host.Outcome.next.inj ((exec_jsr w s).symm.trans h)
  have ha := pushAddr_after (s.pc + 2) s
  obtain ⟨u, hu, hpc, hsp⟩ := rts_of_pushed (t := (pushAddr (s.pc + 2) s).setPc p) hs ha.bus_eq ha.sp_eq
  exact ⟨u, hu, hpc.trans (BitVec.add_assoc ..), hsp⟩

/-- Settles O37: BRK is an interrupt entry through the IRQ vector, which does not read I; it sets I
after the pushes. -/
theorem brkEntersTheIrqHandler : Obligations.BrkEntersTheIrqHandler := by
  unfold Obligations.BrkEntersTheIrqHandler
  intro s n
  refine ⟨rfl, fun hword => ?_, fun m cart a hb hfails => ?_⟩
  · obtain ⟨u, hu, ha⟩ := enterInterrupt_of_wordAt hword
    have hp : u.p = s.p := ha.p_eq
    refine ⟨_, jump_eq_next.mpr ⟨_, _, by rw [hu, Res.bind_ok], rfl⟩, ?_⟩
    rw [hp]
    exact (ha.setP _).setPc _
  · rw [entryBytes_eq] at hfails
    exact jump_eq_fault.mpr (Res.bind_eq_raise.mpr (.inl (enterInterrupt_of_fails hb hfails)))

/-- Settles O38: RTI pulls what BRK's entry pushed, and unpacking undoes packing under the mask. -/
theorem rtiUndoesBrk : Obligations.RtiUndoesBrk := by
  unfold Obligations.RtiUndoesBrk
  intro s t p hs ⟨hmask, _⟩ h
  obtain ⟨_, hbrk⟩ := brk_after h
  rw [entryBytes_eq] at hbrk
  have ha := hbrk.setPc p
  obtain ⟨u, hu, hflags, hsp, hpc, hua, hux, huy⟩ := rti_of_pushed hs ha.bus_eq ha.sp_eq
  exact ⟨u, hu, hflags.trans (unpack_pack_or hmask s.p), hsp, hpc, hua.trans ha.a_eq,
    hux.trans ha.x_eq, huy.trans ha.y_eq⟩

end Sys2Proof.Certificates
end

section
/-! SUPPORT. What the instructions that push to the stack leave, and where a pull reads. -/

namespace Sys2Proof.Machine

/-- A push of `v` by an implied instruction completes in every state (R68). -/
theorem execGives_of_push {i : Instr} {v : Byte} {s : State}
    (h : exec i s = .next ((push v s).setPc (s.pc + 1))) :
    ExecGives i s (((s.setBus (s.bus.write (stackAddr s.sp) v)).setSp (s.sp - 1)).setPc (s.pc + 1)) :=
  ⟨_, h, (push_after v s).setPc _⟩

/-- The stack address a pull reads from, as a number: SP wraps in the stack page (R69). -/
theorem stackAddr_succ_eq (sp : Byte) :
    stackAddr (sp + 1) = BitVec.ofNat 16 (256 + (sp.toNat + 1) % 256) := by
  rw [stackAddr_eq, BitVec.toNat_add]
  rfl

end Sys2Proof.Machine
end

section
/-! The statements of 46_flags_stack_misc.md. -/

namespace Sys2Proof.Certificates

open Sys2Proof.Machine

/-- Settles O40: a push answers in every state, and a pull does as the stack page is readable. -/
theorem phaAndPlaMoveA : Obligations.PhaAndPlaMoveA := by
  unfold Obligations.PhaAndPlaMoveA
  intro s
  obtain ⟨v, hv, hpla⟩ := pla_gives s
  rw [setZeroNegative_eq] at hpla
  rw [← stackAddr_eq, ← stackAddr_succ_eq]
  exact ⟨⟨rfl, execGives_of_push (exec_pha s)⟩, rfl, v, peek_eq_some.mpr hv, hpla⟩

/-- Settles O41: PHP is a push of the packed status under its mask, and PLP unpacks the pulled byte. -/
theorem phpAndPlpMoveP : Obligations.PhpAndPlpMoveP := by
  unfold Obligations.PhpAndPlpMoveP
  intro s
  obtain ⟨st, hst, hplp⟩ := plp_gives s
  rw [← pack_eq, ← stackAddr_eq, ← stackAddr_succ_eq]
  exact ⟨⟨rfl, execGives_of_push (exec_php s)⟩, rfl, st, peek_eq_some.mpr hst, hplp⟩

/-- Settles O39: each is an implied instruction whose state change is one flag, or none. -/
theorem flagInstructionsAndNop : Obligations.FlagInstructionsAndNop := by
  unfold Obligations.FlagInstructionsAndNop
  intro s
  exact ⟨⟨rfl, implied_eq (fun t => t.setP { t.p with c := false }) s⟩,
    ⟨rfl, implied_eq (fun t => t.setP { t.p with c := true }) s⟩,
    ⟨rfl, implied_eq (fun t => t.setP { t.p with i := false }) s⟩,
    ⟨rfl, implied_eq (fun t => t.setP { t.p with i := true }) s⟩,
    ⟨rfl, implied_eq (fun t => t.setP { t.p with v := false }) s⟩,
    ⟨rfl, implied_eq (fun t => t.setP { t.p with d := false }) s⟩,
    ⟨rfl, implied_eq (fun t => t.setP { t.p with d := true }) s⟩,
    rfl, implied_eq (fun t => t) s⟩

end Sys2Proof.Certificates
end

section
/-! SUPPORT. The stuck-PC check: what ends a step in `StuckPC` (R323). -/

namespace Sys2Proof.Machine

variable {s : State} {i : Instr} {a pc0 : Addr}

theorem fetchInstr_ne_stuckPc : fetchInstr s ≠ .raise (.stuckPc a) := by
  intro h
  rcases fetchInstr_raise h with ⟨_, _, -, hf⟩ | ⟨_, -, -, hf⟩ <;> cases hf

theorem exec_ne_stuckPc : exec i s ≠ .fault (.stuckPc a) := by
  intro h
  obtain ⟨_, _, -, hf⟩ := exec_fault h
  cases hf

/-- A completed instruction passes the check unless the check is on and PC is where it was. -/
theorem completeStep_next_eq_stuckPc_iff {u : State} : completeStep pc0 (.next u) = .fault (.stuckPc a) ↔
    (u.params.stuckPcCheck = true ∧ u.pc = pc0) ∧ a = pc0 := by
  simp only [completeStep, State.setSteps_params, State.setSteps_pc]
  split_ifs with hstuck
  · simp [hstuck, eq_comm]
  · simp [hstuck]

/-- The parameters at the end of an instruction are those of the state it was fetched in. -/
theorem params_of_fetch_exec {t u : State} (hf : fetchInstr s = .ok i t) (he : exec i t = .next u) :
    u.params = s.params := by
  obtain ⟨_, -, -, -, -, -, hparams, -⟩ := exec_stored he
  exact hparams.trans (fetchInstr_after hf).params_eq

/-- A step ends in `StuckPC` by the check alone, which must be on and records PC0. -/
theorem check_of_runInstr_eq_stuckPc (h : runInstr s = .fault (.stuckPc a)) :
    s.params.stuckPcCheck = true ∧ a = s.pc := by
  cases hf : fetchInstr s with
  | raise f =>
    rw [runInstr, hf] at h
    cases h
    exact absurd hf fetchInstr_ne_stuckPc
  | ok i t =>
    rw [runInstr_of_fetch hf] at h
    cases he : exec i t with
    | next u =>
      rw [he, completeStep_next_eq_stuckPc_iff, params_of_fetch_exec hf he] at h
      obtain ⟨⟨hcheck, -⟩, ha⟩ := h
      exact ⟨hcheck, ha⟩
    | fault f =>
      rw [he] at h
      cases h
      exact absurd he exec_ne_stuckPc
    | refused r => exact absurd he (exec_not_refused i t r)

end Sys2Proof.Machine
end

section
/-! SUPPORT. The triggers of a machine that is not Faulted (R330 to R335). -/

namespace Sys2Proof.Machine

variable {s : State} {vector : Addr} {n : Nat}

/-- Running and Halted are the run states in which a trigger has effect (R335). -/
theorem trigger_eq_deliver (hrun : ∀ f, s.run ≠ .faulted f) (vector : Addr) :
    trigger vector s = deliver vector s := by
  unfold trigger
  split
  next f hf => exact absurd hf (hrun f)
  next => rfl

theorem deliver_of_raise {f : Fault} (h : enterInterrupt s.pc vector s = .raise f) :
    deliver vector s = (s.enterFaulted f, some f) := by
  rw [deliver, h]

/-- Where the vector stands on the bus after the pushes, a trigger is delivered and raises nothing. -/
theorem trigger_of_wordAt (hrun : ∀ f, s.run ≠ .faulted f)
    (h : (s.bus.pushed s.sp (entryBytes s.pc s)).WordAt vector n) :
    ∃ u, trigger vector s = (u, none) ∧
      (((s.setSp (s.sp - 3)).setBus (s.bus.pushed s.sp (entryBytes s.pc s))).setPc
        (BitVec.ofNat 16 n)).AfterEvents u := by
  obtain ⟨u, hu, ha⟩ := enterInterrupt_of_wordAt h
  exact ⟨_, by rw [trigger_eq_deliver hrun, deliver, hu], ha.setPc _⟩

/-- Where a byte of the vector is outside the ROM image after the pushes, a trigger leaves the machine
Faulted, recording the interrupted PC (R322). -/
theorem trigger_of_wordFails {m : MapperState} {cart : Cart} {a : Addr}
    (hrun : ∀ f, s.run ≠ .faulted f) (hb : s.bus = .mmc1 m cart)
    (h : (s.bus.pushed s.sp (entryBytes s.pc s)).WordFails vector a) :
    ∃ u, trigger vector s = (u, some (.mapperOffsetOverflow a (prgOffset m cart.romSize a) s.pc)) ∧
      u.run = .faulted (.mapperOffsetOverflow a (prgOffset m cart.romSize a) s.pc) ∧
      u.steps = s.steps := by
  rw [entryBytes_eq] at h
  rw [trigger_eq_deliver hrun, deliver_of_raise (enterInterrupt_of_fails hb h)]
  exact ⟨_, rfl, rfl, rfl⟩

theorem triggerIrq_of_masked (hmask : s.params.irqMaskedByI = true) (hi : s.p.i = true) :
    triggerIrq s = (s, none) := by
  rw [triggerIrq, if_pos ⟨hmask, hi⟩]

theorem triggerIrq_of_unmasked (h : s.params.irqMaskedByI = false ∨ s.p.i = false) :
    triggerIrq s = trigger s.params.vecIrq s := by
  rw [triggerIrq, if_neg]
  rintro ⟨hmask, hi⟩
  simp [hmask, hi] at h

end Sys2Proof.Machine
end

section
/-! SUPPORT. The run loop: how its boundaries stop it, and what holds at each of them (R324, R325,
R341). -/

namespace Sys2Proof.Machine

variable {s t u v : State}

/-! ### Boundaries -/

theorem boundary_of_haltReq (h : s.haltReq = true) :
    boundary s = some ((s.setHaltReq false).setRun .halted) := by
  rw [boundary, if_pos h]

/-- A boundary stops a run for a halt request, or else for a budget that is used up. -/
theorem boundary_eq_some (h : boundary s = some t) : t.run = .halted ∧ t.steps = s.steps ∧
    (s.haltReq = true ∨ ∃ n, s.params.instrBudget = some n ∧ n ≤ s.steps) := by
  cases hreq : s.haltReq with
  | true =>
    rw [boundary_of_haltReq hreq] at h
    cases h
    exact ⟨rfl, rfl, .inl rfl⟩
  | false =>
    rw [boundary, if_neg (by simp [hreq])] at h
    split at h
    next n hn =>
      split_ifs at h with hle
      cases h
      exact ⟨rfl, rfl, .inr ⟨n, hn, hle⟩⟩
    next => cases h

/-- A boundary lets a run go on only with budget left. -/
theorem steps_lt_of_boundary_eq_none {n : Nat} (h : boundary s = none)
    (hn : s.params.instrBudget = some n) : s.steps < n := by
  have hle : ¬ s.steps ≥ n := by
    intro hle
    simp only [boundary, hn, if_pos hle] at h
    split at h <;> cases h
  exact Nat.lt_of_not_ge hle

/-! ### The states of a run -/

/-- A step that completes sets the halt request by a callback at most (R36, R355). -/
theorem step_requests (h : step s = .next t) : Requests s t := by
  obtain ⟨i, u, v, ha, he, rfl⟩ := step_next h
  obtain ⟨_, -, -, -, -, -, -, hreq⟩ := exec_stored he
  exact ha.requests.trans ha.bp_eq hreq

/-- What a run that began in `s` keeps to at each of its boundaries `u`. -/
structure WithinRun (s u : State) : Prop where
  run_eq : u.run = .running
  params_eq : u.params = s.params
  bp_eq : u.bp = s.bp
  steps_le : ∀ n, s.params.instrBudget = some n → u.steps ≤ n
  haltReq_eq : s.bp = [] → u.haltReq = s.haltReq

/-- A run begins Running, with no step counted. -/
theorem WithinRun.start (hrun : s.run = .running) (hsteps : s.steps = 0) : WithinRun s s where
  run_eq := hrun
  params_eq := rfl
  bp_eq := rfl
  steps_le n _ := hsteps ▸ n.zero_le
  haltReq_eq _ := rfl

theorem WithinRun.not_faulted (h : WithinRun s u) (f : Fault) : u.run ≠ .faulted f := by
  rw [h.run_eq]
  exact nofun

/-- The budget is checked before each step, so a completed step exceeds it nowhere. -/
theorem WithinRun.step (h : WithinRun s u) (hgo : boundary u = none) (hstep : step u = .next v) :
    WithinRun s v := by
  obtain ⟨-, hparams, hbp, hrun, hsteps⟩ := step_stored hstep
  refine ⟨hrun, hparams.trans h.params_eq, hbp.trans h.bp_eq, fun n hn => ?_, fun hnil => ?_⟩
  · have hlt := steps_lt_of_boundary_eq_none hgo (h.params_eq ▸ hn)
    omega
  · exact ((step_requests hstep).1 (h.bp_eq.trans hnil)).trans (h.haltReq_eq hnil)

/-- A run loop ends at a boundary `v` of its run: the boundary stops it, the step from there faults, or
the fuel is used up, each iteration having completed one step. -/
theorem runLoop_cases (h : WithinRun s u) (fuel : Nat) : ∃ v, WithinRun s v ∧
    ((∃ t, boundary v = some t ∧ runLoop fuel u = .halted t) ∨
      (∃ f, runLoop fuel u = .faulted f (v.enterFaulted f)) ∨
      (v.steps = u.steps + fuel ∧ runLoop fuel u = .unfinished v)) := by
  induction fuel generalizing u with
  | zero => exact ⟨u, h, .inr (.inr ⟨rfl, rfl⟩)⟩
  | succ fuel ih =>
    cases hb : boundary u with
    | some t => exact ⟨u, h, .inl ⟨t, hb, by rw [runLoop, hb]⟩⟩
    | none =>
      rcases hostStep_cases h.not_faulted with ⟨w, hstep, hhost⟩ | ⟨f, -, hhost⟩
      · have hloop : runLoop (fuel + 1) u = runLoop fuel w := by rw [runLoop, hb, hhost]
        obtain ⟨-, -, -, -, hcount⟩ := step_stored hstep
        rw [hloop, show u.steps + (fuel + 1) = w.steps + fuel by omega]
        exact ih (h.step hb hstep)
      · exact ⟨u, h, .inr (.inl ⟨f, by rw [runLoop, hb, hhost]⟩)⟩

/-! ### The run of the host -/

/-- A run that begins in a machine that is not Faulted sets it Running and counts from 0. -/
theorem hostRun_eq_runLoop (hrun : ∀ f, s.run ≠ .faulted f) (fuel : Nat) :
    hostRun fuel s = runLoop fuel ((s.setRun .running).setSteps 0) := by
  unfold hostRun
  split
  next f hf => exact absurd hf (hrun f)
  next => rfl

theorem hostRun_of_haltReq (hrun : ∀ f, s.run ≠ .faulted f) (hreq : s.haltReq = true) (fuel : Nat) :
    hostRun (fuel + 1) s = .halted { s with haltReq := false, run := .halted, steps := 0 } := by
  rw [hostRun_eq_runLoop hrun, runLoop,
    boundary_of_haltReq (s := (s.setRun .running).setSteps 0) hreq]
  rfl

end Sys2Proof.Machine
end

section
/-! SUPPORT. The breakpoint registry: registering an entry (R351), and one entry's answer to an event
(R352, R355). -/

namespace Sys2Proof.Machine

variable {e : Breakpoint} {l : List Breakpoint}

/-! ### Registering -/

theorem registerEntry_of_not_mem (h : ∀ x ∈ l, ¬ (x.addr = e.addr ∧ x.name = e.name)) :
    registerEntry e l = l ++ [e] := by
  induction l with
  | nil => rfl
  | cons b l ih =>
    obtain ⟨hb, hl⟩ := List.forall_mem_cons.mp h
    rw [registerEntry, if_neg hb, ih hl, List.cons_append]

/-- The first entry of that name at that address is the one replaced. -/
theorem registerEntry_append_cons {x : Breakpoint} {r : List Breakpoint}
    (h : ∀ x ∈ l, ¬ (x.addr = e.addr ∧ x.name = e.name)) (hx : x.addr = e.addr ∧ x.name = e.name) :
    registerEntry e (l ++ x :: r) = l ++ e :: r := by
  induction l with
  | nil => rw [List.nil_append, registerEntry, if_pos hx, List.nil_append]
  | cons b l ih =>
    obtain ⟨hb, hl⟩ := List.forall_mem_cons.mp h
    rw [List.cons_append, registerEntry, if_neg hb, ih hl, List.cons_append]

/-- The entry replaced and the entry put in its place both stand at the address registered for. -/
theorem filter_registerEntry_of_ne {a : Addr} (h : a ≠ e.addr) (l : List Breakpoint) :
    (registerEntry e l).filter (fun x => x.addr = a) = l.filter (fun x => x.addr = a) := by
  induction l with
  | nil => simp [registerEntry, h.symm]
  | cons b l ih =>
    rw [registerEntry]
    split_ifs with hb
    · simp [hb.1, h.symm]
    · rw [List.filter_cons, List.filter_cons, ih]

/-! ### Answering -/

/-- An entry's answer, as a condition on the halt request. -/
theorem answer_eq_setHaltReq (k : EventKind) (a : Addr) (s : State) (e : Breakpoint) :
    State.answer k a s e = s.setHaltReq (s.haltReq || (decide (e.addr = a) && e.mask.covers k &&
      Config.callbackHalts State e.callback k a s)) := by
  unfold State.answer
  split_ifs with h
  · simp [h]
  · have hno : (decide (e.addr = a) && e.mask.covers k) = false := by simpa using h
    rw [hno, Bool.false_and, Bool.or_false, State.setHaltReq_self]

theorem event_of_one_entry {s : State} (h : s.bp = [e]) (k : EventKind) (a : Addr) :
    s.event k a = State.answer k a s e := by
  rw [State.event, h, List.foldl_cons, List.foldl_nil]

end Sys2Proof.Machine
end

section
/-! The statements of 60_exceptions.md: faults, interrupts, the run loop, breakpoints and reset. -/

namespace Sys2Proof.Certificates

open Sys2Proof.Machine

/-- Settles O8: neither the fetch nor an instruction's meaning raises `StuckPC`, so the check does. -/
theorem stuckPcIsRaisedExactlyWhenPcStays : Obligations.StuckPcIsRaisedExactlyWhenPcStays := by
  unfold Obligations.StuckPcIsRaisedExactlyWhenPcStays
  intro s hrun
  have hstep : step s = runInstr s := by rw [step, hrun]
  rw [hstep]
  refine ⟨fun i t u hf he => ?_, fun a => check_of_runInstr_eq_stuckPc⟩
  rw [runInstr_of_fetch hf, he, completeStep_next_eq_stuckPc_iff, params_of_fetch_exec hf he,
    and_iff_left rfl]

/-- Settles O14: a fault is at a byte the bus cannot read, which only the cartridge window has. -/
theorem instructionsFaultOnlyByOverflow : Obligations.InstructionsFaultOnlyByOverflow := by
  unfold Obligations.InstructionsFaultOnlyByOverflow
  intro i s
  refine ⟨exec_not_refused i s, fun f h => ?_⟩
  obtain ⟨a, off, hread, rfl⟩ := exec_fault h
  obtain ⟨m, cart, hb, ha, rfl, hoff⟩ := Bus.read_error hread
  exact ⟨m, cart, a, hb, ha, hoff, rfl⟩

/-- Settles O50: both are deliveries through their vectors, which do not read I. -/
theorem resetAndNmiDeliver : Obligations.ResetAndNmiDeliver := by
  unfold Obligations.ResetAndNmiDeliver
  intro s n hrun
  exact ⟨trigger_of_wordAt hrun, trigger_of_wordAt hrun,
    fun m cart a hb => ⟨trigger_of_wordFails hrun hb, trigger_of_wordFails hrun hb⟩⟩

/-- Settles O51: an IRQ that is not masked is a delivery through the IRQ vector. -/
theorem irqIsMaskedByI : Obligations.IrqIsMaskedByI := by
  unfold Obligations.IrqIsMaskedByI
  intro s n hrun
  refine ⟨triggerIrq_of_masked, fun hopen => ?_⟩
  rw [triggerIrq_of_unmasked hopen]
  exact ⟨trigger_of_wordAt hrun, fun m cart a hb => trigger_of_wordFails hrun hb⟩

/-- Settles O53, by the boundary at which the loop ended. -/
theorem runStopsAtBoundaries : Obligations.RunStopsAtBoundaries := by
  unfold Obligations.RunStopsAtBoundaries
  intro s t fuel n f hrun
  refine ⟨fun hreq => hostRun_of_haltReq hrun hreq fuel, ?_⟩
  rw [hostRun_eq_runLoop hrun]
  obtain ⟨v, hv, hend⟩ := runLoop_cases
    (WithinRun.start (s := (s.setRun .running).setSteps 0) rfl rfl) fuel
  rcases hend with ⟨t', hstop, hloop⟩ | ⟨g, hloop⟩ | ⟨hcount, hloop⟩ <;> rw [hloop]
  · -- stopped by a boundary
    obtain ⟨hhalted, hsteps, hwhy⟩ := boundary_eq_some hstop
    refine ⟨?_, nofun, fun hn => ⟨?_, nofun, ?_⟩⟩
    · rintro ⟨⟩
      exact hhalted
    · rintro (⟨⟨⟩⟩ | ⟨⟨⟩⟩)
      exact hsteps ▸ hv.steps_le n hn
    · rintro hnil hreq ⟨⟩
      rcases hwhy with hset | ⟨n', hn', hle⟩
      · exact absurd (hset.symm.trans (hv.haltReq_eq hnil)) (by simp [hreq])
      · obtain rfl : n' = n := Option.some.inj (hn'.symm.trans (hv.params_eq ▸ hn))
        exact hsteps.trans (Nat.le_antisymm (hv.steps_le n' hn) hle)
  · -- stopped by a fault
    refine ⟨nofun, ?_, fun _ => ⟨by simp, nofun, nofun⟩⟩
    rintro ⟨⟩
    rfl
  · -- out of fuel
    refine ⟨nofun, nofun, fun hn => ⟨?_, fun hfuel => ?_, nofun⟩⟩
    · rintro (⟨⟨⟩⟩ | ⟨⟨⟩⟩)
      exact hv.steps_le n hn
    · have hle := hv.steps_le n hn
      rw [hcount, State.setSteps_steps] at hle
      omega

/-- Settles O55: the registry is searched for the first entry of that name at that address. -/
theorem registerBreakpoint : Obligations.RegisterBreakpoint := by
  unfold Obligations.RegisterBreakpoint
  intro s mask name a cb
  refine ⟨fun hempty => if_neg (not_not_intro hempty), fun hmask => ⟨_, if_pos hmask, rfl, ?_, ?_, ?_⟩⟩
  · exact fun a' hne => filter_registerEntry_of_ne hne s.bp
  · exact registerEntry_of_not_mem (e := ⟨a, name, mask, cb⟩)
  · intro l r e hl hbefore haddr hname
    rw [State.setBp_bp, hl]
    exact registerEntry_append_cons hbefore ⟨haddr, hname⟩

/-- Settles O11: an event is the fold of the answers, and one entry's answer is a condition on the halt
request. -/
theorem breakpointAnswersItsEvent : Obligations.BreakpointAnswersItsEvent := by
  unfold Obligations.BreakpointAnswersItsEvent
  intro s k a
  refine ⟨event_eq_answered s k a, fun e he => ?_⟩
  rw [event_of_one_entry he, answer_eq_setHaltReq]
  cases k <;> rfl

/-- Settles O57: without breakpoints a reset leaves exactly its delivery, through a vector that reads
0 in the blank cartridge. -/
theorem resetLeavesThePowerOnValues : Obligations.ResetLeavesThePowerOnValues := by
  unfold Obligations.ResetLeavesThePowerOnValues
  refine ⟨?_, rfl, rfl, rfl, rfl, ⟨[], [], _, rfl⟩, rfl, rfl, rfl⟩
  obtain ⟨u, hu, ha⟩ := trigger_of_wordAt (s := State.powerOn) (vector := State.powerOn.params.vecReset)
    (n := 0) nofun ⟨0, 0, rfl, rfl, rfl⟩
  rw [triggerReset, hu, ha.eq_of_no_bp rfl]
  rfl

end Sys2Proof.Certificates
end
